-- ==== Sys2Proof/Word.lean ====
section
/-! DEFINITION. The word types of the model: bytes, 32-bit words and register images (rules R10, R16, R20). -/

namespace Sys2Proof

/-- One byte of application memory, of an operation word, or of a run file. -/
abbrev Byte := BitVec 8

/-- A 32-bit quantity: an address, a length, a cursor, a count or the clock (rule R16; decisions D7, D8, D35). -/
abbrev Word := BitVec 32

/-- One register image (rule R10). `IMG_W` is a parameter, so an image is a number; `Params.wf` and the shape
invariant of Safety.lean say that it lies below `2^IMG_W`. The block never takes an image apart (rule R111). -/
abbrev Image := Nat

end Sys2Proof
end

