-- ==== Sys2Proof/Config.lean ====
section
/-! DEFINITION. The implementation parameters of 00_scope.md section 3, and the open constants of this machine.
Every parameter the spec marks OPEN, or calls a model argument, is a field of `Params`, and `State` holds one
`Params`: a statement about every state speaks of every value of the parameters. -/

namespace Sys2Proof

/-- The spec's parameters (rule R19). -/
structure Params where
  /-- The ring capacity is `N = 2^logN` (rule R7: a power of two, at least 2). -/
  logN : Nat
  /-- `STALL_TIMEOUT_MS` (rule R9). -/
  stallTimeoutMs : Nat
  /-- `IMG_W`, the width of a register image (rule R10). -/
  imgW : Nat
  /-- `TRANSLATE`, the 256 images of the Byte-to-Signal Table, byte 0 first (rules R11, R44). -/
  table : List Image
  /-- `PARITY_MASK` (rule R12). -/
  parityMask : Image
  /-- `TIMER_EGR_UPDATE` (rule R14). -/
  timerEgrUpdate : Word
  /-- `PREFETCH_DEPTH` (rule R15). -/
  prefetchDepth : Nat
  /-- `BASE`, the base of the register view (rules R19, R58). That it is a word of 32 bits is a DESIGN CHOICE: the spec
  leaves `BASE` OPEN and gives it no width (log entry 30). -/
  base : Word
  /-- The hardwired word of DMAA_MADDR, 'ring base' (rule R58), to which the spec gives no value. -/
  ringBase : Word
  deriving DecidableEq, Repr, Inhabited

namespace Params

/-- `N`, the ring capacity (rule R7). -/
def n (p : Params) : Nat := 2 ^ p.logN

/-- `HALF = N / 2` (rule R8). -/
def half (p : Params) : Nat := p.n / 2

/-- `N` as a cursor value. -/
def nWord (p : Params) : Word := BitVec.ofNat 32 p.n

/-- `HALF` as a cursor value. -/
def halfWord (p : Params) : Word := BitVec.ofNat 32 p.half

/-- `MASK = N - 1` (rule R8). -/
def mask (p : Params) : Word := BitVec.ofNat 32 (p.n - 1)

/-- `TRANSLATE(b)` (rule R11). -/
def translate (p : Params) (b : Byte) : Image := p.table.getD b.toNat 0

/-- `POISON = TRANSLATE(0x00) ^ PARITY_MASK` (rule R13; decision D5). -/
def poison (p : Params) : Image := p.translate 0 ^^^ p.parityMask

/-- Rule R7: a power of two with `N >= 2`. That `N` is a 32-bit cursor value is DEDUCED from
`dma_fillto <- N` (rule R144) and from register DMAA_LEN (rule R58); log entry 3. -/
def ringOk (p : Params) : Bool := 1 ≤ p.logN && p.logN ≤ 31

/-- Rule R10: `IMG_W >= 1`, and rule R11: 256 images of `IMG_W` bits. -/
def tableShapeOk (p : Params) : Bool :=
  1 ≤ p.imgW && p.table.length == 256 && p.table.all (fun v => decide (v < 2 ^ p.imgW))

/-- Rule R11, TR1: the images are pairwise distinct. -/
def tableDistinct (p : Params) : Bool := decide p.table.Nodup

/-- Rule R11, TR2: the poison image is no image of the table. -/
def poisonInvalid (p : Params) : Bool := !p.table.contains p.poison

/-- Rule R12: exactly one bit, inside the image. -/
def parityOk (p : Params) : Bool := (List.range p.imgW).any (fun k => p.parityMask == 2 ^ k)

/-- Rule R15: `0 <= PREFETCH_DEPTH <= HALF`. -/
def prefetchOk (p : Params) : Bool := p.prefetchDepth ≤ p.half

/-- All the properties 00_scope.md gives the parameters. -/
def wf (p : Params) : Bool :=
  p.ringOk && p.tableShapeOk && p.parityOk && p.prefetchOk && p.tableDistinct && p.poisonInvalid

end Params

namespace Config

/-- The image of the fixture table of 95_test_vectors.md section 1.1: the byte, and in bit 8 whether it has an
even number of 1 bits. -/
def vectorImage (b : Nat) : Image :=
  b ||| (if ((List.range 8).filter (fun k => b.testBit k)).length % 2 = 0 then 0x100 else 0)

/-- The fixture of 95_test_vectors.md section 1.1 with ring capacity `2^logN` and the given prefetch depth. It is
a test choice of the spec's, not a claim about the hardware. -/
def vectorParams (logN prefetch : Nat) : Params where
  logN := logN
  stallTimeoutMs := 5000
  imgW := 32
  table := (List.range 256).map vectorImage
  parityMask := 0x100
  timerEgrUpdate := 1
  prefetchDepth := prefetch
  base := 0
  ringBase := 0

/-- The open parameters of the one machine that `State.reset` describes. No body: nothing in Lean can evaluate it
(log entry 2). -/
opaque openParams : Params

/-- The parameters of the machine that `State.reset` describes: the open ones, which must meet `Params.wf`. Where
the open constant does not meet it, the constant says nothing of any hardware and the fixture stands in, so that
`params.wf` holds. -/
def params : Params := if openParams.wf then openParams else vectorParams 8 0

/-- Ring contents at power-on: UNSPECIFIED, any image per slot (rule R43; U1). No body. -/
opaque ringPowerOn : Nat → Nat

/-- `OUT` at power-on: UNSPECIFIED, any image (rule R53; U2). No body. -/
opaque outPowerOn : Nat

end Config

end Sys2Proof
end

