-- ==== Sys2Proof/Syntax.lean ====
section
/-! DEFINITION. The operations of spec/opcode_table.json, one constructor per row, the agents that issue them and
their formats (rules R6, R113 to R117). -/

namespace Sys2Proof

/-- The agents of rule R6. -/
inductive Agent where
  | host | peer | timer | dmaA | dmaB | data | sched | main
  deriving DecidableEq, Repr

/-- The formats of rule R114. -/
inductive Format where
  | c0 | cp | cr | cplr | ct | e | i
  deriving DecidableEq, Repr

/-- The families of rule R117, by `OPC[7:4]`. -/
inductive Family where
  | hostCommands | handshake | interrupts | internal
  deriving DecidableEq, Repr

/-- The operations of rule R116. Operands are unsigned 32-bit words (rule R115). -/
inductive Instr where
  | init
  | startWrite (ptr len cref : Word)
  | stopWrite
  | finishWrite (cref : Word)
  | isWriteFinished (ptr : Word)
  | waitPoll
  | setCancel (cref : Word)
  | clockTick (ms : Word)
  | ackAssert
  | ackRelease
  | timerReqAssert
  | dmaAFetch
  | dmaAXfer
  | dmaBXfer
  | dataIrq
  | schedIrq
  | refill
  | checkNextBuffer
  | ctlInit
  | ctlStart
  | ctlStop
  | ctlExtend
  | dmaARestart
  | irqMask
  | irqUnmask
  | timerUpdate
  deriving DecidableEq, Repr

/-- Column `Agent` of rule R116. `none` is 'inside ... steps': an internal procedure, which no agent issues. -/
def Instr.agent : Instr → Option Agent
  | .init => some .host
  | .startWrite _ _ _ => some .host
  | .stopWrite => some .host
  | .finishWrite _ => some .host
  | .isWriteFinished _ => some .host
  | .waitPoll => some .main
  | .setCancel _ => some .host
  | .clockTick _ => some .host
  | .ackAssert => some .peer
  | .ackRelease => some .peer
  | .timerReqAssert => some .timer
  | .dmaAFetch => some .dmaA
  | .dmaAXfer => some .dmaA
  | .dmaBXfer => some .dmaB
  | .dataIrq => some .data
  | .schedIrq => some .sched
  | .refill => none
  | .checkNextBuffer => none
  | .ctlInit => none
  | .ctlStart => none
  | .ctlStop => none
  | .ctlExtend => none
  | .dmaARestart => none
  | .irqMask => none
  | .irqUnmask => none
  | .timerUpdate => none

/-- Column `Format` of rule R116. -/
def Instr.format : Instr → Format
  | .init => .c0
  | .startWrite _ _ _ => .cplr
  | .stopWrite => .c0
  | .finishWrite _ => .cr
  | .isWriteFinished _ => .cp
  | .waitPoll => .e
  | .setCancel _ => .cr
  | .clockTick _ => .ct
  | .ackAssert => .e
  | .ackRelease => .e
  | .timerReqAssert => .e
  | .dmaAFetch => .e
  | .dmaAXfer => .e
  | .dmaBXfer => .e
  | .dataIrq => .e
  | .schedIrq => .e
  | .refill => .i
  | .checkNextBuffer => .i
  | .ctlInit => .i
  | .ctlStart => .i
  | .ctlStop => .i
  | .ctlExtend => .i
  | .dmaARestart => .i
  | .irqMask => .i
  | .irqUnmask => .i
  | .timerUpdate => .i

end Sys2Proof
end

