-- ==== Sys2Proof/WellFormed.lean ====
section
/-! DEFINITION. Well-formedness of an operation as a step of its own (rule R119). Operands need no check: every
32-bit word is a legal operand encoding (rule R115). The parameters' checks are in Config.lean, and the check of a
run file (decision D48) is in Decode.lean. -/

namespace Sys2Proof

/-- Rule R119: an internal opcode is never a step of its own. -/
def Instr.internal (i : Instr) : Bool := i.format == .i

/-- `i` may stand in a run as a step of its own. -/
def Instr.wellFormed (i : Instr) : Bool := !i.internal

/-- `who` may issue `i` (rules R116, R119). -/
def Instr.issuedBy (i : Instr) (who : Agent) : Bool := i.agent == some who

end Sys2Proof
end

