-- ==== Sys2Proof/Decode.lean ====
section
/-! DEFINITION. The decoder, total on any bytes, and the encoder (30_encoding.md). Every run of bytes is read as an
operation, a reserved operation word, the end of the run, or a run cut inside an operation's operand words. -/

namespace Sys2Proof

/-- What a decoder finds at the head of a run of bytes. -/
inductive Decoded where
  /-- An operation of rule R116, and the bytes after it. -/
  | op (i : Instr) (rest : List Byte)
  /-- A reserved `OPC` (rule R118), and the bytes after it. -/
  | reserved (opc : Byte) (rest : List Byte)
  /-- The bytes end inside the operand words (rule R122, decision D48). -/
  | truncated
  /-- There are no bytes. -/
  | empty
  deriving DecidableEq, Repr

/-- A little-endian operand word (rule R122). -/
def leWord (b0 b1 b2 b3 : Byte) : Word := b3 ++ b2 ++ b1 ++ b0

/-- The four bytes of an operand word, least significant first (rule R122). -/
def wordBytes (w : Word) : List Byte :=
  [w.extractLsb' 0 8, w.extractLsb' 8 8, w.extractLsb' 16 8, w.extractLsb' 24 8]

/-- Reads the one operand word of formats CP, CR and CT. -/
def decodeOne (mk : Word → Instr) : List Byte → Decoded
  | a :: b :: c :: d :: rest => .op (mk (leWord a b c d)) rest
  | _ => .truncated

/-- Reads the three operand words of format CPLR: `ptr`, `len`, `cref` (rule R114). -/
def decodeThree (mk : Word → Word → Word → Instr) : List Byte → Decoded
  | a0 :: a1 :: a2 :: a3 :: b0 :: b1 :: b2 :: b3 :: c0 :: c1 :: c2 :: c3 :: rest =>
    .op (mk (leWord a0 a1 a2 a3) (leWord b0 b1 b2 b3) (leWord c0 c1 c2 c3)) rest
  | _ => .truncated

/-- Reads the operands that the format of `opc` names (rules R113, R114, R116, R118). -/
def decodeOp (opc : Byte) (t : List Byte) : Decoded :=
  match opc.toNat with
  | 0x01 => .op .init t
  | 0x02 => decodeThree .startWrite t
  | 0x03 => .op .stopWrite t
  | 0x04 => decodeOne .finishWrite t
  | 0x05 => decodeOne .isWriteFinished t
  | 0x06 => .op .waitPoll t
  | 0x08 => decodeOne .setCancel t
  | 0x09 => decodeOne .clockTick t
  | 0x10 => .op .ackAssert t
  | 0x11 => .op .ackRelease t
  | 0x18 => .op .timerReqAssert t
  | 0x19 => .op .dmaAFetch t
  | 0x1A => .op .dmaAXfer t
  | 0x1B => .op .dmaBXfer t
  | 0x20 => .op .dataIrq t
  | 0x21 => .op .schedIrq t
  | 0x30 => .op .refill t
  | 0x31 => .op .checkNextBuffer t
  | 0x32 => .op .ctlInit t
  | 0x33 => .op .ctlStart t
  | 0x34 => .op .ctlStop t
  | 0x35 => .op .ctlExtend t
  | 0x36 => .op .dmaARestart t
  | 0x37 => .op .irqMask t
  | 0x38 => .op .irqUnmask t
  | 0x39 => .op .timerUpdate t
  | _ => .reserved opc t

/-- Decodes the operation at the head of a run (rules R113, R119: decoding is total). -/
def decode : List Byte → Decoded
  | [] => .empty
  | opc :: t => decodeOp opc t

/-- How many operand words the format of an `OPC` value names (rules R114, R116); 0 for a reserved one. -/
def operandWords (opc : Byte) : Nat :=
  match opc.toNat with
  | 0x02 => 3
  | 0x04 => 1
  | 0x05 => 1
  | 0x08 => 1
  | 0x09 => 1
  | _ => 0

/-- Scans a run of bytes: `k` operand bytes are still owed before the next `OPC`. -/
def runScan : Nat → List Byte → Bool
  | 0, [] => true
  | _ + 1, [] => false
  | 0, opc :: t => runScan (4 * operandWords opc) t
  | k + 1, _ :: t => runScan k t

/-- The bytes are a written run: they do not end inside an operation's operand words (rule R122, decision D48). -/
def runOk (bytes : List Byte) : Bool := runScan 0 bytes

/-- Column `OPC` of rule R116. -/
def Instr.opc : Instr → Byte
  | .init => 0x01
  | .startWrite _ _ _ => 0x02
  | .stopWrite => 0x03
  | .finishWrite _ => 0x04
  | .isWriteFinished _ => 0x05
  | .waitPoll => 0x06
  | .setCancel _ => 0x08
  | .clockTick _ => 0x09
  | .ackAssert => 0x10
  | .ackRelease => 0x11
  | .timerReqAssert => 0x18
  | .dmaAFetch => 0x19
  | .dmaAXfer => 0x1A
  | .dmaBXfer => 0x1B
  | .dataIrq => 0x20
  | .schedIrq => 0x21
  | .refill => 0x30
  | .checkNextBuffer => 0x31
  | .ctlInit => 0x32
  | .ctlStart => 0x33
  | .ctlStop => 0x34
  | .ctlExtend => 0x35
  | .dmaARestart => 0x36
  | .irqMask => 0x37
  | .irqUnmask => 0x38
  | .timerUpdate => 0x39

/-- The operand words of an operation, in the order of rule R114. -/
def Instr.operands : Instr → List Word
  | .startWrite ptr len cref => [ptr, len, cref]
  | .finishWrite cref => [cref]
  | .isWriteFinished ptr => [ptr]
  | .setCancel cref => [cref]
  | .clockTick ms => [ms]
  | .init => []
  | .stopWrite => []
  | .waitPoll => []
  | .ackAssert => []
  | .ackRelease => []
  | .timerReqAssert => []
  | .dmaAFetch => []
  | .dmaAXfer => []
  | .dmaBXfer => []
  | .dataIrq => []
  | .schedIrq => []
  | .refill => []
  | .checkNextBuffer => []
  | .ctlInit => []
  | .ctlStart => []
  | .ctlStop => []
  | .ctlExtend => []
  | .dmaARestart => []
  | .irqMask => []
  | .irqUnmask => []
  | .timerUpdate => []

/-- The bytes of an operation in a run file: the `OPC` byte, then its operand words (rule R122). -/
def encode (i : Instr) : List Byte := i.opc :: i.operands.flatMap wordBytes

/-- A written run in binary: the operations' bytes in step order (rule R122). -/
def encodeRun (is : List Instr) : List Byte := is.flatMap encode

/-- The family an `OPC` value selects by `OPC[7:4]` (rule R117). The field decides nothing by itself: only the exact
values of rule R116 are operations. -/
def familyOf (opc : Byte) : Option Family :=
  match (opc >>> 4).toNat with
  | 0 => some .hostCommands
  | 1 => some .handshake
  | 2 => some .interrupts
  | 3 => some .internal
  | _ => none

/-- `count` bytes of a number, least significant first. -/
def bytesOfNat : Nat → Nat → List Byte
  | 0, _ => []
  | k + 1, w => BitVec.ofNat 8 w :: bytesOfNat k (w / 256)

/-- The bytes of one operation whose table bits are `w`, every bit above `nbits` being 0: as many bytes as the
format of its `OPC` names, at most 13 (rules R114, R122). -/
def tableBytes (nbits w : Nat) : List Byte :=
  let all := bytesOfNat 13 (w % 2 ^ nbits)
  all.take (1 + 4 * operandWords (all.headD 0))

/-- The operation the decoder reads from an opcode-table row's word. -/
def decodeTableWord (nbits w : Nat) : Option Instr :=
  match decode (tableBytes nbits w) with
  | .op i _ => some i
  | .reserved _ _ => none
  | .truncated => none
  | .empty => none

end Sys2Proof
end

