-- ==== Sys2Proof/Machine/State.lean ====
section
/-! DEFINITION. The state of the block (10_state.md), as plain data, and its power-on reset (rule R311). Fields that
are the model's own (the parameters, the written run, its issuers) are marked as such. -/

namespace Sys2Proof.Machine

/-- `MAIN_PC` (rule R31): the main line is ready, or waits inside FINISH_WRITE or START_WRITE. -/
inductive MainPc where
  | ready
  | waitFinish (cref t0 : Word)
  | waitStart (ptr len cref t0 : Word)
  deriving DecidableEq, Repr

/-- `DATA_PC` (rule R31): `OFF`, `D_REFILL1`, `D_POISON1`, `D_CNB`, `D_REFILL2`, `D_POISON2`, `D_END`. -/
inductive DataPc where
  | off | refill1 | poison1 | cnb | refill2 | poison2 | finish
  deriving DecidableEq, Repr

/-- `SCHED_PC` (rule R31): `OFF`, `S_RESTART`, `S_EXTEND`. -/
inductive SchedPc where
  | off | restart | extend
  deriving DecidableEq, Repr

/-- `engine_state` (rule R32). -/
inductive EngineState where
  | idle | writing
  deriving DecidableEq, Repr

/-- `tim_phase` (rule R51). -/
inductive TimPhase where
  | off | primed | reqOn | acked | released
  deriving DecidableEq, Repr

/-- `gpio_mode` (rule R52). -/
inductive GpioMode where
  | plain | engine
  deriving DecidableEq, Repr

/-- The kind of a diagnostic record (rule R66). -/
inductive LogKind where
  | overrun | stall
  deriving DecidableEq, Repr

/-- The 11 snapshot fields of a diagnostic record, in the order of rule R66. -/
structure Snap where
  dmaIdx : Word
  dmaFillto : Word
  bytesDma : Word
  scheduledDma : Word
  bytesApp : Word
  aFetch : Word
  aXfer : Word
  bCnt : Word
  timPhase : TimPhase
  htA : Bool
  tcA : Bool
  deriving DecidableEq, Repr

/-- A diagnostic record `(kind, snap)` (rule R66). -/
structure LogRecord where
  kind : LogKind
  snap : Snap
  deriving DecidableEq, Repr

/-- The sites that raise Misuse (rule R272). -/
inductive MisuseSite where
  | refillAvail | refillRoom | spliceSched | extendBusy | extendZero
  deriving DecidableEq, Repr

/-- The reasons of the spec's `refuse(reason)` (rule R274). -/
inductive RefuseReason where
  | notConfigured | initTwice | callerBlocked | bufferWraps | lengthOverflow
  | reservedOpcode | wrongAgent | internalOpcode
  deriving DecidableEq, Repr

/-- The two DMA channels, as ReqLost names them (rule R274). -/
inductive Channel where
  | a | b
  deriving DecidableEq, Repr

/-- The errors of rule R270, each with the information its trace event carries. -/
inductive Err where
  | overrun
  | misuse (site : MisuseSite)
  | stallTimeout
  | reqLost (ch : Channel)
  | refused (reason : RefuseReason)
  deriving DecidableEq, Repr

/-- The trace events of rule R69. -/
inductive Event where
  | outw (img : Image)
  | req (v : Bool)
  | mode (m : GpioMode)
  | log (rec : LogRecord)
  | err (e : Err)
  | result (b : Bool)
  deriving DecidableEq, Repr

/-- Application memory (space AM of rule R80): address and byte pairs in one canonical form (`Memory.wf` of
Ops.lean). The block only reads it. -/
abbrev Memory := List Host.Cell

/-- The cancel cells that hold 1, by number, strictly rising (rule R41); a cell not listed holds 0. -/
abbrev Cells := List Nat

/-- Why a step has no next state although the operation is one of rule R116. -/
inductive Fault where
  /-- Raised by a meaning whose operation is not enabled in this state: 'An operation that is not enabled has no step'
  (rule R25). Safe: the model allows no step where the spec allows none. -/
  | notEnabled (who : Agent)
  /-- Raised by REFILL's byte loop when the exact address `app_buf + bytes_dma` lies outside the 2^32 bytes of AM
  (rules R80, R82). No run reaches it. Safe: it stops. -/
  | addressOutsideMemory
  deriving DecidableEq, Repr

/-- Why there is no operation to take. -/
inductive Refusal where
  /-- Raised by `exec`'s arm of an instruction that has no meaning yet. Safe: it stops. No arm raises it. -/
  | notModelled (mnemonic : String)
  /-- Raised by `step` when the written run is at its end: no agent has been given a step to take (log entry 5).
  Safe: it stops. -/
  | endOfRun
  /-- Raised by `step` when the written run is cut inside an operation: 'it is not a run, and it produces no step and
  no event' (rule R122, decision D48). Safe: it stops. -/
  | malformedRun
  deriving DecidableEq, Repr

/-- The state of the block, of the lines and cells it shares with HOST and PEER, and of the written run. -/
structure State where
  /-- The model's own: the parameters, which no step changes (rule R19; log entry 1). -/
  params : Params
  /-- `MAIN_PC` (rule R31). -/
  mainPc : MainPc
  /-- `DATA_PC` (rule R31). -/
  dataPc : DataPc
  /-- `SCHED_PC` (rule R31). -/
  schedPc : SchedPc
  /-- `engine_state` (rule R32). -/
  engine : EngineState
  /-- `app_buf` (rule R33). -/
  appBuf : Word
  /-- `bytes_app` (rule R34). -/
  bytesApp : Word
  /-- `bytes_dma` (rule R35). -/
  bytesDma : Word
  /-- `scheduled_dma` (rule R36). -/
  scheduledDma : Word
  /-- `dma_idx` (rule R37). -/
  dmaIdx : Word
  /-- `dma_fillto` (rule R38). -/
  dmaFillto : Word
  /-- `incomplete_buf` (rule R39). -/
  incompleteBuf : Bool
  /-- `next_valid` (rule R40). -/
  nextValid : Bool
  /-- `next_app_buf` (rule R40). -/
  nextAppBuf : Word
  /-- `next_app_bytes` (rule R40). -/
  nextAppBytes : Word
  /-- The cancel cells (rule R41). -/
  cells : Cells
  /-- `now_ms` (rule R42). -/
  nowMs : Word
  /-- `ring[0..N-1]` (rule R43). -/
  ring : List Image
  /-- `a_en` (rule R45). -/
  aEn : Bool
  /-- `a_fetch` (rule R45). -/
  aFetch : Word
  /-- `a_xfer` (rule R45). -/
  aXfer : Word
  /-- `pfq`, oldest image first (rule R48). -/
  pfq : List Image
  /-- DMAA_CTL.HTIE (rule R58). -/
  aHtie : Bool
  /-- DMAA_CTL.TCIE (rule R58). -/
  aTcie : Bool
  /-- `HT_A` (rule R46). -/
  htA : Bool
  /-- `TC_A` (rule R46). -/
  tcA : Bool
  /-- `a_req` (rule R47). -/
  aReq : Bool
  /-- `b_en` (rule R49). -/
  bEn : Bool
  /-- `b_cnt` (rule R49). -/
  bCnt : Word
  /-- DMAB_CTL.TCIE (rule R58). -/
  bTcie : Bool
  /-- `TC_B` (rule R50). -/
  tcB : Bool
  /-- `b_req` (rule R50). -/
  bReq : Bool
  /-- `tim_en` (rule R51). -/
  timEn : Bool
  /-- `tim_phase` (rule R51). -/
  timPhase : TimPhase
  /-- `req` (rule R52). -/
  req : Bool
  /-- `ack` (rule R52). -/
  ack : Bool
  /-- `gpio_mode` (rule R52). -/
  gpioMode : GpioMode
  /-- `data_driven` (rule R52). -/
  dataDriven : Bool
  /-- `OUT` (rule R53). -/
  out : Image
  /-- `irq_mask`, IRQ_CTL.MASK (rules R54, R58). -/
  irqMask : Bool
  /-- IRQ_CTL.DATA_EN (rule R58). -/
  dataEn : Bool
  /-- IRQ_CTL.SCHED_EN (rule R58). -/
  schedEn : Bool
  /-- `configured` (rule R57). -/
  configured : Bool
  /-- `halted`, FAULT.MISUSE (rule R67). -/
  halted : Bool
  /-- `req_lost` (rule R67). -/
  reqLost : Bool
  /-- `refused` (rule R67). -/
  refused : Bool
  /-- `overrun_seen` (rule R67). -/
  overrunSeen : Bool
  /-- `stall_seen` (rule R67). -/
  stallSeen : Bool
  /-- `log`, oldest record first (rule R66). -/
  log : List LogRecord
  /-- `trace`, oldest event first (rule R69). -/
  trace : List Event
  /-- `POISON_OUT` (rule R69). -/
  poisonOut : Nat
  /-- `HostMem`, the host's application memory (rules R80, R81). -/
  mem : Memory
  /-- The model's own: the bytes of the written run not yet taken (rule R122; log entry 5). -/
  run : List Byte
  /-- The model's own: who issues the operations of `run`, in order; `none`, or no entry, is the agent rule R116
  names (rule R119; log entry 6). -/
  issuers : List (Option Agent)
  deriving DecidableEq, Repr

/-- The state after power-on reset (rule R311) of a block with parameters `p`, ring contents `ring` and output image
`out`, the two elements that rule R311 leaves UNSPECIFIED. -/
def State.resetWith (p : Params) (ring : List Image) (out : Image) : State where
  params := p
  mainPc := .ready
  dataPc := .off
  schedPc := .off
  engine := .idle
  appBuf := 0
  bytesApp := 0
  bytesDma := 0
  scheduledDma := 0
  dmaIdx := 0
  dmaFillto := 0
  incompleteBuf := false
  nextValid := false
  nextAppBuf := 0
  nextAppBytes := 0
  cells := []
  nowMs := 0
  ring := ring
  aEn := false
  aFetch := 0
  aXfer := 0
  pfq := []
  aHtie := false
  aTcie := false
  htA := false
  tcA := false
  aReq := false
  bEn := false
  bCnt := 0
  bTcie := false
  tcB := false
  bReq := false
  timEn := false
  timPhase := .off
  req := false
  ack := false
  gpioMode := .plain
  dataDriven := false
  out := out
  irqMask := false
  dataEn := false
  schedEn := false
  configured := false
  halted := false
  reqLost := false
  refused := false
  overrunSeen := false
  stallSeen := false
  log := []
  trace := []
  poisonOut := 0
  mem := []
  run := []
  issuers := []

/-- The machine right after power-on reset: the open parameters, and open images in the ring and in `OUT`, each below
`2^IMG_W` (rule R311; log entries 2 and 4). -/
def State.reset : State :=
  .resetWith Config.params
    ((List.range Config.params.n).map fun i => Config.ringPowerOn i % 2 ^ Config.params.imgW)
    (Config.outPowerOn % 2 ^ Config.params.imgW)

end Sys2Proof.Machine
end

