-- ==== Sys2Proof/Machine/Ops.lean ====
section
/-! DEFINITION. The named operations over memory, cells, the ring, the output port and the records, and the raising of
an error (00_scope.md rules R22, R23; 20_memory.md; 60_exceptions.md rule R270). -/

namespace Sys2Proof.Machine

/-! ### Application memory and cancel cells -/

/-- What an address of AM that `Memory` does not list reads as (DESIGN CHOICE, unsafe; log entry 7). -/
def Memory.blank : Byte := 0

/-- One byte of AM at an address. -/
def Memory.read : Memory → Nat → Byte
  | [], _ => Memory.blank
  | (x, b) :: t, a => if x = a then b else Memory.read t a

/-- Puts a byte at an address and keeps the canonical form. The block never writes AM (rule R80): this is the host
filling its own memory (rule R81). -/
def Memory.write : Memory → Nat → Byte → Memory
  | [], a, v => if v = Memory.blank then [] else [(a, v)]
  | (x, b) :: t, a, v =>
    if x < a then (x, b) :: Memory.write t a v
    else if x = a then (if v = Memory.blank then t else (a, v) :: t)
    else if v = Memory.blank then (x, b) :: t else (a, v) :: (x, b) :: t

/-- The canonical form above address `lo`: addresses strictly rising below 2^32, no entry blank. -/
def Memory.wfFrom : Nat → Memory → Bool
  | _, [] => true
  | lo, (x, b) :: t => decide (lo ≤ x) && decide (x < 2 ^ 32) && decide (b ≠ Memory.blank) && Memory.wfFrom (x + 1) t

/-- The canonical form of AM. -/
def Memory.wf (m : Memory) : Bool := Memory.wfFrom 0 m

/-- Sets one cancel cell and keeps the numbers strictly rising. -/
def Cells.set : Cells → Nat → Cells
  | [], c => [c]
  | x :: t, c => if x < c then x :: Cells.set t c else if x = c then x :: t else c :: x :: t

/-- The canonical form of the cancel cells above number `lo`: strictly rising 32-bit numbers. -/
def Cells.wfFrom : Nat → Cells → Bool
  | _, [] => true
  | lo, x :: t => decide (lo ≤ x) && decide (x < 2 ^ 32) && Cells.wfFrom (x + 1) t

/-- The canonical form of the cancel cells. -/
def Cells.wf (c : Cells) : Bool := Cells.wfFrom 0 c

/-- `cell[cref]` (rule R41). -/
def State.cell (s : State) (cref : Word) : Bool := s.cells.contains cref.toNat

/-- `cell[cref] <- 1` (rules R41, R151). -/
def State.setCell (s : State) (cref : Word) : State := { s with cells := Cells.set s.cells cref.toNat }

/-- The host puts a byte into its memory, outside every operation (rule R81; log entry 7). -/
def State.hostStore (s : State) (addr : Word) (b : Byte) : State :=
  { s with mem := Memory.write s.mem addr.toNat b }

/-- `MemRead(addr, 1)` at an exact address (rules R81, R82); `none` outside the 2^32 bytes of AM (rule R80). -/
def State.memRead (s : State) (addr : Nat) : Option Byte :=
  if addr < 2 ^ 32 then some (s.mem.read addr) else none

/-! ### Ring and output port -/

/-- `slot(c) = c & MASK` (rule R21). -/
def State.slot (s : State) (c : Word) : Nat := (c &&& s.params.mask).toNat

/-- `RingRead(i)` (rules R22, R85). -/
def State.ringRead (s : State) (i : Nat) : Image := s.ring.getD i 0

/-- `RingWrite(i, img)` (rules R22, R85). -/
def State.ringWrite (s : State) (i : Nat) (img : Image) : State := { s with ring := s.ring.set i img }

/-- Appends one event to `trace` (rule R69). -/
def State.emit (s : State) (e : Event) : State := { s with trace := s.trace ++ [e] }

/-- `OutWrite(v)`: `OUT` takes the image, `OUTW(v)` is emitted, and a poison image is counted (rules R85, R190, R196). -/
def State.outWrite (s : State) (v : Image) : State :=
  { s with
    out := v
    trace := s.trace ++ [.outw v]
    poisonOut := if v = s.params.poison then s.poisonOut + 1 else s.poisonOut }

/-- What the data lines carry: the output register while they are driven, and nothing the spec gives otherwise
(rules R53, R85, R332). -/
def State.dataLines (s : State) : Option Image := if s.dataDriven then some s.out else none

/-! ### Timer update -/

/-- TIMER_UPDATE (rule R192). -/
def timerUpdate (s : State) : State := if s.timEn then { s with timPhase := .primed } else s

/-- `EgrWrite(w)`: the force-update word causes TIMER_UPDATE (rules R22, R85). -/
def State.egrWrite (s : State) (w : Word) : State :=
  if w = s.params.timerEgrUpdate then timerUpdate s else s

/-! ### Errors, refusals and the diagnostic log -/

/-- `raise E` (rules R23, R270): `ERR` is emitted and the error's mark is set. The marks of Overrun and StallTimeout
are set with their log record (rule R67). Misuse is the `halt` of rule R23. -/
def State.raise (s : State) (e : Err) : State :=
  match e with
  | .overrun => s.emit (.err .overrun)
  | .misuse site => { s.emit (.err (.misuse site)) with halted := true }
  | .stallTimeout => s.emit (.err .stallTimeout)
  | .reqLost ch => { s.emit (.err (.reqLost ch)) with reqLost := true }
  | .refused reason => { s.emit (.err (.refused reason)) with refused := true }

/-- `refuse(reason)`: the mark and the event, and nothing else (rules R23, R67, R274). -/
def State.refuse (s : State) (reason : RefuseReason) : State := s.raise (.refused reason)

/-- `snap()` (rule R66). -/
def State.snap (s : State) : Snap where
  dmaIdx := s.dmaIdx
  dmaFillto := s.dmaFillto
  bytesDma := s.bytesDma
  scheduledDma := s.scheduledDma
  bytesApp := s.bytesApp
  aFetch := s.aFetch
  aXfer := s.aXfer
  bCnt := s.bCnt
  timPhase := s.timPhase
  htA := s.htA
  tcA := s.tcA

/-- `log(kind, snap())`: the record, its event and its mark (rules R66, R67, R69). -/
def State.logRecord (s : State) (kind : LogKind) : State :=
  { s with
    log := s.log ++ [⟨kind, s.snap⟩]
    trace := s.trace ++ [.log ⟨kind, s.snap⟩]
    overrunSeen := s.overrunSeen || kind == .overrun
    stallSeen := s.stallSeen || kind == .stall }

/-- The code of an error (rule R270). -/
def Err.code : Err → Nat
  | .overrun => 1
  | .misuse _ => 2
  | .stallTimeout => 3
  | .reqLost _ => 4
  | .refused _ => 5

/-! ### The course of a step's pseudocode -/

/-- Where a procedure leaves the step that runs it: the pseudocode goes on, or the step ends here (a Misuse: 'the
writes after it are not made', rule R282), or there is no next state. -/
inductive Flow where
  | go (s : State)
  | stop (s : State)
  | fault (f : Fault)
  deriving DecidableEq, Repr

/-- The next statements of the pseudocode, taken only where it goes on. -/
def Flow.andThen (x : Flow) (k : State → Flow) : Flow :=
  match x with
  | .go s => k s
  | .stop s => .stop s
  | .fault f => .fault f

/-- The outcome of a whole step. -/
def Flow.outcome : Flow → Host.Outcome State Fault Refusal
  | .go s => .next s
  | .stop s => .next s
  | .fault f => .fault f

/-- `raise Misuse(site)`: the step ends with the block halted (rules R272, R282). -/
def misuse (site : MisuseSite) (s : State) : Flow := .stop (s.raise (.misuse site))

/-- The step of an agent whose operation is not enabled: there is none (rule R25). -/
def notEnabled (who : Agent) : Host.Outcome State Fault Refusal := .fault (.notEnabled who)

end Sys2Proof.Machine
end

