-- ==== Sys2Proof/Machine/Operands.lean ====
section
/-! DEFINITION. The exact arithmetic on operands and session counters (rules R16, R20, R82, R115). Operands are used
as they are: none is sign-extended, scaled or shifted (rule R115). -/

namespace Sys2Proof.Machine

/-- `ptr + len > 2^32` in exact integers (rule R145). -/
def bufferWraps (ptr len : Word) : Bool := decide (2 ^ 32 < ptr.toNat + len.toNat)

/-- `ptr = buf + bytes` in exact integers: `ptr` continues the buffer (rules R142, R146). -/
def continues (ptr buf bytes : Word) : Bool := decide (ptr.toNat = buf.toNat + bytes.toNat)

/-- `bytes + len >= 2^32` in exact integers (rules R142, R145). -/
def lengthOverflows (bytes len : Word) : Bool := decide (2 ^ 32 ≤ bytes.toNat + len.toNat)

/-- `buf <= ptr < buf + bytes` in exact integers (rule R150; decision D30). -/
def inBuffer (ptr buf bytes : Word) : Bool :=
  decide (buf.toNat ≤ ptr.toNat) && decide (ptr.toNat < buf.toNat + bytes.toNat)

/-- `(now_ms -32 t0) >= STALL_TIMEOUT_MS` (rules R42, R149). -/
def State.stalled (s : State) (t0 : Word) : Bool := decide (s.params.stallTimeoutMs ≤ (s.nowMs - t0).toNat)

/-- `avail = bytes_app - bytes_dma` (rule R211). -/
def State.avail (s : State) : Nat := s.bytesApp.toNat - s.bytesDma.toNat

/-- `room = dma_fillto -32 dma_idx` (rule R211). -/
def State.room (s : State) : Nat := (s.dmaFillto - s.dmaIdx).toNat

end Sys2Proof.Machine
end

