-- ==== Sys2Proof/Machine/Flags.lean ====
section
/-! DEFINITION. Every flag computation and every enabling condition: the pending sources, the active contexts, the
context priority (rules R54 to R56, R59, R275 to R278) and the 'enabled when' of each operation. -/

namespace Sys2Proof.Machine

/-- The contexts in priority order (rule R56). -/
inductive Context where
  | data | sched | main
  deriving DecidableEq, Repr

/-- The data source's condition (rule R275); `HT_A ∨ TC_A` once INIT has run (rule R55). -/
def State.dataPending (s : State) : Bool := (s.htA && s.aHtie) || (s.tcA && s.aTcie)

/-- The schedule source's condition (rule R275); `TC_B` once INIT has run (rule R55). -/
def State.schedPending (s : State) : Bool := s.tcB && s.bTcie

/-- `data_active` (rule R55). -/
def State.dataActive (s : State) : Bool := s.dataPc != .off

/-- `sched_active` (rule R55). -/
def State.schedActive (s : State) : Bool := s.schedPc != .off

/-- `cur_prio` (rule R56). -/
def State.curPrio (s : State) : Context :=
  if s.dataActive then .data else if s.schedActive then .sched else .main

/-- The main line steps: no handler is active (rules R56, R278). -/
def State.mainTurn (s : State) : Bool := s.curPrio == .main

/-- `MAIN_PC ≠ READY`: the caller is blocked (rule R140). -/
def State.blocked (s : State) : Bool := s.mainPc != .ready

/-- A HOST command is enabled (rule R140). -/
def State.hostEnabled (s : State) : Bool := s.mainTurn && !s.halted && !s.blocked

/-- WAIT_POLL is enabled (rule R149). -/
def State.waitPollEnabled (s : State) : Bool := s.blocked && s.mainTurn && !s.halted

/-- TIMER_REQ_ASSERT is enabled (rule R182). -/
def State.timerReqEnabled (s : State) : Bool := s.timEn && s.timPhase == .primed && !s.halted

/-- DMA_A_FETCH is enabled (rule R189). -/
def State.fetchEnabled (s : State) : Bool :=
  s.aEn && decide (s.pfq.length < s.params.prefetchDepth) && !s.halted

/-- DMA_A_XFER is enabled (rule R190). -/
def State.aXferEnabled (s : State) : Bool := s.aReq && s.aEn && !s.halted

/-- DMA_B_XFER is enabled (rule R191): the condition `a_req = 0` is DMA-A's priority. -/
def State.bXferEnabled (s : State) : Bool :=
  s.bReq && s.bEn && s.bCnt != 0 && !s.aReq && !s.halted

/-- DATA_IRQ is enabled as an entry step (rules R241, R277). -/
def State.dataEntryEnabled (s : State) : Bool :=
  s.dataPc == .off && s.dataPending && s.dataEn && !s.irqMask && !s.halted

/-- DATA_IRQ is enabled (rule R241): entry, or the step its label names. -/
def State.dataIrqEnabled (s : State) : Bool := s.dataEntryEnabled || (s.dataActive && !s.halted)

/-- The data handler is active or its source is pending and enabled: no SCHED step may come (rules R250, R278). -/
def State.dataFirst (s : State) : Bool := s.dataActive || (s.dataPending && s.dataEn)

/-- SCHED_IRQ is enabled as an entry step (rules R250, R277). -/
def State.schedEntryEnabled (s : State) : Bool :=
  s.schedPc == .off && s.schedPending && s.schedEn && !s.irqMask && !s.dataFirst && !s.halted

/-- SCHED_IRQ is enabled (rule R250): entry, or the step its label names. -/
def State.schedIrqEnabled (s : State) : Bool :=
  s.schedEntryEnabled || (s.schedActive && !s.dataFirst && !s.halted)

/-- The half-transfer event: `(a_xfer & MASK) = HALF` after the count (rules R46, R190). -/
def halfEvent (p : Params) (aXfer : Word) : Bool := aXfer &&& p.mask == p.halfWord

/-- The full-transfer event: `(a_xfer & MASK) = 0` after the count (rules R46, R190). -/
def fullEvent (p : Params) (aXfer : Word) : Bool := aXfer &&& p.mask == 0

/-- Sets `incomplete_buf` where the ring is not filled to `dma_fillto` (rule R39). -/
def State.flagIncomplete (s : State) : State :=
  { s with incompleteBuf := s.incompleteBuf || s.dmaIdx != s.dmaFillto }

end Sys2Proof.Machine
end

