-- ==== Sys2Proof/Machine/Handshake.lean ====
section
/-! DEFINITION. The meanings of the hardware agents' steps: the PEER's edges, the timer and the two DMA channels
(41_handshake.md). -/

namespace Sys2Proof.Machine

/-- 'the timer channel releases the request line': `REQ(0)` where it was asserted (rule R183). -/
def releaseReq (s : State) : State := if s.req then { s.emit (.req false) with req := false } else s

/-- A request for DMA-A: latched, or lost where one is latched already (rules R47, R186). -/
def requestA (s : State) : State := if s.aReq then s.raise (.reqLost .a) else { s with aReq := true }

/-- A request for DMA-B: latched, or lost where one is latched already (rules R50, R188). -/
def requestB (s : State) : State := if s.bReq then s.raise (.reqLost .b) else { s with bReq := true }

/-- The timer's response to ACK asserting (rules R183, R185). -/
def ackAsserted (s : State) : State := { requestA (releaseReq s) with timPhase := .acked }

/-- The timer's response to ACK releasing (rules R187, R185). -/
def ackReleased (s : State) : State := { requestB s with timPhase := .released }

/-- ACK_ASSERT (rules R180, R181, R183 to R186). -/
def execAckAssert (s : State) : Host.Outcome State Fault Refusal :=
  if s.ack then notEnabled .peer
  else
    let s1 := { s with ack := true }
    if s.halted then .next s1
    else if s.timEn then .next (ackAsserted s1)
    else .next s1

/-- ACK_RELEASE (rules R180, R181, R184, R185, R187, R188). -/
def execAckRelease (s : State) : Host.Outcome State Fault Refusal :=
  if s.ack then
    let s1 := { s with ack := false }
    if s.halted then .next s1
    else if s.timEn then .next (ackReleased s1)
    else .next s1
  else notEnabled .peer

/-- TIMER_REQ_ASSERT (rule R182). `REQ(1)` is emitted whether or not `req` was 0, as the rule's pseudocode writes it; rule
R69 gives the event to a change of `req` (DEDUCED; log entry 35). -/
def execTimerReqAssert (s : State) : Host.Outcome State Fault Refusal :=
  if s.timerReqEnabled then .next { s.emit (.req true) with req := true, timPhase := .reqOn }
  else notEnabled .timer

/-- DMA_A_FETCH (rules R90, R189). -/
def execDmaAFetch (s : State) : Host.Outcome State Fault Refusal :=
  if s.fetchEnabled then
    .next { s with
      pfq := s.pfq ++ [s.ringRead (s.slot s.aFetch)]
      aFetch := s.aFetch + 1 }
  else notEnabled .dmaA

/-- The image DMA_A_XFER delivers: the oldest prefetched one, or the ring's (rule R190). -/
def State.nextImage (s : State) : Image :=
  match s.pfq with
  | img :: _ => img
  | [] => s.ringRead (s.slot s.aFetch)

/-- Takes that image from the prefetch queue, or advances the fetch cursor over it (rule R190). -/
def takeImage (s : State) : State :=
  match s.pfq with
  | _ :: rest => { s with pfq := rest }
  | [] => { s with aFetch := s.aFetch + 1 }

/-- The count of DMA_A_XFER and its half and full events; the flags are sticky (rules R46, R190). -/
def countXfer (s : State) : State :=
  { s with
    aReq := false
    aXfer := s.aXfer + 1
    htA := s.htA || halfEvent s.params (s.aXfer + 1)
    tcA := s.tcA || fullEvent s.params (s.aXfer + 1) }

/-- DMA_A_XFER (rule R190). -/
def execDmaAXfer (s : State) : Host.Outcome State Fault Refusal :=
  if s.aXferEnabled then .next (countXfer ((takeImage s).outWrite s.nextImage))
  else notEnabled .dmaA

/-- The count of DMA_B_XFER and its full-transfer flag (rules R50, R191). -/
def countReset (s : State) : State :=
  { s with bReq := false, bCnt := s.bCnt - 1, tcB := s.tcB || s.bCnt - 1 == 0 }

/-- DMA_B_XFER (rule R191): the force-update word goes to the timer inside the step (rules R112, R192). -/
def execDmaBXfer (s : State) : Host.Outcome State Fault Refusal :=
  if s.bXferEnabled then .next (countReset (s.egrWrite s.params.timerEgrUpdate))
  else notEnabled .dmaB

end Sys2Proof.Machine
end

