-- ==== Sys2Proof/Machine/Refill.lean ====
section
/-! DEFINITION. The Refill & Scheduling Logic: REFILL and CHECK_NEXT_BUFFER (42_refill_control.md sections 2, 3). -/

namespace Sys2Proof.Machine

/-- The two accounting checks of REFILL, in their order (rules R211, R213). -/
def refillMisuse (s : State) : Option MisuseSite :=
  if s.bytesApp.toNat < s.bytesDma.toNat then some .refillAvail
  else if s.params.n < s.room then some .refillRoom
  else none

/-- How many bytes REFILL translates: `min(avail, room)` (rule R211). -/
def refillCount (s : State) : Nat := min s.avail s.room

/-- One pass of REFILL's byte loop (rules R211, R212). -/
def refillByte (s : State) : Flow :=
  match s.memRead (s.appBuf.toNat + s.bytesDma.toNat) with
  | none => .fault .addressOutsideMemory
  | some b =>
    .go { s.ringWrite (s.slot s.dmaIdx) (s.params.translate b) with
      dmaIdx := s.dmaIdx + 1
      bytesDma := s.bytesDma + 1 }

/-- The byte loop of REFILL, `k` times (rule R211). -/
def refillBytes : Nat → State → Flow
  | 0, s => .go s
  | k + 1, s => (refillByte s).andThen (refillBytes k)

/-- The poison guard (rule R214). -/
def poisonGuard (s : State) : State :=
  if s.dmaIdx = s.dmaFillto then s else s.ringWrite (s.slot s.dmaIdx) s.params.poison

/-- REFILL, whole (rule R211). -/
def refill (s : State) : Flow :=
  match refillMisuse s with
  | some site => misuse site s
  | none => (refillBytes (refillCount s) s).andThen fun s => .go (poisonGuard s)

/-- What CHECK_NEXT_BUFFER decides (rules R215, R216). -/
inductive SpliceVerdict where
  /-- `scheduled_dma > bytes_dma`. -/
  | misuse
  /-- The active buffer is translated and scheduled, and a buffer is queued. -/
  | swap
  /-- No splice, or a splice deferred. -/
  | stay
  deriving DecidableEq, Repr

/-- The splice test (rules R215, R216, R244). -/
def spliceVerdict (s : State) : SpliceVerdict :=
  if s.bytesDma = s.bytesApp ∧ s.nextValid = true then
    if s.bytesDma.toNat < s.scheduledDma.toNat then .misuse
    else if s.scheduledDma = s.bytesDma then .swap
    else .stay
  else .stay

/-- The splice's swap (rules R215, R244); the ring cursors keep counting. -/
def splice (s : State) : State :=
  { s with
    appBuf := s.nextAppBuf
    bytesApp := s.nextAppBytes
    bytesDma := 0
    scheduledDma := 0
    nextValid := false
    nextAppBuf := 0
    nextAppBytes := 0 }

/-- CHECK_NEXT_BUFFER, whole (rules R215, R216). Its boolean answer is read by no rule. -/
def checkNextBuffer (s : State) : Flow :=
  match spliceVerdict s with
  | .misuse => misuse .spliceSched s
  | .swap => refill (splice s)
  | .stay => .go s

end Sys2Proof.Machine
end

