-- ==== Sys2Proof/Machine/Control.lean ====
section
/-! DEFINITION. The controller's procedures (42_refill_control.md sections 4, 5) and the fresh start (rule R144). -/

namespace Sys2Proof.Machine

/-- CTL_INIT (rule R217). It emits no event, as the rule's pseudocode writes it (DEDUCED; log entry 35). -/
def ctlInit (s : State) : State :=
  { s with
    aHtie := true
    aTcie := true
    bTcie := true
    dataEn := true
    schedEn := true
    aEn := false
    bEn := false
    timEn := false
    timPhase := .off
    req := false
    gpioMode := .plain
    dataDriven := false }

/-- CTL_START(count) (rule R218). Its one event is `MODE(ENGINE)`, in every state, as the rule's pseudocode writes it
(DEDUCED; log entry 35). -/
def ctlStart (count : Word) (s : State) : State :=
  { s with
    aFetch := 0
    aXfer := 0
    pfq := []
    htA := false
    tcA := false
    aReq := false
    bCnt := count
    tcB := false
    bReq := false
    scheduledDma := count
    timPhase := .primed
    req := false
    gpioMode := .engine
    trace := s.trace ++ [.mode .engine]
    dataDriven := true
    aEn := true
    bEn := true
    timEn := true }

/-- The events of CTL_STOP: a line or mode that changes (rule R219; decision D28). -/
def stopEvents (s : State) : List Event :=
  (if s.req then [.req false] else []) ++ (if s.gpioMode = .engine then [.mode .plain] else [])

/-- CTL_STOP (rule R219). -/
def ctlStop (s : State) : State :=
  { s with
    aEn := false
    bEn := false
    timEn := false
    timPhase := .off
    aFetch := 0
    aXfer := 0
    pfq := []
    bCnt := 0
    htA := false
    tcA := false
    tcB := false
    aReq := false
    bReq := false
    trace := s.trace ++ stopEvents s
    req := false
    gpioMode := .plain
    dataDriven := false
    incompleteBuf := false
    nextValid := false
    nextAppBuf := 0
    nextAppBytes := 0
    engine := .idle }

/-- CTL_EXTEND(k) (rule R221). -/
def ctlExtend (k : Word) (s : State) : Flow :=
  if s.bCnt = 0 then .go { s with bCnt := k, tcB := false, bEn := true }
  else misuse .extendBusy s

/-- The first statements of DMA_A_RESTART, before its refill (rules R222, R223). -/
def restartHead (s : State) : State :=
  { s with
    aEn := false
    pfq := []
    bytesDma := s.scheduledDma
    dmaIdx := 0
    dmaFillto := s.params.nWord
    incompleteBuf := false }

/-- The last statements of DMA_A_RESTART, after its refill and splice (rule R222). -/
def restartTail (s : State) : State :=
  { s.flagIncomplete with aFetch := 0, aXfer := 0, htA := false, tcA := false, aEn := true }

/-- DMA_A_RESTART (rules R222, R223). -/
def dmaARestart (s : State) : Flow :=
  ((refill (restartHead s)).andThen checkNextBuffer).andThen fun s => .go (restartTail s)

/-- IRQ_MASK (rule R236). -/
def irqMask (s : State) : State := { s with irqMask := true }

/-- IRQ_UNMASK (rule R237). -/
def irqUnmask (s : State) : State := { s with irqMask := false }

/-- `IRQ_MASK; CTL_STOP(); IRQ_UNMASK`, the masked stop of STOP_WRITE and WAIT_POLL (rules R147, R149). -/
def maskedStop (s : State) : State := irqUnmask (ctlStop (irqMask s))

/-- The first statements of START_FRESH, before its refill (rule R144). -/
def freshHead (ptr len : Word) (s : State) : State :=
  { s with
    appBuf := ptr
    bytesApp := len
    bytesDma := 0
    scheduledDma := 0
    dmaIdx := 0
    dmaFillto := s.params.nWord
    incompleteBuf := false
    nextValid := false
    nextAppBuf := 0
    nextAppBytes := 0 }

/-- The last statements of START_FRESH, after its refill (rule R144). -/
def freshTail (s : State) : State :=
  { ctlStart s.bytesApp s.flagIncomplete with engine := .writing }

/-- START_FRESH(ptr, len) (rule R144). -/
def startFresh (ptr len : Word) (s : State) : Flow :=
  (refill (freshHead ptr len s)).andThen fun s => .go (freshTail s)

end Sys2Proof.Machine
end

