-- ==== Sys2Proof/Machine/HostCommands.lean ====
section
/-! DEFINITION. The meanings of the host commands, of the wait and of the host's environment steps
(40_host_commands.md). -/

namespace Sys2Proof.Machine

/-- The port of a HOST command (rule R140): its body where it is enabled, `refuse(caller_blocked)` while the caller is
blocked, and no step otherwise (log entry 8 orders the two). -/
def hostCommand (s : State) (body : Host.Outcome State Fault Refusal) : Host.Outcome State Fault Refusal :=
  if s.hostEnabled then body
  else if s.blocked && !s.halted then .next (s.refuse .callerBlocked)
  else notEnabled .host

/-- A HOST command other than INIT: `refuse(not_configured)` before INIT (rules R57, R140, R281). -/
def configuredCommand (s : State) (body : Host.Outcome State Fault Refusal) : Host.Outcome State Fault Refusal :=
  hostCommand s (if s.configured then body else .next (s.refuse .notConfigured))

/-- INIT (rule R141). -/
def execInit (s : State) : Host.Outcome State Fault Refusal :=
  hostCommand s
    (if s.configured then .next (s.refuse .initTwice) else .next { ctlInit s with configured := true })

/-- START_WRITE while a buffer is queued: merge into it, or block (rules R142, R146). -/
def startQueued (ptr len cref : Word) (s : State) : State :=
  if continues ptr s.nextAppBuf s.nextAppBytes then
    if lengthOverflows s.nextAppBytes len then (irqUnmask s).refuse .lengthOverflow
    else irqUnmask { s with nextAppBytes := s.nextAppBytes + len }
  else { irqUnmask s with mainPc := .waitStart ptr len cref s.nowMs }

/-- START_WRITE while WRITING with nothing queued: merge into the active buffer, or queue (rules R142, R146). -/
def startActive (ptr len : Word) (s : State) : State :=
  if continues ptr s.appBuf s.bytesApp then
    if lengthOverflows s.bytesApp len then (irqUnmask s).refuse .lengthOverflow
    else irqUnmask { s with bytesApp := s.bytesApp + len }
  else irqUnmask { s with nextAppBuf := ptr, nextAppBytes := len, nextValid := true }

/-- START_WRITE while WRITING (rules R142, R146). -/
def startWriting (ptr len cref : Word) (s : State) : State :=
  if s.nextValid then startQueued ptr len cref (irqMask s) else startActive ptr len (irqMask s)

/-- START_WRITE (rules R142 to R146). -/
def execStartWrite (ptr len cref : Word) (s : State) : Host.Outcome State Fault Refusal :=
  configuredCommand s
    (if len = 0 then .next s
    else if bufferWraps ptr len then .next (s.refuse .bufferWraps)
    else if s.engine = .idle then (startFresh ptr len s).outcome
    else .next (startWriting ptr len cref s))

/-- STOP_WRITE (rule R147). -/
def execStopWrite (s : State) : Host.Outcome State Fault Refusal :=
  configuredCommand s (.next (maskedStop s))

/-- FINISH_WRITE (rule R148). -/
def execFinishWrite (cref : Word) (s : State) : Host.Outcome State Fault Refusal :=
  configuredCommand s
    (if s.engine = .idle then .next s else .next { s with mainPc := .waitFinish cref s.nowMs })

/-- The answer of IS_WRITE_FINISHED (rule R150). -/
def State.writeFinished (s : State) (ptr : Word) : Bool :=
  s.engine == .idle ||
    (!inBuffer ptr s.appBuf s.bytesApp && !(s.nextValid && inBuffer ptr s.nextAppBuf s.nextAppBytes))

/-- IS_WRITE_FINISHED (rule R150): a masked snapshot and its answer. -/
def execIsWriteFinished (ptr : Word) (s : State) : Host.Outcome State Fault Refusal :=
  configuredCommand s
    (let m := irqMask s
     .next ((irqUnmask m).emit (.result (m.writeFinished ptr))))

/-- The stall exit of a wait: the cell, the record, the error, the stop (rules R149, R273). -/
def waitStall (cref : Word) (s : State) : State :=
  maskedStop (((s.setCell cref).logRecord .stall).raise .stallTimeout)

/-- One poll of a wait on cell `cref` that began at `t0` and whose completion exit is `done` (rule R149): the cell,
then completion, then the timeout. -/
def waitPoll (cref t0 : Word) (done : Flow) (s : State) : Flow :=
  if s.cell cref then .go { maskedStop s with mainPc := .ready }
  else if s.engine = .idle then done.andThen fun s => .go { s with mainPc := .ready }
  else if s.stalled t0 then .go { waitStall cref s with mainPc := .ready }
  else .go s

/-- WAIT_POLL (rule R149). -/
def execWaitPoll (s : State) : Host.Outcome State Fault Refusal :=
  if s.waitPollEnabled then
    match s.mainPc with
    | .ready => notEnabled .main
    | .waitFinish cref t0 => (waitPoll cref t0 (.go s) s).outcome
    | .waitStart ptr len cref t0 => (waitPoll cref t0 (startFresh ptr len s) s).outcome
  else notEnabled .main

/-- SET_CANCEL (rule R151): enabled in every state. -/
def execSetCancel (cref : Word) (s : State) : Host.Outcome State Fault Refusal := .next (s.setCell cref)

/-- CLOCK_TICK (rule R152): enabled in every state; the clock wraps modulo 2^32. -/
def execClockTick (ms : Word) (s : State) : Host.Outcome State Fault Refusal :=
  .next { s with nowMs := s.nowMs + ms }

end Sys2Proof.Machine
end

