-- ==== Sys2Proof/Machine/Interrupts.lean ====
section
/-! DEFINITION. The interrupt handlers, step by step (43_interrupts.md), and the meanings of DATA_IRQ and SCHED_IRQ.
An entry saves nothing and a return restores nothing: both only move the handler's label (rules R277, R279). -/

namespace Sys2Proof.Machine

/-! ### Data handler -/

/-- The entry step's overrun: log, error, stop; the label stays `OFF` (rules R242, R271). -/
def dataOverrun (s : State) : State := ctlStop ((s.logRecord .overrun).raise .overrun)

/-- The entry step without an overrun (rule R242). -/
def dataAdvance (s : State) : State :=
  { s with
    htA := false
    tcA := false
    dmaFillto := s.dmaFillto + s.params.halfWord
    dataPc := if s.incompleteBuf then .finish else .refill1 }

/-- The data handler's entry step (rule R242). -/
def dataEntry (s : State) : State := if s.htA && s.tcA then dataOverrun s else dataAdvance s

/-- One byte step of the handler's REFILL; with `k = 0` the label moves on to `next` (rules R212, R243, R245). -/
def dataRefillStep (next : DataPc) (s : State) : Flow :=
  match refillMisuse s with
  | some site => misuse site s
  | none => if refillCount s = 0 then .go { s with dataPc := next } else refillByte s

/-- The poison step of the handler's REFILL (rules R243, R245). -/
def dataPoisonStep (next : DataPc) (s : State) : State := { poisonGuard s with dataPc := next }

/-- The step D_CNB (rule R244). -/
def dataSpliceStep (s : State) : Flow :=
  match spliceVerdict s with
  | .misuse => misuse .spliceSched s
  | .swap => .go { splice s with dataPc := .refill2 }
  | .stay => .go { s with dataPc := .finish }

/-- The step D_END: the starvation flag and the return (rules R246, R279). -/
def dataEndStep (s : State) : State := { s.flagIncomplete with dataPc := .off }

/-- The step of the data handler that its label names (rules R240 to R246). -/
def dataStep (s : State) : Flow :=
  match s.dataPc with
  | .off => .go (dataEntry s)
  | .refill1 => dataRefillStep .poison1 s
  | .poison1 => .go (dataPoisonStep .cnb s)
  | .cnb => dataSpliceStep s
  | .refill2 => dataRefillStep .poison2 s
  | .poison2 => .go (dataPoisonStep .finish s)
  | .finish => .go (dataEndStep s)

/-- DATA_IRQ (rule R241). -/
def execDataIrq (s : State) : Host.Outcome State Fault Refusal :=
  if s.dataIrqEnabled then (dataStep s).outcome else notEnabled .data

/-- The whole data handler with no hardware step between its steps (rule R247). -/
def onDataIrq (s : State) : Flow :=
  if s.htA && s.tcA then .go (dataOverrun s)
  else
    let s1 := { s with htA := false, tcA := false, dmaFillto := s.dmaFillto + s.params.halfWord }
    (if s1.incompleteBuf then .go s1 else (refill s1).andThen checkNextBuffer).andThen
      fun s2 => .go s2.flagIncomplete

/-! ### Schedule handler -/

/-- There is new application data (rule R251; decision D17). -/
def State.newData (s : State) : Bool := decide (s.scheduledDma.toNat < s.bytesApp.toNat) || s.nextValid

/-- The schedule handler's entry step (rule R251). -/
def schedEntry (s : State) : State :=
  let s := { s with tcB := false }
  if s.newData then { s with schedPc := if s.incompleteBuf then .restart else .extend }
  else ctlStop s

/-- The step S_RESTART (rules R252, R253). -/
def schedRestartStep (s : State) : Flow :=
  if s.engine = .idle then .go { s with schedPc := .off }
  else (dmaARestart (irqMask s)).andThen fun s => .go { irqUnmask s with schedPc := .extend }

/-- The step S_EXTEND (rules R253 to R255). -/
def schedExtendStep (s : State) : Flow :=
  if s.engine = .idle then .go { s with schedPc := .off }
  else if s.bytesApp = s.scheduledDma then misuse .extendZero s
  else (ctlExtend (s.bytesApp - s.scheduledDma) s).andThen fun s =>
    .go { s with scheduledDma := s.bytesApp, schedPc := .off }

/-- The step of the schedule handler that its label names (rules R240, R250 to R254). -/
def schedStep (s : State) : Flow :=
  match s.schedPc with
  | .off => .go (schedEntry s)
  | .restart => schedRestartStep s
  | .extend => schedExtendStep s

/-- SCHED_IRQ (rule R250). -/
def execSchedIrq (s : State) : Host.Outcome State Fault Refusal :=
  if s.schedIrqEnabled then (schedStep s).outcome else notEnabled .sched

end Sys2Proof.Machine
end

