-- ==== Sys2Proof/Machine/Procedures.lean ====
section
/-! DEFINITION. The meanings of the internal opcodes: each is the effect of the procedure it names, as the steps that
contain it run it (42_refill_control.md; rule R192). An internal opcode is never a step of its own: `step` refuses it
(rule R119; Fetch.lean; log entry 9). -/

namespace Sys2Proof.Machine

/-- REFILL (rule R211). -/
def execRefill (s : State) : Host.Outcome State Fault Refusal := (refill s).outcome

/-- CHECK_NEXT_BUFFER (rule R215). -/
def execCheckNextBuffer (s : State) : Host.Outcome State Fault Refusal := (checkNextBuffer s).outcome

/-- CTL_INIT (rule R217). -/
def execCtlInit (s : State) : Host.Outcome State Fault Refusal := .next (ctlInit s)

/-- CTL_START (rule R218) with the count its one caller gives it, `bytes_app` (rule R144). -/
def execCtlStart (s : State) : Host.Outcome State Fault Refusal := .next (ctlStart s.bytesApp s)

/-- CTL_STOP (rule R219). -/
def execCtlStop (s : State) : Host.Outcome State Fault Refusal := .next (ctlStop s)

/-- CTL_EXTEND (rule R221) with the count its one caller gives it, `bytes_app - scheduled_dma` (rule R254). -/
def execCtlExtend (s : State) : Host.Outcome State Fault Refusal :=
  (ctlExtend (s.bytesApp - s.scheduledDma) s).outcome

/-- DMA_A_RESTART (rule R222). -/
def execDmaARestart (s : State) : Host.Outcome State Fault Refusal := (dmaARestart s).outcome

/-- IRQ_MASK (rule R236). -/
def execIrqMask (s : State) : Host.Outcome State Fault Refusal := .next (irqMask s)

/-- IRQ_UNMASK (rule R237). -/
def execIrqUnmask (s : State) : Host.Outcome State Fault Refusal := .next (irqUnmask s)

/-- TIMER_UPDATE (rule R192). -/
def execTimerUpdate (s : State) : Host.Outcome State Fault Refusal := .next (timerUpdate s)

end Sys2Proof.Machine
end

