-- ==== Sys2Proof/Machine/Dispatch.lean ====
section
/-! DEFINITION. One arm per operation of rule R116. -/

namespace Sys2Proof.Machine

def exec (i : Instr) (s : State) : Host.Outcome State Fault Refusal :=
  match i with
  -- host commands and host environment (40_host_commands.md)
  | .init => Sys2Proof.Machine.execInit s
  | .startWrite ptr len cref => Sys2Proof.Machine.execStartWrite ptr len cref s
  | .stopWrite => Sys2Proof.Machine.execStopWrite s
  | .finishWrite cref => Sys2Proof.Machine.execFinishWrite cref s
  | .isWriteFinished ptr => Sys2Proof.Machine.execIsWriteFinished ptr s
  | .waitPoll => Sys2Proof.Machine.execWaitPoll s
  | .setCancel cref => Sys2Proof.Machine.execSetCancel cref s
  | .clockTick ms => Sys2Proof.Machine.execClockTick ms s
  -- handshake hardware (41_handshake.md)
  | .ackAssert => Sys2Proof.Machine.execAckAssert s
  | .ackRelease => Sys2Proof.Machine.execAckRelease s
  | .timerReqAssert => Sys2Proof.Machine.execTimerReqAssert s
  | .dmaAFetch => Sys2Proof.Machine.execDmaAFetch s
  | .dmaAXfer => Sys2Proof.Machine.execDmaAXfer s
  | .dmaBXfer => Sys2Proof.Machine.execDmaBXfer s
  -- interrupt contexts (43_interrupts.md)
  | .dataIrq => Sys2Proof.Machine.execDataIrq s
  | .schedIrq => Sys2Proof.Machine.execSchedIrq s
  -- internal procedures (42_refill_control.md)
  | .refill => Sys2Proof.Machine.execRefill s
  | .checkNextBuffer => Sys2Proof.Machine.execCheckNextBuffer s
  | .ctlInit => Sys2Proof.Machine.execCtlInit s
  | .ctlStart => Sys2Proof.Machine.execCtlStart s
  | .ctlStop => Sys2Proof.Machine.execCtlStop s
  | .ctlExtend => Sys2Proof.Machine.execCtlExtend s
  | .dmaARestart => Sys2Proof.Machine.execDmaARestart s
  | .irqMask => Sys2Proof.Machine.execIrqMask s
  | .irqUnmask => Sys2Proof.Machine.execIrqUnmask s
  | .timerUpdate => Sys2Proof.Machine.execTimerUpdate s

end Sys2Proof.Machine
end

