-- ==== Sys2Proof/Machine/Fetch.lean ====
section
/-! DEFINITION. Taking the next operation from the written run (rule R122), and the two refusals that an operation can
meet before its meaning is asked (rules R118, R119). The block itself fetches nothing (rule R31): the run is the list
of steps it is given (log entry 5). -/

namespace Sys2Proof.Machine

/-- What the written run gives next. -/
inductive Fetched where
  /-- The operation `i`, issued by `who` (`none`: by the agent rule R116 names), and the state with it taken. -/
  | op (i : Instr) (who : Option Agent) (s : State)
  /-- A reserved operation word (rule R118), and the state with it taken. -/
  | reserved (s : State)
  /-- The run is cut inside an operation (decision D48). -/
  | malformed
  /-- The run is at its end. -/
  | atEnd
  deriving DecidableEq, Repr

/-- The state with the operation taken: `rest` of the run is left, and one issuer is used up. -/
def State.taken (s : State) (rest : List Byte) : State :=
  { s with run := rest, issuers := s.issuers.tail }

/-- The next operation of the written run. -/
def fetch (s : State) : Fetched :=
  if runOk s.run then
    match decode s.run with
    | .op i rest => .op i (s.issuers.headD none) (s.taken rest)
    | .reserved _ rest => .reserved (s.taken rest)
    | .truncated => .malformed
    | .empty => .atEnd
  else .malformed

/-- The refusals of rule R119: an internal opcode as a step of its own, and an operation issued by another agent than
the one rule R116 names. An internal opcode is refused with `internal_opcode` whoever issues it: the spec does not order
the two refusals (DESIGN CHOICE; log entry 31). -/
def admission (i : Instr) (who : Option Agent) : Option RefuseReason :=
  if i.internal then some .internalOpcode
  else
    match who with
    | none => none
    | some a => if i.issuedBy a then none else some .wrongAgent

/-- The bytes of one operation, put at the head of the run with nothing after it, issued by the agent rule R116
names. -/
def State.withRun (s : State) (bytes : List Byte) : State := { s with run := bytes, issuers := [] }

end Sys2Proof.Machine
end

