-- ==== Sys2Proof/Machine/Step.lean ====
section
/-! DEFINITION. One step of the block: the next operation of the written run, taken by its agent. -/

namespace Sys2Proof.Machine

/-- One step. A refusal of the spec (`reserved_opcode`, `internal_opcode`, `wrong_agent`) is a step: it sets the mark
and emits `ERR(5)` (rules R118, R119, R274). -/
def step (s : State) : Host.Outcome State Fault Refusal :=
  match fetch s with
  | .op i who s1 =>
    match admission i who with
    | none => exec i s1
    | some reason => .next (s1.refuse reason)
  | .reserved s1 => .next (s1.refuse .reservedOpcode)
  | .malformed => .refused .malformedRun
  | .atEnd => .refused .endOfRun

/-- `s` with the operation whose table bits are `w` as its whole written run. -/
def State.withFetchWord (s : State) (nbits w : Nat) : State := s.withRun (tableBytes nbits w)

end Sys2Proof.Machine
end

