-- ==== Sys2Proof/Machine/Pseudo.lean ====
section
/-! DEFINITION. The pseudo-operations of rule R121 and their expansions. They have no encoding of their own. -/

namespace Sys2Proof.Machine

/-- The pseudo-operations (rule R121). -/
inductive Pseudo where
  | writeSync (p l c : Word)
  | ackCycle
  | byteCycle
  | irqDataAll
  | irqSchedAll
  deriving DecidableEq, Repr

/-- The operation `i` repeated until `returned` holds after at least one step, from state `s` with no other step in
between; at most `fuel` times. Where the operation has no step, or ends without a next state, the list ends after it:
the spec does not say what a repetition that never returns expands to (DESIGN CHOICE; log entry 32). -/
def repeatUntil (i : Instr) (returned : State → Bool) : Nat → State → List Instr
  | 0, _ => []
  | k + 1, s =>
    i :: match exec i s with
      | .next s1 => if returned s1 then [] else repeatUntil i returned k s1
      | .fault _ => []
      | .refused _ => []

/-- The expansion of a pseudo-operation at a point of a run where the state is `s` (rule R121). A data handler's run
has at most `N + 7` steps and a schedule handler's at most 3 (rules R212, R240). -/
def Pseudo.expand (s : State) : Pseudo → List Instr
  | .writeSync p l c => [.startWrite p l c, .finishWrite c]
  | .ackCycle => [.ackAssert, .ackRelease]
  | .byteCycle => [.timerReqAssert, .ackAssert, .dmaAXfer, .ackRelease, .dmaBXfer]
  | .irqDataAll => repeatUntil .dataIrq (fun s => s.dataPc == .off) (s.params.n + 7) s
  | .irqSchedAll => repeatUntil .schedIrq (fun s => s.schedPc == .off) 3 s

end Sys2Proof.Machine
end

