-- ==== Sys2Proof/Machine/Text.lean ====
section
/-! DEFINITION. The textual syntax of operations (rule R120), over lists of characters: rendering and reading one
line. The text form is the spec's own and has no effect on the machine (decision D39). -/

namespace Sys2Proof.Machine

/-- The mnemonic in lower case (rule R120). -/
def mnemonicText : Instr → List Char
  | .init => ['i', 'n', 'i', 't']
  | .startWrite _ _ _ => ['s', 't', 'a', 'r', 't', '_', 'w', 'r', 'i', 't', 'e']
  | .stopWrite => ['s', 't', 'o', 'p', '_', 'w', 'r', 'i', 't', 'e']
  | .finishWrite _ => ['f', 'i', 'n', 'i', 's', 'h', '_', 'w', 'r', 'i', 't', 'e']
  | .isWriteFinished _ => ['i', 's', '_', 'w', 'r', 'i', 't', 'e', '_', 'f', 'i', 'n', 'i', 's', 'h', 'e', 'd']
  | .waitPoll => ['w', 'a', 'i', 't', '_', 'p', 'o', 'l', 'l']
  | .setCancel _ => ['s', 'e', 't', '_', 'c', 'a', 'n', 'c', 'e', 'l']
  | .clockTick _ => ['c', 'l', 'o', 'c', 'k', '_', 't', 'i', 'c', 'k']
  | .ackAssert => ['a', 'c', 'k', '_', 'a', 's', 's', 'e', 'r', 't']
  | .ackRelease => ['a', 'c', 'k', '_', 'r', 'e', 'l', 'e', 'a', 's', 'e']
  | .timerReqAssert => ['t', 'i', 'm', 'e', 'r', '_', 'r', 'e', 'q', '_', 'a', 's', 's', 'e', 'r', 't']
  | .dmaAFetch => ['d', 'm', 'a', '_', 'a', '_', 'f', 'e', 't', 'c', 'h']
  | .dmaAXfer => ['d', 'm', 'a', '_', 'a', '_', 'x', 'f', 'e', 'r']
  | .dmaBXfer => ['d', 'm', 'a', '_', 'b', '_', 'x', 'f', 'e', 'r']
  | .dataIrq => ['d', 'a', 't', 'a', '_', 'i', 'r', 'q']
  | .schedIrq => ['s', 'c', 'h', 'e', 'd', '_', 'i', 'r', 'q']
  | .refill => ['r', 'e', 'f', 'i', 'l', 'l']
  | .checkNextBuffer => ['c', 'h', 'e', 'c', 'k', '_', 'n', 'e', 'x', 't', '_', 'b', 'u', 'f', 'f', 'e', 'r']
  | .ctlInit => ['c', 't', 'l', '_', 'i', 'n', 'i', 't']
  | .ctlStart => ['c', 't', 'l', '_', 's', 't', 'a', 'r', 't']
  | .ctlStop => ['c', 't', 'l', '_', 's', 't', 'o', 'p']
  | .ctlExtend => ['c', 't', 'l', '_', 'e', 'x', 't', 'e', 'n', 'd']
  | .dmaARestart => ['d', 'm', 'a', '_', 'a', '_', 'r', 'e', 's', 't', 'a', 'r', 't']
  | .irqMask => ['i', 'r', 'q', '_', 'm', 'a', 's', 'k']
  | .irqUnmask => ['i', 'r', 'q', '_', 'u', 'n', 'm', 'a', 's', 'k']
  | .timerUpdate => ['t', 'i', 'm', 'e', 'r', '_', 'u', 'p', 'd', 'a', 't', 'e']

/-- The digits of a number in base `base`, most significant first; `fuel` bounds their count. -/
def digitsOf (base : Nat) : Nat → Nat → List Char → List Char
  | 0, _, acc => acc
  | k + 1, v, acc =>
    let d := v % base
    let c := if d < 10 then Char.ofNat (48 + d) else Char.ofNat (87 + d)
    if v / base = 0 then c :: acc else digitsOf base k (v / base) (c :: acc)

/-- A number in hexadecimal with `0x`. -/
def hexText (w : Word) : List Char := '0' :: 'x' :: digitsOf 16 8 w.toNat []

/-- A number in decimal. -/
def decText (w : Word) : List Char := digitsOf 10 10 w.toNat []

/-- A cancel cell, `c<n>` (rule R120). -/
def cellText (w : Word) : List Char := 'c' :: decText w

/-- The operands of an operation in text, in the order of rule R114. -/
def operandText : Instr → List (List Char)
  | .startWrite ptr len cref => [hexText ptr, decText len, cellText cref]
  | .finishWrite cref => [cellText cref]
  | .isWriteFinished ptr => [hexText ptr]
  | .setCancel cref => [cellText cref]
  | .clockTick ms => [decText ms]
  | _ => []

/-- Joins operand texts with a comma and a space. -/
def joinOperands : List (List Char) → List Char
  | [] => []
  | [x] => x
  | x :: y :: t => x ++ [',', ' '] ++ joinOperands (y :: t)

/-- The text form of an operation (rule R120). -/
def render (i : Instr) : List Char :=
  match operandText i with
  | [] => mnemonicText i
  | ops => mnemonicText i ++ [' '] ++ joinOperands ops

/-- The value of a digit of base `base`, in either case of letters. -/
def digitValue (base : Nat) (c : Char) : Option Nat :=
  let k := c.toNat
  let v :=
    if 48 ≤ k ∧ k ≤ 57 then some (k - 48)
    else if 97 ≤ k ∧ k ≤ 102 then some (k - 87)
    else if 65 ≤ k ∧ k ≤ 70 then some (k - 55)
    else none
  match v with
  | some d => if d < base then some d else none
  | none => none

/-- Reads digits of base `base` after the value `acc`. -/
def readDigits (base : Nat) : Nat → List Char → Option Nat
  | acc, [] => some acc
  | acc, c :: t =>
    match digitValue base c with
    | some d => readDigits base (acc * base + d) t
    | none => none

/-- A 32-bit operand value. -/
def wordOf (v : Option Nat) : Option Word :=
  match v with
  | some n => if n < 2 ^ 32 then some (BitVec.ofNat 32 n) else none
  | none => none

/-- Reads a number, hexadecimal with `0x` or decimal (rule R120). -/
def readNumber : List Char → Option Word
  | [] => none
  | '0' :: 'x' :: c :: t => wordOf (readDigits 16 0 (c :: t))
  | c :: t => wordOf (readDigits 10 0 (c :: t))

/-- Reads a cancel cell `c<n>`; its number is hexadecimal with `0x` or decimal, as every number is (rule R120). -/
def readCell : List Char → Option Word
  | 'c' :: t => readNumber t
  | _ => none

/-- White space. -/
def isBlank (c : Char) : Bool := c == ' ' || c == '\t'

/-- Drops white space at both ends. -/
def trimText (t : List Char) : List Char := (((t.dropWhile isBlank).reverse).dropWhile isBlank).reverse

/-- Splits at commas. -/
def splitCommas : List Char → List Char → List (List Char)
  | acc, [] => [acc.reverse]
  | acc, ',' :: t => acc.reverse :: splitCommas [] t
  | acc, c :: t => splitCommas (c :: acc) t

/-- A line of text: an operation or a pseudo-operation. -/
inductive Line where
  | op (i : Instr)
  | pseudo (p : Pseudo)
  deriving DecidableEq, Repr

/-- The operations whose text has no operands. -/
def plainInstrs : List Instr :=
  [.init, .stopWrite, .waitPoll, .ackAssert, .ackRelease, .timerReqAssert, .dmaAFetch, .dmaAXfer, .dmaBXfer, .dataIrq, .schedIrq, .refill, .checkNextBuffer, .ctlInit, .ctlStart, .ctlStop, .ctlExtend, .dmaARestart, .irqMask, .irqUnmask, .timerUpdate]

/-- The pseudo-operations whose text has no operands, by mnemonic (rule R121). -/
def plainPseudos : List (List Char × Pseudo) :=
  [(['a', 'c', 'k', '_', 'c', 'y', 'c', 'l', 'e'], .ackCycle), (['b', 'y', 't', 'e', '_', 'c', 'y', 'c', 'l', 'e'], .byteCycle),
    (['i', 'r', 'q', '_', 'd', 'a', 't', 'a', '_', 'a', 'l', 'l'], .irqDataAll),
    (['i', 'r', 'q', '_', 's', 'c', 'h', 'e', 'd', '_', 'a', 'l', 'l'], .irqSchedAll)]

/-- A line with no operands. -/
def readPlain (m : List Char) : Option Line :=
  match plainInstrs.find? (fun i => mnemonicText i == m) with
  | some i => some (.op i)
  | none => (plainPseudos.find? (fun e => e.1 == m)).map (fun e => .pseudo e.2)

/-- A line with one operand. -/
def readOne (m a : List Char) : Option Line :=
  if m = mnemonicText (.finishWrite 0) then (readCell a).map (fun w => .op (.finishWrite w))
  else if m = mnemonicText (.isWriteFinished 0) then (readNumber a).map (fun w => .op (.isWriteFinished w))
  else if m = mnemonicText (.setCancel 0) then (readCell a).map (fun w => .op (.setCancel w))
  else if m = mnemonicText (.clockTick 0) then (readNumber a).map (fun w => .op (.clockTick w))
  else none

/-- A line with three operands. -/
def readThree (m a b c : List Char) : Option Line :=
  match readNumber a, readNumber b, readCell c with
  | some p, some l, some r =>
    if m = mnemonicText (.startWrite 0 0 0) then some (.op (.startWrite p l r))
    else if m = ['w', 'r', 'i', 't', 'e', '_', 's', 'y', 'n', 'c'] then some (.pseudo (.writeSync p l r))
    else none
  | _, _, _ => none

/-- Reads one line: a mnemonic, its operands, and a comment after `;` (rule R120). `none`: the line is no operation. -/
def readLine (line : List Char) : Option Line :=
  let code := trimText (line.takeWhile (fun c => c != ';'))
  let m := code.takeWhile (fun c => !isBlank c)
  let rest := trimText (code.dropWhile (fun c => !isBlank c))
  match rest with
  | [] => readPlain m
  | r =>
    match (splitCommas [] r).map trimText with
    | [a] => readOne m a
    | [a, b, c] => readThree m a b c
    | _ => none

end Sys2Proof.Machine
end

