-- ==== Sys2Proof/Machine/Registers.lean ====
section
/-! DEFINITION. The register view of rule R58. No operation reads it and the host has no access to it (decision D46);
it says what each field of `State` is in the spec's numbered registers. -/

namespace Sys2Proof.Machine

/-- A word of flag bits: bit `k` holds 1 for each entry `(k, true)`; bits not listed read 0 (rule R58, U8). -/
def flagWord : List (Nat × Bool) → Nat
  | [] => 0
  | (k, b) :: t => (if b then 2 ^ k else 0) + flagWord t

/-- The code of `tim_phase` in TIM_PHASE (rule R58); 5 to 7 never occur (U9). -/
def TimPhase.code : TimPhase → Nat
  | .off => 0
  | .primed => 1
  | .reqOn => 2
  | .acked => 3
  | .released => 4

/-- The address of a register in the memory-mapped view: `BASE + 4*number` (rules R58, R87). That the sum is taken
modulo 2^32 is a DESIGN CHOICE: the spec gives neither the width of `BASE` nor a wrap (log entry 30). -/
def regAddress (p : Params) (number : Nat) : Word := p.base + BitVec.ofNat 32 (4 * number)

/-- The registers by number (rule R58). `none`: the map lists no register of that number. OUT is as wide as an image;
every other word has 32 bits. -/
def State.register (s : State) (number : Nat) : Option Nat :=
  match number with
  -- ENG_STATUS
  | 0x00 => some (flagWord [(0, s.engine == .writing), (1, s.incompleteBuf), (2, s.nextValid), (3, s.configured),
      (4, s.halted), (5, s.refused)])
  -- APP_BUF
  | 0x01 => some s.appBuf.toNat
  -- BYTES_APP
  | 0x02 => some s.bytesApp.toNat
  -- BYTES_DMA
  | 0x03 => some s.bytesDma.toNat
  -- SCHEDULED_DMA
  | 0x04 => some s.scheduledDma.toNat
  -- DMA_IDX
  | 0x05 => some s.dmaIdx.toNat
  -- DMA_FILLTO
  | 0x06 => some s.dmaFillto.toNat
  -- NEXT_APP_BUF
  | 0x07 => some s.nextAppBuf.toNat
  -- NEXT_APP_BYTES
  | 0x08 => some s.nextAppBytes.toNat
  -- DMAA_CTL
  | 0x10 => some (flagWord [(0, s.aEn), (1, true), (2, s.aHtie), (3, s.aTcie), (4, true), (6, true)])
  -- DMAA_FLAGS
  | 0x11 => some (flagWord [(0, s.htA), (1, s.tcA), (2, s.aReq)])
  -- DMAA_MADDR
  | 0x12 => some s.params.ringBase.toNat
  -- DMAA_LEN
  | 0x13 => some s.params.nWord.toNat
  -- DMAA_PADDR
  | 0x14 => some (regAddress s.params 0x38).toNat
  -- DMAA_FETCH
  | 0x15 => some s.aFetch.toNat
  -- DMAA_XFER
  | 0x16 => some s.aXfer.toNat
  -- DMAA_PFQ
  | 0x17 => some (s.pfq.length % 2 ^ 8)
  -- DMAB_CTL
  | 0x20 => some (flagWord [(0, s.bEn), (1, false), (3, s.bTcie), (4, false), (6, true)])
  -- DMAB_FLAGS
  | 0x21 => some (flagWord [(1, s.tcB), (2, s.bReq)])
  -- DMAB_SRC
  | 0x22 => some s.params.timerEgrUpdate.toNat
  -- DMAB_CNT
  | 0x23 => some s.bCnt.toNat
  -- DMAB_PADDR
  | 0x24 => some (regAddress s.params 0x32).toNat
  -- TIM_CTL
  | 0x30 => some (flagWord [(0, s.timEn)])
  -- TIM_PHASE
  | 0x31 => some s.timPhase.code
  -- TIM_EGR: write-only, reads 0
  | 0x32 => some 0
  -- OUT
  | 0x38 => some s.out
  -- BUS
  | 0x39 => some (flagWord [(0, s.gpioMode == .engine), (1, s.req), (2, s.ack), (3, s.dataDriven)])
  -- IRQ_CTL
  | 0x40 => some (flagWord [(0, s.irqMask), (1, s.dataEn), (2, s.schedEn)])
  -- IRQ_STATE
  | 0x41 => some (flagWord [(0, s.dataPending), (1, s.schedPending), (2, s.dataActive), (3, s.schedActive)])
  -- FAULT
  | 0x48 => some (flagWord [(0, s.halted), (1, s.reqLost), (2, s.refused), (3, s.overrunSeen), (4, s.stallSeen)])
  | _ => none

/-- The memory-mapped view (rules R58, R87): the word at `BASE + 4*number`, where the map lists that number. The offset
from `BASE` is taken modulo 2^32 (DESIGN CHOICE; log entry 30). -/
def State.mapped (s : State) (addr : Word) : Option Nat :=
  let off := (addr - s.params.base).toNat
  if off % 4 = 0 then s.register (off / 4) else none

end Sys2Proof.Machine
end

