-- ==== Sys2Proof/Safety.lean ====
section
/-! DEFINITION. What claims speak of: readiness of the command port, the end of a run, the duties of HOST and PEER, and
the invariants of 10_state.md rule R68 with what each needs to be kept by every step. -/

namespace Sys2Proof.Safety

open Sys2Proof.Machine

/-! ### Enabling, the end of a run, stuckness -/

/-- A HOST command is enabled (rule R140). -/
structure HostReady (s : State) : Prop where
  dataOff : s.dataPc = .off
  schedOff : s.schedPc = .off
  mainReady : s.mainPc = .ready
  running : s.halted = false

/-- A HOST command is enabled and INIT has run (rules R57, R140). -/
structure CommandReady (s : State) : Prop extends HostReady s where
  configured : s.configured = true

/-- The main line's poll is enabled while it waits with label `pc` (rule R149). -/
structure PollReady (s : State) (pc : MainPc) : Prop where
  dataOff : s.dataPc = .off
  schedOff : s.schedPc = .off
  waiting : s.mainPc = pc
  running : s.halted = false

/-- The five HOST commands of rule R140. -/
def isHostCommand : Instr → Bool
  | .init => true
  | .startWrite _ _ _ => true
  | .stopWrite => true
  | .finishWrite _ => true
  | .isWriteFinished _ => true
  | _ => false

/-- A step of the block itself, as the end of a run and a stall speak of it (rules R172, R329): the timer, the DMA
channels and the two handlers. The poll of the HOST's own wait is none of them, since rule R329 has its timeout end a
stall 'if the host is waiting' (DEDUCED; log entry 34). -/
def isBlockStep : Instr → Bool
  | .timerReqAssert => true
  | .dmaAFetch => true
  | .dmaAXfer => true
  | .dmaBXfer => true
  | .dataIrq => true
  | .schedIrq => true
  | _ => false

/-- The 'enabled when' of each operation that an agent issues; internal procedures have none (rule R210). -/
def enabled : Instr → State → Bool
  | .init, s => s.hostEnabled
  | .startWrite _ _ _, s => s.hostEnabled
  | .stopWrite, s => s.hostEnabled
  | .finishWrite _, s => s.hostEnabled
  | .isWriteFinished _, s => s.hostEnabled
  | .waitPoll, s => s.waitPollEnabled
  | .setCancel _, _ => true
  | .clockTick _, _ => true
  | .ackAssert, s => !s.ack
  | .ackRelease, s => s.ack
  | .timerReqAssert, s => s.timerReqEnabled
  | .dmaAFetch, s => s.fetchEnabled
  | .dmaAXfer, s => s.aXferEnabled
  | .dmaBXfer, s => s.bXferEnabled
  | .dataIrq, s => s.dataIrqEnabled
  | .schedIrq, s => s.schedIrqEnabled
  | _, _ => false

/-- The end of a run (rule R172). -/
structure Final (s : State) : Prop where
  running : s.halted = false
  mainReady : s.mainPc = .ready
  dataOff : s.dataPc = .off
  schedOff : s.schedPc = .off
  idle : s.engine = .idle
  noData : s.dataPending = false
  noSched : s.schedPending = false

/-- A stall: WRITING, not halted, and no step of the block is enabled, whether or not the HOST waits (rules R172,
R329). -/
def Stalled (s : State) : Prop :=
  s.engine = .writing ∧ s.halted = false ∧ ∀ i, isBlockStep i = true → enabled i s = false

/-- No fault is recorded (rule R67). -/
structure NoFaultRecorded (s : State) : Prop where
  running : s.halted = false
  noLostRequest : s.reqLost = false
  noRefusal : s.refused = false
  noOverrun : s.overrunSeen = false
  noStall : s.stallSeen = false

/-! ### Duties -/

/-- The PEER keeps its duties over one step from `s` to `t` (rule R171): it asserts ACK only while `req = 1`, and ACK
is released at every fresh start. That it releases only after asserting is the enabling of its steps (rule R181). -/
structure PeerDuty (s t : State) : Prop where
  assertsOnRequest : s.ack = false → t.ack = true → s.req = true
  releasedAtStart : s.engine = .idle → t.engine = .writing → s.ack = false

/-! ### Invariants -/

/-- The shape of the state: the parameters' properties (00_scope.md section 3), the ring's length, every image below
`2^IMG_W`, the prefetch bound (I5, second half) and the canonical forms of memory and cells. -/
structure ShapeInv (s : State) : Prop where
  params : s.params.wf = true
  ringLength : s.ring.length = s.params.n
  ringImages : ∀ v ∈ s.ring, v < 2 ^ s.params.imgW
  queueImages : ∀ v ∈ s.pfq, v < 2 ^ s.params.imgW
  outImage : s.out < 2 ^ s.params.imgW
  queueLength : s.pfq.length ≤ s.params.prefetchDepth
  memory : s.mem.wf = true
  cells : s.cells.wf = true

/-- I1, I2 and I6 of rule R68, and that every buffer the session holds lies inside AM (rule R82). -/
structure SessionInv (s : State) : Prop where
  translated : s.bytesDma.toNat ≤ s.bytesApp.toNat
  scheduled : s.scheduledDma.toNat ≤ s.bytesApp.toNat
  queueEmpty : s.nextValid = false → s.nextAppBytes = 0
  activeFits : s.appBuf.toNat + s.bytesApp.toNat ≤ 2 ^ 32
  queuedFits : s.nextAppBuf.toNat + s.nextAppBytes.toNat ≤ 2 ^ 32
  waitingFits : ∀ ptr len cref t0, s.mainPc = .waitStart ptr len cref t0 → ptr.toNat + len.toNat ≤ 2 ^ 32

/-- The IDLE invariants of rule R68, with what rule R220 adds to them, and the data handler's label. -/
structure IdleRest (s : State) : Prop where
  timer : s.timEn = false ∧ s.timPhase = .off
  channelA : s.aEn = false ∧ s.aReq = false ∧ s.htA = false ∧ s.tcA = false
  positionA : s.aFetch = 0 ∧ s.aXfer = 0 ∧ s.pfq = []
  channelB : s.bEn = false ∧ s.bReq = false ∧ s.tcB = false ∧ s.bCnt = 0
  lines : s.gpioMode = .plain ∧ s.req = false ∧ s.dataDriven = false
  queue : s.nextValid = false ∧ s.nextAppBuf = 0 ∧ s.nextAppBytes = 0
  filled : s.incompleteBuf = false
  dataOff : s.dataPc = .off

/-- While the engine is IDLE the block rests (rule R68). -/
def IdleInv (s : State) : Prop := s.engine = .idle → IdleRest s

/-- What WRITING means (rule R32: 'timer running, DMA channels armed'; rules R52, R57). -/
structure Armed (s : State) : Prop where
  configured : s.configured = true
  channels : s.aEn = true ∧ s.bEn = true
  timer : s.timEn = true ∧ s.timPhase ≠ .off
  lines : s.gpioMode = .engine ∧ s.dataDriven = true

/-- While the engine is WRITING and the block is not halted, it is armed, and no interrupt mask is left set between
steps (rule R54). -/
structure ControlInv (s : State) : Prop where
  armed : s.engine = .writing → s.halted = false → Armed s
  unmasked : s.halted = false → s.irqMask = false
  sources : s.aHtie = s.configured ∧ s.aTcie = s.configured ∧ s.bTcie = s.configured ∧
    s.dataEn = s.configured ∧ s.schedEn = s.configured
  engineConfigured : s.engine = .writing → s.configured = true
  waitConfigured : s.mainPc ≠ .ready → s.configured = true

/-- I3 of rule R68, with the label clause it needs: the handler refills only while `incomplete_buf = 0` (rule R242). -/
structure FillInv (s : State) : Prop where
  gap : s.engine = .writing → s.halted = false → s.incompleteBuf = false → s.room ≤ s.params.half
  filled : s.engine = .writing → s.halted = false → s.incompleteBuf = false → s.dataPc = .off →
    s.dmaIdx = s.dmaFillto
  refilling : s.engine = .writing → s.halted = false → s.dataPc ≠ .off → s.dataPc ≠ .finish →
    s.incompleteBuf = false

/-- I5 of rule R68, first half. -/
def FetchInv (s : State) : Prop :=
  s.halted = false → s.aFetch = s.aXfer + BitVec.ofNat 32 s.pfq.length

/-- DMA-B's count at its full-transfer event and until the extension that answers it (rules R221, R250). -/
structure CountInv (s : State) : Prop where
  atEvent : s.tcB = true → s.bCnt = 0
  inHandler : s.schedPc ≠ .off → s.bCnt = 0 ∧ s.tcB = false

/-- The half-ring events that are pending (rules R46, R276). -/
def pendingEvents (s : State) : Nat := s.htA.toNat + s.tcA.toNat

/-- I4 of rule R68 as an invariant of single steps, in exact counts: the fill boundary has advanced by one half-ring at
most for each event delivered and no longer pending. -/
structure OccupancyInv (s : State) : Prop where
  written : s.engine = .writing → s.halted = false → s.dmaIdx.toNat ≤ s.dmaFillto.toNat
  released : s.engine = .writing → s.halted = false →
    s.dmaFillto.toNat + s.params.half * pendingEvents s ≤
      s.params.n + s.params.half * (s.aXfer.toNat / s.params.half)

/-- The handshake's phases under the PEER duty (rules R171, R193 H1): what each phase says of the lines and of the two
latched requests. -/
def phaseLines (s : State) : Prop :=
  match s.timPhase with
  | .off => False
  | .primed => s.req = false ∧ s.ack = false ∧ s.aReq = false ∧ s.bReq = false
  | .reqOn => s.req = true ∧ s.ack = false ∧ s.aReq = false ∧ s.bReq = false
  | .acked => s.req = false ∧ s.ack = true ∧ s.bReq = false
  | .released => s.req = false ∧ s.ack = false ∧ s.bReq = true

/-- The handshake invariant behind H1 of rule R193. -/
structure HandshakeInv (s : State) : Prop where
  writing : s.engine = .writing → s.halted = false → s.timEn = true ∧ s.configured = true ∧ phaseLines s
  idle : s.engine = .idle → s.timEn = false
  waiting : s.mainPc ≠ .ready → s.configured = true

/-! ### What statements compute with -/

/-- `s` after the spec's `refuse(reason)`: the mark and the event, nothing else (rules R67, R274). -/
def refusedWith (s : State) (reason : RefuseReason) : State :=
  { s with refused := true, trace := s.trace ++ [.err (.refused reason)] }

/-- `s` after `raise Misuse(site)`: halted, and the event (rule R272). -/
def haltedAt (s : State) (site : MisuseSite) : State :=
  { s with halted := true, trace := s.trace ++ [.err (.misuse site)] }

/-- The events of a stop: a line or a mode that changes (rule R219). -/
def releaseEvents (s : State) : List Event :=
  (if s.req = true then [.req false] else []) ++ (if s.gpioMode = .engine then [.mode .plain] else [])

/-- What a REFILL leaves in the ring (rules R211, R214): the images of the `k` bytes from address `src` on, in the
slots of the `k` cursors from `start` on; the poison image in the slot after them where `k < room`; every other slot
as it was. -/
structure RingFilled (p : Params) (m : Memory) (src start k room : Nat) (old new : List Image) : Prop where
  sameLength : new.length = old.length
  images : ∀ j, j < k → new.getD ((start + j) % p.n) 0 = p.translate (m.read (src + j))
  guard : k < room → new.getD ((start + k) % p.n) 0 = p.poison
  others : ∀ i, (∀ j, j < k → (start + j) % p.n ≠ i) → (k < room → (start + k) % p.n ≠ i) →
    new.getD i 0 = old.getD i 0

/-- The state a fresh start leaves, but for the ring (rules R144, R218): `k` bytes are translated. -/
def freshSession (s : State) (ptr len : Word) (k : Nat) (ring : List Image) : State :=
  { s with
    ring := ring
    appBuf := ptr
    bytesApp := len
    bytesDma := BitVec.ofNat 32 k
    scheduledDma := len
    dmaIdx := BitVec.ofNat 32 k
    dmaFillto := BitVec.ofNat 32 s.params.n
    incompleteBuf := decide (k ≠ s.params.n)
    nextValid := false
    nextAppBuf := 0
    nextAppBytes := 0
    aFetch := 0
    aXfer := 0
    pfq := []
    htA := false
    tcA := false
    aReq := false
    bCnt := len
    tcB := false
    bReq := false
    timPhase := .primed
    req := false
    gpioMode := .engine
    trace := s.trace ++ [.mode .engine]
    dataDriven := true
    aEn := true
    bEn := true
    timEn := true
    engine := .writing }

/-- The state CTL_STOP leaves (rule R219). -/
def stopped (s : State) : State :=
  { s with
    aEn := false
    bEn := false
    timEn := false
    timPhase := .off
    aFetch := 0
    aXfer := 0
    pfq := []
    bCnt := 0
    htA := false
    tcA := false
    tcB := false
    aReq := false
    bReq := false
    trace := s.trace ++ releaseEvents s
    req := false
    gpioMode := .plain
    dataDriven := false
    incompleteBuf := false
    nextValid := false
    nextAppBuf := 0
    nextAppBytes := 0
    engine := .idle }

/-- The state with a diagnostic record and the error that goes with it (rules R66, R67, R271, R273). -/
def recorded (s : State) (kind : LogKind) (e : Err) : State :=
  { s with
    log := s.log ++ [⟨kind, s.snap⟩]
    trace := s.trace ++ [.log ⟨kind, s.snap⟩, .err e]
    overrunSeen := s.overrunSeen || decide (kind = .overrun)
    stallSeen := s.stallSeen || decide (kind = .stall) }

/-! ### Stretches of a session -/

/-- The operation a step takes with its meaning; `none`: there is none, or the step is a refusal of rule R118 or R119. -/
def takenOp (s : State) : Option Instr :=
  match fetch s with
  | .op i who _ => if admission i who = none then some i else none
  | .reserved _ => none
  | .malformed => none
  | .atEnd => none

/-- The steps of a stretch that rule R193 counts. -/
structure Tally where
  /-- DMA_A_XFER steps, each one `OUTW` event (rule R190). -/
  transfers : Nat
  /-- DMA_B_XFER steps, each one timer reset (rules R191, R192). -/
  resets : Nat
  /-- TIMER_REQ_ASSERT steps, each one assertion of REQ (rule R182). -/
  requests : Nat
  /-- S_EXTEND steps of the schedule handler, where CTL_EXTEND is (rule R254). -/
  extensions : Nat
  deriving DecidableEq, Repr

/-- Nothing counted. -/
def Tally.zero : Tally := ⟨0, 0, 0, 0⟩

/-- The count after a step that takes `op` from state `s`. -/
def Tally.add (c : Tally) (s : State) (op : Option Instr) : Tally where
  transfers := c.transfers + (op == some .dmaAXfer).toNat
  resets := c.resets + (op == some .dmaBXfer).toNat
  requests := c.requests + (op == some .timerReqAssert).toNat
  extensions := c.extensions + (op == some .schedIrq && s.schedPc == .extend).toNat

/-- A stretch of a run from `s` to `t` in which the engine stays WRITING, so that no CTL_STOP and no fresh start falls
in it, with what it counts. -/
inductive Stretch (s : State) : Tally → State → Prop where
  | here : s.engine = .writing → Stretch s .zero s
  | next {c : Tally} {u t : State} : Stretch s c u → step u = .next t → t.engine = .writing →
      Stretch s (c.add u (takenOp u)) t

/-- The `OUTW` events of a trace (rule R69). -/
def outwCount (trace : List Event) : Nat :=
  trace.countP fun
    | .outw _ => true
    | _ => false

/-- The `REQ(1)` events of a trace (rule R69). -/
def reqCount (trace : List Event) : Nat := trace.countP fun e => e == .req true

/-! ### Schedules and fairness -/

/-- An unending course of the block: its states, and the operation taken at each moment. `none`: no agent of the block,
the PEER or the HOST takes an operation there. A written run is finite, so this is not made from `State.run`. -/
structure Schedule where
  state : Nat → State
  op : Nat → Option Instr

/-- What may come between two states where no operation is taken: nothing, a refusal of rule R118 or R119, or the host
filling its memory (rule R81). -/
def Between (s t : State) : Prop :=
  t = s ∨ (∃ reason, t = refusedWith s reason) ∨ ∃ addr b, t = s.hostStore addr b

/-- Every moment of the schedule is a step of the rules. -/
def Schedule.Valid (r : Schedule) : Prop :=
  ∀ n, match r.op n with
    | some i => i.wellFormed = true ∧ exec i (r.state n) = .next (r.state (n + 1))
    | none => Between (r.state n) (r.state (n + 1))

/-- The operations to which rule R277 gives fairness: the two handlers' steps and the hardware's, the timer's and the
DMA channels'. The PEER and the HOST get none, nor does the poll of the HOST's own wait. -/
def fairOps : List Instr := [.dataIrq, .schedIrq, .timerReqAssert, .dmaAFetch, .dmaAXfer, .dmaBXfer]

/-- Weak fairness (rule R277; decision D37): a step of `fairOps` that stays enabled is eventually taken. -/
def Schedule.WeaklyFair (r : Schedule) : Prop :=
  ∀ i ∈ fairOps, ∀ n, (∀ m, n ≤ m → enabled i (r.state m) = true) → ∃ m, n ≤ m ∧ r.op m = some i

/-! ### The data handler run to its return -/

/-- `k` steps of the data handler with no other agent's step between them (rule R247). -/
def dataRun : Nat → State → Host.Outcome State Fault Refusal
  | 0, s => .next s
  | k + 1, s =>
    match exec .dataIrq s with
    | .next t => dataRun k t
    | .fault f => .fault f
    | .refused r => .refused r

end Sys2Proof.Safety
end

