-- ==== Sys2Proof/Certificates/Slice0/Obligations.lean ====
section
/-! DEFINITION. The statements for the provers. Titles, texts, bases and citations stand in OBLIGATIONS.json.
Where a rule gives an operation no step (rule R25), the model answers with the fault `notEnabled`: that form is the
model's choice (log entry 10). -/

open Sys2Proof Sys2Proof.Machine Sys2Proof.Safety

/-! ### Encoding and steps (30_encoding.md) -/

/-- Decoding an encoded operation gives it back, with every operand at every value, whatever follows it. -/
def Obligations.DecodeEncodeRoundTrip : Prop :=
  ∀ (i : Instr) (rest : List Byte), decode (encode i ++ rest) = .op i rest

/-- Every operation has one encoding: bytes that decode to it are its own bytes, then the rest. -/
def Obligations.EveryOperationHasOneEncoding : Prop :=
  ∀ (bytes rest : List Byte) (i : Instr), decode bytes = .op i rest → bytes = encode i ++ rest

/-- Rule R118: exactly the listed `OPC` values are reserved, and a reserved word is a refusal step. The model's choice: the
step uses up one issuer (log entry 6) and is taken also while the block is halted (log entry 20). -/
def Obligations.ReservedOpcodesRefused : Prop :=
  (∀ (opc : Byte) (t : List Byte), decode (opc :: t) = .reserved opc t ↔
    (opc = 0x00 ∨ opc = 0x07 ∨ (0x0A ≤ opc ∧ opc ≤ 0x0F) ∨ (0x12 ≤ opc ∧ opc ≤ 0x17) ∨
      (0x1C ≤ opc ∧ opc ≤ 0x1F) ∨ (0x22 ≤ opc ∧ opc ≤ 0x2F) ∨ 0x3A ≤ opc)) ∧
  (∀ (s : State) (opc : Byte) (t : List Byte), runOk s.run = true → decode s.run = .reserved opc t →
    step s = .next (refusedWith { s with run := t, issuers := s.issuers.tail } .reservedOpcode))

/-- Rule R119: decoding is total over the `OPC` values; an internal opcode as a step of its own, and an operation
issued by another agent than its own, are refusal steps. The model's choice: who issues an operation, one issuer for
each (log entry 6); the refusals also while the block is halted (log entry 20); an internal opcode is refused as such
whoever issues it (log entry 31). -/
def Obligations.InternalAndWrongAgentRefused : Prop :=
  (∀ (opc : Byte) (t : List Byte), decode (opc :: t) = .reserved opc t ∨
    (∃ i rest, decode (opc :: t) = .op i rest ∧ i.opc = opc) ∨
    (decode (opc :: t) = .truncated ∧ t.length < 4 * operandWords opc)) ∧
  (∀ (s : State) (i : Instr) (rest : List Byte), runOk s.run = true → decode s.run = .op i rest →
    i.format = .i →
    step s = .next (refusedWith { s with run := rest, issuers := s.issuers.tail } .internalOpcode)) ∧
  (∀ (s : State) (i : Instr) (rest : List Byte) (who : Agent), runOk s.run = true → decode s.run = .op i rest →
    i.format ≠ .i → s.issuers.head? = some (some who) → i.agent ≠ some who →
    step s = .next (refusedWith { s with run := rest, issuers := s.issuers.tail } .wrongAgent))

/-- Words of rules R116 and R122 and of 95_test_vectors.md section 3.3, one or more of each family and format. -/
def Obligations.SampleWordsDecode : Prop :=
  decode [0x02, 0x00, 0x10, 0x00, 0x00, 0x04, 0x00, 0x00, 0x00, 0x00, 0x00, 0x00, 0x00] =
    .op (.startWrite 0x1000 4 0) [] ∧
  decode [0x09, 0x88, 0x13, 0x00, 0x00] = .op (.clockTick 5000) [] ∧
  decode [0x05, 0xFF, 0xFF, 0xFF, 0xFF] = .op (.isWriteFinished 0xFFFFFFFF) [] ∧
  decode [0x04, 0x01, 0x00, 0x00, 0x00] = .op (.finishWrite 1) [] ∧
  decode [0x08, 0x02, 0x00, 0x00, 0x00] = .op (.setCancel 2) [] ∧
  decode [0x1A, 0x11] = .op .dmaAXfer [0x11] ∧
  decode [0x20] = .op .dataIrq [] ∧
  decode [0x36] = .op .dmaARestart [] ∧
  decode [0x02, 0x00, 0x10, 0x00] = .truncated

/-- Rule R122: the bytes are a run exactly where they are a concatenation of whole operations and reserved words. -/
def Obligations.RunOkIffWholeOperations : Prop :=
  ∀ bytes : List Byte, runOk bytes = true ↔
    ∃ items : List (Instr ⊕ Byte), (∀ b, Sum.inr b ∈ items → decode [b] = .reserved b []) ∧
      bytes = items.flatMap fun x =>
        match x with
        | .inl i => encode i
        | .inr b => [b]

/-- A run cut inside an operation is no run and gives no step (rule R122, decision D48); at the end of the run there is
no operation to take (log entry 5, the model's choice). -/
def Obligations.NoStepWithoutAnOperation : Prop :=
  (∀ s : State, runOk s.run = false → step s = .refused .malformedRun) ∧
  (∀ s : State, s.run = [] → step s = .refused .endOfRun)

/-- A step runs the decoded operation, with its bytes and one issuer taken from the written run first. -/
def Obligations.StepRunsDecodedOperation : Prop :=
  ∀ (s : State) (i : Instr) (rest : List Byte), runOk s.run = true → decode s.run = .op i rest →
    i.wellFormed = true →
    (s.issuers.head? = none ∨ s.issuers.head? = some none ∨ s.issuers.head? = some i.agent) →
    step s = exec i { s with run := rest, issuers := s.issuers.tail }

/-- Rule R120: reading the text form of an operation gives the operation back, with every operand at every value. -/
def Obligations.TextRoundTrip : Prop :=
  ∀ i : Instr, readLine (render i) = some (.op i)

/-! ### Reset (70_reset_and_hazards.md) -/

/-- Rule R311: every element at the value the rule gives it, and the register words. -/
def Obligations.ResetValues : Prop :=
  (State.reset.mainPc = .ready ∧ State.reset.dataPc = .off ∧ State.reset.schedPc = .off ∧
    State.reset.engine = .idle) ∧
  (State.reset.appBuf = 0 ∧ State.reset.bytesApp = 0 ∧ State.reset.bytesDma = 0 ∧ State.reset.scheduledDma = 0 ∧
    State.reset.dmaIdx = 0 ∧ State.reset.dmaFillto = 0 ∧ State.reset.incompleteBuf = false) ∧
  (State.reset.nextValid = false ∧ State.reset.nextAppBuf = 0 ∧ State.reset.nextAppBytes = 0 ∧
    State.reset.nowMs = 0) ∧
  (State.reset.aEn = false ∧ State.reset.aFetch = 0 ∧ State.reset.aXfer = 0 ∧ State.reset.pfq = [] ∧
    State.reset.htA = false ∧ State.reset.tcA = false ∧ State.reset.aReq = false) ∧
  (State.reset.bEn = false ∧ State.reset.bCnt = 0 ∧ State.reset.tcB = false ∧ State.reset.bReq = false) ∧
  (State.reset.timEn = false ∧ State.reset.timPhase = .off ∧ State.reset.req = false ∧ State.reset.ack = false ∧
    State.reset.gpioMode = .plain ∧ State.reset.dataDriven = false) ∧
  (State.reset.irqMask = false ∧ State.reset.aHtie = false ∧ State.reset.aTcie = false ∧
    State.reset.bTcie = false ∧ State.reset.dataEn = false ∧ State.reset.schedEn = false) ∧
  (State.reset.configured = false ∧ State.reset.halted = false ∧ State.reset.reqLost = false ∧
    State.reset.refused = false ∧ State.reset.overrunSeen = false ∧ State.reset.stallSeen = false ∧
    State.reset.log = [] ∧ State.reset.trace = [] ∧ State.reset.poisonOut = 0) ∧
  (∀ n ∈ [0x00, 0x01, 0x02, 0x03, 0x04, 0x05, 0x06, 0x07, 0x08, 0x11, 0x15, 0x16, 0x17, 0x21, 0x23, 0x30, 0x31,
      0x32, 0x39, 0x40, 0x41, 0x48], State.reset.register n = some 0) ∧
  State.reset.register 0x10 = some 0x52 ∧ State.reset.register 0x20 = some 0x40 ∧
  State.reset.register 0x22 = some State.reset.params.timerEgrUpdate.toNat ∧
  State.reset.register 0x13 = some State.reset.params.n

/-- The reset state meets every invariant that the later statements keep. -/
def Obligations.ResetMeetsInvariants : Prop :=
  ShapeInv .reset ∧ SessionInv .reset ∧ IdleInv .reset ∧ ControlInv .reset ∧ FillInv .reset ∧ FetchInv .reset ∧
    CountInv .reset ∧ OccupancyInv .reset ∧ HandshakeInv .reset

/-! ### Host commands (40_host_commands.md) -/

/-- Rules R141 and R312: INIT configures the block once, a second INIT is refused, and the state after power-on reset and
INIT. -/
def Obligations.InitConfiguresOnce : Prop :=
  encode .init = [0x01] ∧
  (∀ s : State, HostReady s →
    (s.configured = false → exec .init s = .next
      { s with
        aHtie := true
        aTcie := true
        bTcie := true
        dataEn := true
        schedEn := true
        aEn := false
        bEn := false
        timEn := false
        timPhase := .off
        req := false
        gpioMode := .plain
        dataDriven := false
        configured := true }) ∧
    (s.configured = true → exec .init s = .next (refusedWith s .initTwice))) ∧
  exec .init State.reset = .next
    { State.reset with
      configured := true, aHtie := true, aTcie := true, bTcie := true, dataEn := true, schedEn := true } ∧
  ∀ t, exec .init State.reset = .next t →
    t.register 0x10 = some 0x5E ∧ t.register 0x20 = some 0x48 ∧ t.register 0x40 = some 0x6 ∧
      t.register 0x00 = some 0x08

/-- Rule R140: the command port. A blocked caller is refused, and so is every command but INIT before INIT; a command
has no step while a handler is active or the block is halted. -/
def Obligations.CommandPort : Prop :=
  ∀ (i : Instr) (s : State), isHostCommand i = true →
    (s.halted = false → s.dataPc = .off → s.schedPc = .off → s.mainPc ≠ .ready →
      exec i s = .next (refusedWith s .callerBlocked)) ∧
    (s.halted = false → s.mainPc = .ready → (s.dataPc ≠ .off ∨ s.schedPc ≠ .off) →
      exec i s = .fault (.notEnabled .host)) ∧
    (s.halted = true → exec i s = .fault (.notEnabled .host)) ∧
    (HostReady s → s.configured = false → i ≠ .init → exec i s = .next (refusedWith s .notConfigured))

/-- Rule R143: a zero-length START_WRITE changes nothing, in any engine state. -/
def Obligations.StartWriteZeroLength : Prop :=
  ∀ (s : State) (ptr cref : Word), CommandReady s → exec (.startWrite ptr 0 cref) s = .next s

/-- Rules R144 and R218: the fresh start primes the ring, arms both channels and the timer, and changes nothing else.
START_WRITE on an IDLE engine is that fresh start. -/
def Obligations.FreshStartPrimesAndArms : Prop :=
  ∀ (s : State) (ptr len cref : Word), s.params.wf = true → s.ring.length = s.params.n →
    ptr.toNat + len.toNat ≤ 2 ^ 32 →
    ∃ ring, RingFilled s.params s.mem ptr.toNat 0 (min len.toNat s.params.n) s.params.n s.ring ring ∧
      startFresh ptr len s = .go (freshSession s ptr len (min len.toNat s.params.n) ring) ∧
      (CommandReady s → s.engine = .idle → len ≠ 0 →
        exec (.startWrite ptr len cref) s = .next (freshSession s ptr len (min len.toNat s.params.n) ring))

/-- Rule R146: while WRITING, a START_WRITE merges with a queued buffer it continues and else blocks; with nothing
queued it merges into the active buffer it continues and else is queued. -/
def Obligations.StartWriteMergesQueuesOrBlocks : Prop :=
  ∀ (s : State) (ptr len cref : Word), CommandReady s → s.engine = .writing → len ≠ 0 →
    ptr.toNat + len.toNat ≤ 2 ^ 32 →
    (s.nextValid = true → ptr.toNat = s.nextAppBuf.toNat + s.nextAppBytes.toNat →
      s.nextAppBytes.toNat + len.toNat < 2 ^ 32 →
      exec (.startWrite ptr len cref) s = .next
        { s with irqMask := false, nextAppBytes := s.nextAppBytes + len }) ∧
    (s.nextValid = true → ptr.toNat ≠ s.nextAppBuf.toNat + s.nextAppBytes.toNat →
      exec (.startWrite ptr len cref) s = .next
        { s with irqMask := false, mainPc := .waitStart ptr len cref s.nowMs }) ∧
    (s.nextValid = false → ptr.toNat = s.appBuf.toNat + s.bytesApp.toNat →
      s.bytesApp.toNat + len.toNat < 2 ^ 32 →
      exec (.startWrite ptr len cref) s = .next { s with irqMask := false, bytesApp := s.bytesApp + len }) ∧
    (s.nextValid = false → ptr.toNat ≠ s.appBuf.toNat + s.bytesApp.toNat →
      exec (.startWrite ptr len cref) s = .next
        { s with irqMask := false, nextAppBuf := ptr, nextAppBytes := len, nextValid := true })

/-- Rule R145: a buffer that would wrap AM, and a merge whose length would not fit in 32 bits, are refused. -/
def Obligations.StartWriteRefusals : Prop :=
  ∀ (s : State) (ptr len cref : Word), CommandReady s → len ≠ 0 →
    (2 ^ 32 < ptr.toNat + len.toNat →
      exec (.startWrite ptr len cref) s = .next (refusedWith s .bufferWraps)) ∧
    (ptr.toNat + len.toNat ≤ 2 ^ 32 → s.engine = .writing → s.nextValid = true →
      ptr.toNat = s.nextAppBuf.toNat + s.nextAppBytes.toNat → 2 ^ 32 ≤ s.nextAppBytes.toNat + len.toNat →
      exec (.startWrite ptr len cref) s = .next (refusedWith { s with irqMask := false } .lengthOverflow)) ∧
    (ptr.toNat + len.toNat ≤ 2 ^ 32 → s.engine = .writing → s.nextValid = false →
      ptr.toNat = s.appBuf.toNat + s.bytesApp.toNat → 2 ^ 32 ≤ s.bytesApp.toNat + len.toNat →
      exec (.startWrite ptr len cref) s = .next (refusedWith { s with irqMask := false } .lengthOverflow))

/-- Rule R147: STOP_WRITE is the masked stop, in any engine state, and is refused before INIT. -/
def Obligations.StopWriteStops : Prop :=
  encode .stopWrite = [0x03] ∧
  ∀ s : State, HostReady s →
    (s.configured = false → exec .stopWrite s = .next (refusedWith s .notConfigured)) ∧
    (s.configured = true → exec .stopWrite s = .next { stopped s with irqMask := false })

/-- Rule R148: FINISH_WRITE returns at once on an IDLE engine, even where its cell is set, and begins a wait otherwise;
it is refused before INIT. -/
def Obligations.FinishWriteWaits : Prop :=
  ∀ (s : State) (cref : Word), encode (.finishWrite cref) = 0x04 :: wordBytes cref ∧
    (HostReady s → s.configured = false → exec (.finishWrite cref) s = .next (refusedWith s .notConfigured)) ∧
    (CommandReady s → s.engine = .idle → exec (.finishWrite cref) s = .next s) ∧
    (CommandReady s → s.engine = .writing →
      exec (.finishWrite cref) s = .next { s with mainPc := .waitFinish cref s.nowMs })

/-- Rule R149: the four ways a poll can go, in the order of its tests: the cell, completion, the timeout, and spinning
on. The completion of a blocked START_WRITE is the fresh start of its buffer. Where no wait is on, a handler is active or
the block is halted, there is no step. -/
def Obligations.WaitPollExits : Prop :=
  encode .waitPoll = [0x06] ∧
  (∀ s : State, (s.mainPc = .ready ∨ s.dataPc ≠ .off ∨ s.schedPc ≠ .off ∨ s.halted = true) →
    exec .waitPoll s = .fault (.notEnabled .main)) ∧
  ∀ (s : State) (pc : MainPc) (cref t0 : Word), PollReady s pc →
    (pc = .waitFinish cref t0 ∨ ∃ ptr len, pc = .waitStart ptr len cref t0) →
    (cref.toNat ∈ s.cells → exec .waitPoll s = .next { stopped s with irqMask := false, mainPc := .ready }) ∧
    (cref.toNat ∉ s.cells → s.engine = .idle → pc = .waitFinish cref t0 →
      exec .waitPoll s = .next { s with mainPc := .ready }) ∧
    (∀ ptr len, cref.toNat ∉ s.cells → s.engine = .idle → pc = .waitStart ptr len cref t0 →
      s.params.wf = true → s.ring.length = s.params.n → ptr.toNat + len.toNat ≤ 2 ^ 32 →
      ∃ ring, RingFilled s.params s.mem ptr.toNat 0 (min len.toNat s.params.n) s.params.n s.ring ring ∧
        exec .waitPoll s = .next
          { freshSession s ptr len (min len.toNat s.params.n) ring with mainPc := .ready }) ∧
    (cref.toNat ∉ s.cells → s.engine = .writing → s.params.stallTimeoutMs ≤ (s.nowMs - t0).toNat →
      ∃ cells, (∀ n : Nat, n ∈ cells ↔ n = cref.toNat ∨ n ∈ s.cells) ∧
        exec .waitPoll s = .next
          { stopped (recorded { s with cells := cells } .stall .stallTimeout) with
            irqMask := false, mainPc := .ready }) ∧
    (cref.toNat ∉ s.cells → s.engine = .writing → (s.nowMs - t0).toNat < s.params.stallTimeoutMs →
      exec .waitPoll s = .next s)

/-- Rule R150: IS_WRITE_FINISHED answers true exactly where the engine is IDLE or the address lies outside both
half-open ranges, and leaves nothing changed but the trace and the mask, which is clear after it; it is refused before
INIT. -/
def Obligations.IsWriteFinishedAnswers : Prop :=
  ∀ (s : State) (ptr : Word), encode (.isWriteFinished ptr) = 0x05 :: wordBytes ptr ∧
    (HostReady s → s.configured = false →
      exec (.isWriteFinished ptr) s = .next (refusedWith s .notConfigured)) ∧
    (CommandReady s → exec (.isWriteFinished ptr) s = .next
      { s with
        irqMask := false
        trace := s.trace ++ [.result (decide (s.engine = .idle ∨
          (¬ (s.appBuf.toNat ≤ ptr.toNat ∧ ptr.toNat < s.appBuf.toNat + s.bytesApp.toNat) ∧
            ¬ (s.nextValid = true ∧ s.nextAppBuf.toNat ≤ ptr.toNat ∧
              ptr.toNat < s.nextAppBuf.toNat + s.nextAppBytes.toNat))))] })

/-- Rules R151 and R152: in every state SET_CANCEL sets its cell and no other, and CLOCK_TICK advances the clock modulo
2^32, 0 ms being a no-op. -/
def Obligations.HostEnvironmentSteps : Prop :=
  (∀ (s : State) (cref : Word), encode (.setCancel cref) = 0x08 :: wordBytes cref ∧
    ∃ cells, exec (.setCancel cref) s = .next { s with cells := cells } ∧
      ∀ n : Nat, n ∈ cells ↔ n = cref.toNat ∨ n ∈ s.cells) ∧
  (∀ (s : State) (ms : Word), encode (.clockTick ms) = 0x09 :: wordBytes ms ∧
    ∃ t, exec (.clockTick ms) s = .next t ∧ t = { s with nowMs := t.nowMs } ∧
      t.nowMs.toNat = (s.nowMs.toNat + ms.toNat) % 2 ^ 32) ∧
  ∀ s : State, exec (.clockTick 0) s = .next s

/-! ### Handshake (41_handshake.md) -/

/-- Rule R182: TIMER_REQ_ASSERT asserts REQ once per priming. -/
def Obligations.TimerAssertsRequest : Prop :=
  encode .timerReqAssert = [0x18] ∧
  ∀ s : State,
    (s.timEn = true → s.timPhase = .primed → s.halted = false →
      exec .timerReqAssert s = .next
        { s with req := true, timPhase := .reqOn, trace := s.trace ++ [.req true] }) ∧
    (¬ (s.timEn = true ∧ s.timPhase = .primed ∧ s.halted = false) →
      exec .timerReqAssert s = .fault (.notEnabled .timer))

/-- Rule R183: ACK asserting releases REQ and latches DMA-A's request, in every phase; a request already latched is
lost and marked; with the timer disabled or the block halted only `ack` changes. -/
def Obligations.AckAssertLatchesRequestA : Prop :=
  encode .ackAssert = [0x10] ∧
  ∀ s : State,
    (s.ack = true → exec .ackAssert s = .fault (.notEnabled .peer)) ∧
    (s.ack = false → (s.halted = true ∨ s.timEn = false) → exec .ackAssert s = .next { s with ack := true }) ∧
    (s.ack = false → s.halted = false → s.timEn = true → s.aReq = false →
      exec .ackAssert s = .next
        { s with
          ack := true
          req := false
          aReq := true
          timPhase := .acked
          trace := s.trace ++ if s.req = true then [.req false] else [] }) ∧
    (s.ack = false → s.halted = false → s.timEn = true → s.aReq = true →
      exec .ackAssert s = .next
        { s with
          ack := true
          req := false
          reqLost := true
          timPhase := .acked
          trace := s.trace ++ (if s.req = true then [.req false] else []) ++ [.err (.reqLost .a)] })

/-- Rules R187 and R188: ACK releasing latches DMA-B's request; a request already latched is lost and marked; with the
timer disabled or the block halted only `ack` changes. -/
def Obligations.AckReleaseLatchesRequestB : Prop :=
  encode .ackRelease = [0x11] ∧
  ∀ s : State,
    (s.ack = false → exec .ackRelease s = .fault (.notEnabled .peer)) ∧
    (s.ack = true → (s.halted = true ∨ s.timEn = false) → exec .ackRelease s = .next { s with ack := false }) ∧
    (s.ack = true → s.halted = false → s.timEn = true → s.bReq = false →
      exec .ackRelease s = .next { s with ack := false, bReq := true, timPhase := .released }) ∧
    (s.ack = true → s.halted = false → s.timEn = true → s.bReq = true →
      exec .ackRelease s = .next
        { s with
          ack := false
          reqLost := true
          timPhase := .released
          trace := s.trace ++ [.err (.reqLost .b)] })

/-- Rule R189: DMA_A_FETCH reads the slot of `a_fetch` into the queue, while the queue is below its depth. -/
def Obligations.DmaAFetchPrefetches : Prop :=
  encode .dmaAFetch = [0x19] ∧
  ∀ s : State, s.params.wf = true →
    (s.aEn = true → s.pfq.length < s.params.prefetchDepth → s.halted = false →
      exec .dmaAFetch s = .next
        { s with
          pfq := s.pfq ++ [s.ring.getD (s.aFetch.toNat % s.params.n) 0]
          aFetch := s.aFetch + 1 }) ∧
    (¬ (s.aEn = true ∧ s.pfq.length < s.params.prefetchDepth ∧ s.halted = false) →
      exec .dmaAFetch s = .fault (.notEnabled .dmaA))

/-- Rule R190: DMA_A_XFER delivers the oldest prefetched image, or the ring's at `a_fetch`, and counts; the half and
full events come at `a_xfer mod N = HALF` and `= 0`. -/
def Obligations.DmaAXferDelivers : Prop :=
  encode .dmaAXfer = [0x1A] ∧
  (∀ (s : State) (img : Image) (queue : List Image) (fetched : Word), s.params.wf = true →
    s.aReq = true → s.aEn = true → s.halted = false →
    ((s.pfq = img :: queue ∧ fetched = s.aFetch) ∨
      (s.pfq = [] ∧ queue = [] ∧ img = s.ring.getD (s.aFetch.toNat % s.params.n) 0 ∧ fetched = s.aFetch + 1)) →
    exec .dmaAXfer s = .next
      { s with
        pfq := queue
        aFetch := fetched
        out := img
        trace := s.trace ++ [.outw img]
        poisonOut := if img = s.params.poison then s.poisonOut + 1 else s.poisonOut
        aReq := false
        aXfer := s.aXfer + 1
        htA := s.htA || decide ((s.aXfer + 1).toNat % s.params.n = s.params.half)
        tcA := s.tcA || decide ((s.aXfer + 1).toNat % s.params.n = 0) }) ∧
  ∀ s : State, ¬ (s.aReq = true ∧ s.aEn = true ∧ s.halted = false) →
    exec .dmaAXfer s = .fault (.notEnabled .dmaA)

/-- Rule R191: DMA_B_XFER resets the timer and counts down, and has no step while DMA-A's request is latched or the
count is exhausted. -/
def Obligations.DmaBXferResetsTimer : Prop :=
  encode .dmaBXfer = [0x1B] ∧
  ∀ s : State,
    (s.bReq = true → s.bEn = true → s.bCnt ≠ 0 → s.aReq = false → s.halted = false →
      exec .dmaBXfer s = .next
        { s with
          timPhase := if s.timEn = true then .primed else s.timPhase
          bReq := false
          bCnt := s.bCnt - 1
          tcB := s.tcB || decide (s.bCnt.toNat = 1) }) ∧
    (¬ (s.bReq = true ∧ s.bEn = true ∧ s.bCnt ≠ 0 ∧ s.aReq = false ∧ s.halted = false) →
      exec .dmaBXfer s = .fault (.notEnabled .dmaB))

/-- The core ordering property (rules R29, R191, R322): while the copy of a cycle is owed, no operation primes the
timer. -/
def Obligations.NoTimerResetWhileCopyOwed : Prop :=
  ∀ (i : Instr) (s t : State), i.wellFormed = true → s.engine = .writing → s.aReq = true →
    exec i s = .next t → t.timPhase = .primed → s.timPhase = .primed

/-! ### Interrupt handlers (43_interrupts.md) -/

/-- Rule R242: the data handler's entry: an overrun stops the engine and is recorded; otherwise the pending event is
consumed and the fill boundary advances by half a ring. -/
def Obligations.DataEntryStep : Prop :=
  ∀ s : State, s.dataPc = .off → s.halted = false → s.irqMask = false → s.dataEn = true → s.aHtie = true →
    s.aTcie = true →
    (s.htA = true → s.tcA = true →
      exec .dataIrq s = .next (stopped (recorded s .overrun .overrun))) ∧
    (s.htA ≠ s.tcA →
      exec .dataIrq s = .next
        { s with
          htA := false
          tcA := false
          dmaFillto := s.dmaFillto + BitVec.ofNat 32 s.params.half
          dataPc := if s.incompleteBuf = true then .finish else .refill1 })

/-- Rules R243 and R245: the byte steps, the end of the byte loop, its accounting checks, and the poison steps of the
data handler's two REFILLs. That the steps name their Misuse as a whole REFILL does, `refill_avail` or `refill_room`, is
the model's choice (log entry 16). -/
def Obligations.DataRefillSteps : Prop :=
  (∀ (s : State) (pc after : DataPc), (pc, after) = (.refill1, .poison1) ∨ (pc, after) = (.refill2, .poison2) →
    s.dataPc = pc → s.halted = false → s.params.wf = true →
    ((s.bytesApp.toNat < s.bytesDma.toNat ∨ s.params.n < (s.dmaFillto - s.dmaIdx).toNat) →
      exec .dataIrq s = .next
        (haltedAt s (if s.bytesApp.toNat < s.bytesDma.toNat then .refillAvail else .refillRoom))) ∧
    (s.bytesDma.toNat < s.bytesApp.toNat → s.dmaIdx ≠ s.dmaFillto →
      (s.dmaFillto - s.dmaIdx).toNat ≤ s.params.n → s.appBuf.toNat + s.bytesDma.toNat < 2 ^ 32 →
      exec .dataIrq s = .next
        { s with
          ring := s.ring.set (s.dmaIdx.toNat % s.params.n)
            (s.params.translate (s.mem.read (s.appBuf.toNat + s.bytesDma.toNat)))
          dmaIdx := s.dmaIdx + 1
          bytesDma := s.bytesDma + 1 }) ∧
    (s.bytesDma.toNat ≤ s.bytesApp.toNat → (s.dmaFillto - s.dmaIdx).toNat ≤ s.params.n →
      (s.bytesDma = s.bytesApp ∨ s.dmaIdx = s.dmaFillto) →
      exec .dataIrq s = .next { s with dataPc := after })) ∧
  (∀ (s : State) (pc after : DataPc), (pc, after) = (.poison1, .cnb) ∨ (pc, after) = (.poison2, .finish) →
    s.dataPc = pc → s.halted = false → s.params.wf = true →
    exec .dataIrq s = .next
      { s with
        ring := if s.dmaIdx = s.dmaFillto then s.ring
          else s.ring.set (s.dmaIdx.toNat % s.params.n) s.params.poison
        dataPc := after })

/-- Rule R244: the splice test and swap of the data handler. -/
def Obligations.DataSpliceStep : Prop :=
  ∀ s : State, s.dataPc = .cnb → s.halted = false →
    (s.bytesDma = s.bytesApp → s.nextValid = true → s.bytesDma.toNat < s.scheduledDma.toNat →
      exec .dataIrq s = .next (haltedAt s .spliceSched)) ∧
    (s.bytesDma = s.bytesApp → s.nextValid = true → s.scheduledDma = s.bytesDma →
      exec .dataIrq s = .next
        { s with
          appBuf := s.nextAppBuf
          bytesApp := s.nextAppBytes
          bytesDma := 0
          scheduledDma := 0
          nextValid := false
          nextAppBuf := 0
          nextAppBytes := 0
          dataPc := .refill2 }) ∧
    ((s.bytesDma ≠ s.bytesApp ∨ s.nextValid = false ∨ s.scheduledDma.toNat < s.bytesDma.toNat) →
      exec .dataIrq s = .next { s with dataPc := .finish })

/-- Rule R246: D_END flags starvation, never clears the flag, and returns. -/
def Obligations.DataEndStep : Prop :=
  ∀ s : State, s.dataPc = .finish → s.halted = false →
    exec .dataIrq s = .next
      { s with
        incompleteBuf := s.incompleteBuf || decide (s.dmaIdx ≠ s.dmaFillto)
        dataPc := .off }

/-- Rule R251: the schedule handler's entry stops the engine where there is no new data, and else goes to the restart
or to the extension. -/
def Obligations.SchedEntryDecides : Prop :=
  ∀ s : State, s.dataPc = .off → s.schedPc = .off → s.halted = false → s.irqMask = false → s.schedEn = true →
    s.bTcie = true → s.tcB = true → s.htA = false → s.tcA = false →
    (s.bytesApp.toNat ≤ s.scheduledDma.toNat → s.nextValid = false →
      exec .schedIrq s = .next (stopped s)) ∧
    ((s.scheduledDma.toNat < s.bytesApp.toNat ∨ s.nextValid = true) →
      exec .schedIrq s = .next
        { s with tcB := false, schedPc := if s.incompleteBuf = true then .restart else .extend })

/-- Rules R252 and R253: S_RESTART on a stopped engine only returns; else it is the masked DMA_A_RESTART. -/
def Obligations.SchedRestartStep : Prop :=
  ∀ s : State, s.dataPc = .off → s.schedPc = .restart → s.halted = false → s.htA = false → s.tcA = false →
    (s.engine = .idle → exec .schedIrq s = .next { s with schedPc := .off }) ∧
    (s.engine = .writing → s.params.wf = true → SessionInv s →
      ∃ t, exec .dmaARestart s = .next t ∧ t.halted = false ∧
        exec .schedIrq s = .next { t with irqMask := false, schedPc := .extend })

/-- Rules R253, R254 and R255: S_EXTEND on a stopped engine only returns; else it extends DMA-B's count to the end of
the active buffer; a zero extension, and a count still running (rule R221), halt the block. -/
def Obligations.SchedExtendStep : Prop :=
  ∀ s : State, s.dataPc = .off → s.schedPc = .extend → s.halted = false → s.htA = false → s.tcA = false →
    (s.engine = .idle → exec .schedIrq s = .next { s with schedPc := .off }) ∧
    (s.engine = .writing → s.scheduledDma.toNat < s.bytesApp.toNat → s.bCnt = 0 →
      exec .schedIrq s = .next
        { s with
          bCnt := s.bytesApp - s.scheduledDma
          tcB := false
          bEn := true
          scheduledDma := s.bytesApp
          schedPc := .off }) ∧
    (s.engine = .writing → s.scheduledDma = s.bytesApp → exec .schedIrq s = .next (haltedAt s .extendZero)) ∧
    (s.engine = .writing → s.scheduledDma.toNat < s.bytesApp.toNat → s.bCnt ≠ 0 →
      exec .schedIrq s = .next (haltedAt s .extendBusy))

/-- Rules R256 and R278: the context priority. No SCHED step comes while the data handler is active or its enabled
source is pending; no main-line step comes while a handler is active; the data handler's entry waits for nothing but
its own label. -/
def Obligations.HandlerPriority : Prop :=
  (∀ s : State, (s.dataPc ≠ .off ∨
      (((s.htA = true ∧ s.aHtie = true) ∨ (s.tcA = true ∧ s.aTcie = true)) ∧ s.dataEn = true)) →
    exec .schedIrq s = .fault (.notEnabled .sched)) ∧
  (∀ s : State, (s.dataPc ≠ .off ∨ s.schedPc ≠ .off) → exec .waitPoll s = .fault (.notEnabled .main)) ∧
  (∀ s : State, s.dataPc = .off → s.halted = false → s.irqMask = false → s.dataEn = true →
    ((s.htA = true ∧ s.aHtie = true) ∨ (s.tcA = true ∧ s.aTcie = true)) →
    ∃ t, exec .dataIrq s = .next t)

/-! ### Procedures (42_refill_control.md) -/

/-- Rules R211, R213 and R214: REFILL's two accounting checks, either of which halts the block with nothing written,
and what REFILL does where they pass: the images, the counters, the one poison slot, every other slot as it was. -/
def Obligations.RefillTranslatesAndGuards : Prop :=
  encode .refill = [0x30] ∧
  (∀ s : State,
    (s.bytesApp.toNat < s.bytesDma.toNat → exec .refill s = .next (haltedAt s .refillAvail)) ∧
    (s.bytesDma.toNat ≤ s.bytesApp.toNat → s.params.n < (s.dmaFillto - s.dmaIdx).toNat →
      exec .refill s = .next (haltedAt s .refillRoom))) ∧
  ∀ s : State, s.params.wf = true → s.ring.length = s.params.n → s.bytesDma.toNat ≤ s.bytesApp.toNat →
    (s.dmaFillto - s.dmaIdx).toNat ≤ s.params.n → s.appBuf.toNat + s.bytesApp.toNat ≤ 2 ^ 32 →
    let room := (s.dmaFillto - s.dmaIdx).toNat
    let k := min (s.bytesApp.toNat - s.bytesDma.toNat) room
    ∃ ring, RingFilled s.params s.mem (s.appBuf.toNat + s.bytesDma.toNat) s.dmaIdx.toNat k room s.ring ring ∧
      exec .refill s = .next
        { s with
          ring := ring
          dmaIdx := s.dmaIdx + BitVec.ofNat 32 k
          bytesDma := s.bytesDma + BitVec.ofNat 32 k }

/-- Rules R215 and R216: the splice, the deferred splice and the splice that halts. -/
def Obligations.CheckNextBufferSplices : Prop :=
  encode .checkNextBuffer = [0x31] ∧
  ∀ s : State,
    (s.bytesDma = s.bytesApp → s.nextValid = true → s.bytesDma.toNat < s.scheduledDma.toNat →
      exec .checkNextBuffer s = .next (haltedAt s .spliceSched)) ∧
    ((s.bytesDma ≠ s.bytesApp ∨ s.nextValid = false ∨ s.scheduledDma.toNat < s.bytesDma.toNat) →
      exec .checkNextBuffer s = .next s) ∧
    (s.bytesDma = s.bytesApp → s.nextValid = true → s.scheduledDma = s.bytesDma → s.params.wf = true →
      s.ring.length = s.params.n → (s.dmaFillto - s.dmaIdx).toNat ≤ s.params.n →
      s.nextAppBuf.toNat + s.nextAppBytes.toNat ≤ 2 ^ 32 →
      let room := (s.dmaFillto - s.dmaIdx).toNat
      let k := min s.nextAppBytes.toNat room
      ∃ ring, RingFilled s.params s.mem s.nextAppBuf.toNat s.dmaIdx.toNat k room s.ring ring ∧
        exec .checkNextBuffer s = .next
          { s with
            appBuf := s.nextAppBuf
            bytesApp := s.nextAppBytes
            bytesDma := BitVec.ofNat 32 k
            scheduledDma := 0
            nextValid := false
            nextAppBuf := 0
            nextAppBytes := 0
            ring := ring
            dmaIdx := s.dmaIdx + BitVec.ofNat 32 k })

/-- Rules R217, R218 and R219: CTL_INIT; CTL_START with any count, and by itself with the count `bytes_app` of its one
caller; CTL_STOP. -/
def Obligations.ControllerConfiguration : Prop :=
  encode .ctlInit = [0x32] ∧ encode .ctlStart = [0x33] ∧ encode .ctlStop = [0x34] ∧
  ∀ s : State,
    exec .ctlInit s = .next
      { s with
        aHtie := true
        aTcie := true
        bTcie := true
        dataEn := true
        schedEn := true
        aEn := false
        bEn := false
        timEn := false
        timPhase := .off
        req := false
        gpioMode := .plain
        dataDriven := false } ∧
    (∀ count, ctlStart count s =
      { s with
        aFetch := 0
        aXfer := 0
        pfq := []
        htA := false
        tcA := false
        aReq := false
        bCnt := count
        tcB := false
        bReq := false
        scheduledDma := count
        timPhase := .primed
        req := false
        gpioMode := .engine
        trace := s.trace ++ [.mode .engine]
        dataDriven := true
        aEn := true
        bEn := true
        timEn := true }) ∧
    exec .ctlStart s = .next (ctlStart s.bytesApp s) ∧
    exec .ctlStop s = .next (stopped s)

/-- Rule R220: CTL_STOP on an IDLE engine changes no state and emits no event. -/
def Obligations.StopOnIdleChangesNothing : Prop :=
  ∀ s : State, s.engine = .idle → IdleInv s →
    exec .ctlStop s = .next s ∧ (CommandReady s → s.irqMask = false → exec .stopWrite s = .next s)

/-- Rule R221: CTL_EXTEND with any count, and by itself with the count `bytes_app - scheduled_dma` of its one caller; a
latched `b_req` is kept. -/
def Obligations.CtlExtendSetsCount : Prop :=
  encode .ctlExtend = [0x35] ∧
  (∀ (s : State) (k : Word),
    (s.bCnt = 0 → ctlExtend k s = .go { s with bCnt := k, tcB := false, bEn := true }) ∧
    (s.bCnt ≠ 0 → ctlExtend k s = .stop (haltedAt s .extendBusy))) ∧
  ∀ s : State, s.scheduledDma.toNat < s.bytesApp.toNat →
    (s.bCnt = 0 → ∃ t, exec .ctlExtend s = .next t ∧ t = { s with bCnt := t.bCnt, tcB := false, bEn := true } ∧
      t.bCnt.toNat = s.bytesApp.toNat - s.scheduledDma.toNat) ∧
    (s.bCnt ≠ 0 → exec .ctlExtend s = .next (haltedAt s .extendBusy))

/-- Rules R222 and R223: DMA_A_RESTART resumes at byte `scheduled_dma` of the active buffer, or at the start of the
queued buffer where the active one is fully scheduled; it keeps a latched `a_req`, DMA-B, the timer and `OUT`. -/
def Obligations.RestartResumesAtScheduled : Prop :=
  encode .dmaARestart = [0x36] ∧
  ∀ s : State, s.params.wf = true → s.ring.length = s.params.n → SessionInv s →
    let n := s.params.n
    (¬ (s.scheduledDma = s.bytesApp ∧ s.nextValid = true) →
      let k := min (s.bytesApp.toNat - s.scheduledDma.toNat) n
      ∃ ring, RingFilled s.params s.mem (s.appBuf.toNat + s.scheduledDma.toNat) 0 k n s.ring ring ∧
        exec .dmaARestart s = .next
          { s with
            ring := ring
            bytesDma := s.scheduledDma + BitVec.ofNat 32 k
            dmaIdx := BitVec.ofNat 32 k
            dmaFillto := BitVec.ofNat 32 n
            incompleteBuf := decide (k ≠ n)
            pfq := []
            aFetch := 0
            aXfer := 0
            htA := false
            tcA := false
            aEn := true }) ∧
    (s.scheduledDma = s.bytesApp → s.nextValid = true →
      let k := min s.nextAppBytes.toNat n
      ∃ ring, RingFilled s.params s.mem s.nextAppBuf.toNat 0 k n s.ring ring ∧
        exec .dmaARestart s = .next
          { s with
            ring := ring
            appBuf := s.nextAppBuf
            bytesApp := s.nextAppBytes
            bytesDma := BitVec.ofNat 32 k
            scheduledDma := 0
            nextValid := false
            nextAppBuf := 0
            nextAppBytes := 0
            dmaIdx := BitVec.ofNat 32 k
            dmaFillto := BitVec.ofNat 32 n
            incompleteBuf := decide (k ≠ n)
            pfq := []
            aFetch := 0
            aXfer := 0
            htA := false
            tcA := false
            aEn := true })

/-- Rules R192, R236 and R237: TIMER_UPDATE, IRQ_MASK and IRQ_UNMASK, and nothing else changed by each. -/
def Obligations.MasksAndTimerUpdate : Prop :=
  encode .irqMask = [0x37] ∧ encode .irqUnmask = [0x38] ∧ encode .timerUpdate = [0x39] ∧
  ∀ s : State, exec .irqMask s = .next { s with irqMask := true } ∧
    exec .irqUnmask s = .next { s with irqMask := false } ∧
    exec .timerUpdate s = .next { s with timPhase := if s.timEn = true then .primed else s.timPhase }

/-! ### The whole machine -/

/-- Rule R25: an operation that is not enabled has no step; the one exception is a HOST command of a blocked caller,
which is refused (rule R140). -/
def Obligations.DisabledOperationsTakeNoStep : Prop :=
  ∀ (i : Instr) (s : State), i.wellFormed = true → enabled i s = false →
    (∃ who, i.agent = some who ∧ exec i s = .fault (.notEnabled who)) ∨
    (isHostCommand i = true ∧ s.mainPc ≠ .ready ∧ s.halted = false ∧
      exec i s = .next (refusedWith s .callerBlocked))

/-- Rules R67 and R272: while the block is halted no agent of it has a step; the PEER's edges, SET_CANCEL and
CLOCK_TICK step and change only the line, the cell or the clock they own. -/
def Obligations.HaltedBlockIsStuck : Prop :=
  ∀ (i : Instr) (s : State), i.wellFormed = true → s.halted = true →
    match i with
    | .ackAssert => s.ack = false → exec i s = .next { s with ack := true }
    | .ackRelease => s.ack = true → exec i s = .next { s with ack := false }
    | .setCancel _ => ∃ cells, exec i s = .next { s with cells := cells }
    | .clockTick ms => exec i s = .next { s with nowMs := s.nowMs + ms }
    | _ => ∃ who, exec i s = .fault (.notEnabled who)

/-- Rules R66, R67 and R69: no step clears a mark, and the log, the trace and the poison count only grow. -/
def Obligations.MarksAndRecordsOnlyGrow : Prop :=
  ∀ s t : State, step s = .next t →
    (s.halted = true → t.halted = true) ∧ (s.reqLost = true → t.reqLost = true) ∧
    (s.refused = true → t.refused = true) ∧ (s.overrunSeen = true → t.overrunSeen = true) ∧
    (s.stallSeen = true → t.stallSeen = true) ∧ s.log <+: t.log ∧ s.trace <+: t.trace ∧
    s.poisonOut ≤ t.poisonOut

/-- Rules R53, R80 and R81: no step writes application memory or the parameters, and only DMA_A_XFER writes `OUT`;
every write of `OUT` is one `OUTW` event of the trace. -/
def Obligations.MemoryReadOnlyAndOutOwned : Prop :=
  (∀ s t : State, step s = .next t → t.mem = s.mem ∧ t.params = s.params) ∧
  (∀ (i : Instr) (s t : State), i.wellFormed = true → exec i s = .next t →
    (i ≠ .dmaAXfer → t.out = s.out ∧ t.poisonOut = s.poisonOut) ∧
    (i = .dmaAXfer → t.trace = s.trace ++ [.outw t.out]))

/-- Rules R32 and R257: which operations move the engine between IDLE and WRITING. -/
def Obligations.EngineStateTransitions : Prop :=
  ∀ (i : Instr) (s t : State), i.wellFormed = true → exec i s = .next t →
    (s.engine = .idle → t.engine = .writing → (∃ ptr len cref, i = .startWrite ptr len cref) ∨ i = .waitPoll) ∧
    (s.engine = .writing → t.engine = .idle →
      i = .stopWrite ∨ i = .waitPoll ∨ i = .dataIrq ∨ i = .schedIrq)

/-- Every step keeps the shape of the state. -/
def Obligations.ShapeKeptByEveryStep : Prop :=
  ∀ s t : State, ShapeInv s → step s = .next t → ShapeInv t

/-- Every step keeps I1, I2 and I6 and the bounds on the buffers, and no step reads outside AM. -/
def Obligations.SessionBoundsKeptByEveryStep : Prop :=
  ∀ s : State, SessionInv s → (∀ t, step s = .next t → SessionInv t) ∧ step s ≠ .fault .addressOutsideMemory

/-- Every step keeps the IDLE invariants. -/
def Obligations.IdleRestKeptByEveryStep : Prop :=
  ∀ s t : State, IdleInv s → step s = .next t → IdleInv t

/-- Every step keeps what WRITING means, and leaves no interrupt mask set. -/
def Obligations.ArmedAndUnmaskedKeptByEveryStep : Prop :=
  ∀ s t : State, ControlInv s → step s = .next t → ControlInv t

/-- Every step keeps I3 and I5 and DMA-B's count at its event. -/
def Obligations.FillFetchCountKeptByEveryStep : Prop :=
  ∀ s t : State, step s = .next t →
    (FillInv s → FillInv t) ∧ (FetchInv s → FetchInv t) ∧ (CountInv s → CountInv t)

/-- Under the invariants, the only Misuse a step can raise is the zero extension of rule R255. -/
def Obligations.MisuseOnlyAtZeroExtension : Prop :=
  ∀ s t : State, s.params.wf = true → SessionInv s → IdleInv s → FillInv s → CountInv s → step s = .next t →
    s.halted = false → t.halted = true →
    s.schedPc = .extend ∧ s.scheduledDma = s.bytesApp ∧ t.trace = s.trace ++ [.err (.misuse .extendZero)]

/-- I4 (rule R68): no entry is written more than one lap ahead of delivery, as long as the exact counts fit in 32
bits. -/
def Obligations.RingNeverOverwritesUndelivered : Prop :=
  ∀ s t : State, s.params.wf = true → OccupancyInv s → s.aXfer.toNat + s.params.n + 1 < 2 ^ 32 →
    step s = .next t →
    OccupancyInv t ∧ (t.engine = .writing → t.halted = false → t.dmaIdx.toNat ≤ t.aXfer.toNat + t.params.n)

/-- H1 (rule R193): a step that keeps the PEER's duties keeps the handshake invariant and loses no request. -/
def Obligations.HandshakeLosesNoRequest : Prop :=
  ∀ s t : State, HandshakeInv s → PeerDuty s t → step s = .next t →
    HandshakeInv t ∧ (s.reqLost = false → t.reqLost = false)

/-- H2, H3 and H4 (rule R193), over any stretch of a session. The timer resets never outnumber the `OUTW` events, and each
REQ after the first comes after the `OUTW` of the cycle before it, counted from a state in which no more of DMA-B's
request and ACK stand than of DMA-A's request: a fresh start with ACK released is one, and so is a DMA_A_RESTART with no
reset owed; where the rule's count begins elsewhere see log entry 33. REQ is asserted at most once for the priming and
once for each remaining DMA-B transfer before a CTL_EXTEND or CTL_STOP. -/
def Obligations.SessionCountsKeepOrder : Prop :=
  ∀ (s t : State) (c : Tally), ControlInv s → Stretch s c t →
    (outwCount t.trace = outwCount s.trace + c.transfers ∧ reqCount t.trace = reqCount s.trace + c.requests) ∧
    (s.bReq.toNat + s.ack.toNat ≤ s.aReq.toNat → t.reqLost = false →
      c.resets ≤ c.transfers ∧ c.requests ≤ c.transfers + if s.timPhase = .primed then 1 else 0) ∧
    (c.extensions = 0 → c.requests ≤ s.bCnt.toNat + if s.timPhase = .primed then 1 else 0)

/-- Rules R277 and R279: in an unending course of the block in which no enabled handler or hardware step waits for ever,
a data handler that is active returns, a schedule handler that no data event holds back returns, a copy that is owed is
made and a primed timer asserts REQ, or leaves PRIMED; each unless the block halts or a stop disables the unit. -/
def Obligations.FairScheduleMakesProgress : Prop :=
  ∀ r : Schedule, r.Valid → r.WeaklyFair → ∀ n : Nat,
    (∃ m, n ≤ m ∧ ((r.state m).dataPc = .off ∨ (r.state m).halted = true)) ∧
    ((∀ m, n ≤ m → (r.state m).dataFirst = false) →
      ∃ m, n ≤ m ∧ ((r.state m).schedPc = .off ∨ (r.state m).halted = true)) ∧
    (∃ m, n ≤ m ∧ ((r.state m).aReq = false ∨ (r.state m).aEn = false ∨ (r.state m).halted = true)) ∧
    ∃ m, n ≤ m ∧ ((r.state m).timPhase ≠ .primed ∨ (r.state m).timEn = false ∨ (r.state m).halted = true)

/-- Rules R212 and R247: the data handler's labelled steps, with no other step between them, do what the whole handler
does, and return within `N + 7` steps. -/
def Obligations.DataHandlerStepsComposeToWhole : Prop :=
  ∀ s : State, s.params.wf = true → SessionInv s → FillInv s → s.engine = .writing → s.dataEntryEnabled = true →
    ∃ k t, k ≤ s.params.n + 7 ∧ onDataIrq s = .go t ∧ dataRun k s = .next t ∧ t.dataPc = .off
end

