-- ==== Sys2Proof/Laws/Decode.lean ====
section
/-! SUPPORT. The byte order of operand words, both ways (rule R122), and the scan of a run over whole operations. -/

namespace Sys2Proof

/-- A word's bytes make the word. -/
theorem leWord_extract (x : Word) :
    leWord (x.extractLsb' 0 8) (x.extractLsb' 8 8) (x.extractLsb' 16 8) (x.extractLsb' 24 8) = x := by
  apply BitVec.eq_of_getLsbD_eq
  intro i hi
  simp only [leWord, BitVec.getLsbD_append, BitVec.getLsbD_extractLsb']
  rcases (by omega : i < 8 ∨ (8 ≤ i ∧ i < 16) ∨ (16 ≤ i ∧ i < 24) ∨ (24 ≤ i ∧ i < 32)) with h | ⟨h, h'⟩ | ⟨h, h'⟩ | ⟨h, h'⟩
  · simp [h]
  · simp [show ¬ i < 8 by omega, show i - 8 < 8 by omega, show 8 + (i - 8) = i by omega]
  · simp [show ¬ i < 8 by omega, show ¬ i - 8 < 8 by omega, show i - 8 - 8 < 8 by omega,
      show 16 + (i - 8 - 8) = i by omega]
  · simp [show ¬ i < 8 by omega, show ¬ i - 8 < 8 by omega, show ¬ i - 8 - 8 < 8 by omega,
      show i - 8 - 8 - 8 < 8 by omega, show 24 + (i - 8 - 8 - 8) = i by omega]

/-- The bytes of a word made of bytes are those bytes. -/
theorem wordBytes_leWord (a b c d : Byte) : wordBytes (leWord a b c d) = [a, b, c, d] := by
  have e : ∀ (k : Nat) (z : Byte), (∀ i < 8, (leWord a b c d).getLsbD (k + i) = z.getLsbD i) →
      (leWord a b c d).extractLsb' k 8 = z := by
    intro k z h
    apply BitVec.eq_of_getLsbD_eq
    intro i hi
    rw [BitVec.getLsbD_extractLsb', h i hi]
    simp [hi]
  have ha := e 0 a (by
    intro i hi
    simp only [leWord, BitVec.getLsbD_append]
    rw [if_pos (by omega), Nat.zero_add])
  have hb := e 8 b (by
    intro i hi
    simp only [leWord, BitVec.getLsbD_append]
    rw [if_neg (by omega), if_pos (by omega), Nat.add_sub_cancel_left])
  have hc := e 16 c (by
    intro i hi
    simp only [leWord, BitVec.getLsbD_append]
    rw [if_neg (by omega), if_neg (by omega), if_pos (by omega), show 16 + i - 8 - 8 = i by omega])
  have hd := e 24 d (by
    intro i hi
    simp only [leWord, BitVec.getLsbD_append]
    rw [if_neg (by omega), if_neg (by omega), if_neg (by omega), show 24 + i - 8 - 8 - 8 = i by omega])
  rw [wordBytes, ha, hb, hc, hd]

/-- A word has four bytes. -/
@[simp] theorem wordBytes_length (x : Word) : (wordBytes x).length = 4 := rfl

/-- The scan passes over operand bytes that are owed. -/
theorem runScan_skip (k : Nat) (l t : List Byte) (h : l.length = k) : runScan k (l ++ t) = runScan 0 t := by
  induction k generalizing l with
  | zero => rw [List.length_eq_zero_iff.1 h]; rfl
  | succ k ih =>
    cases l with
    | nil => simp at h
    | cons a l => exact ih l (by simpa using h)

end Sys2Proof
end

