-- ==== Sys2Proof/Laws/Operands.lean ====
section
/-! SUPPORT. What each test of Operands.lean and Flags.lean says, in exact integers. -/

namespace Sys2Proof.Machine

@[simp] theorem bufferWraps_iff (ptr len : Word) :
    bufferWraps ptr len = true ↔ 2 ^ 32 < ptr.toNat + len.toNat := decide_eq_true_iff

@[simp] theorem continues_iff (ptr buf bytes : Word) :
    continues ptr buf bytes = true ↔ ptr.toNat = buf.toNat + bytes.toNat := decide_eq_true_iff

@[simp] theorem lengthOverflows_iff (bytes len : Word) :
    lengthOverflows bytes len = true ↔ 2 ^ 32 ≤ bytes.toNat + len.toNat := decide_eq_true_iff

@[simp] theorem inBuffer_iff (ptr buf bytes : Word) :
    inBuffer ptr buf bytes = true ↔ buf.toNat ≤ ptr.toNat ∧ ptr.toNat < buf.toNat + bytes.toNat := by
  simp only [inBuffer, Bool.and_eq_true, decide_eq_true_eq]

@[simp] theorem stalled_iff (s : State) (t0 : Word) :
    s.stalled t0 = true ↔ s.params.stallTimeoutMs ≤ (s.nowMs - t0).toNat := decide_eq_true_iff

/-- The data source's condition (rule R275). -/
theorem dataPending_iff (s : State) :
    s.dataPending = true ↔ (s.htA = true ∧ s.aHtie = true) ∨ (s.tcA = true ∧ s.aTcie = true) := by
  simp only [State.dataPending, Bool.or_eq_true, Bool.and_eq_true]

/-- The schedule source's condition (rule R275). -/
theorem schedPending_iff (s : State) : s.schedPending = true ↔ s.tcB = true ∧ s.bTcie = true := by
  simp only [State.schedPending, Bool.and_eq_true]

/-- No handler is active exactly where the main line steps (rule R56). -/
theorem mainTurn_iff (s : State) : s.mainTurn = true ↔ s.dataPc = .off ∧ s.schedPc = .off := by
  cases hd : s.dataPc <;> cases hs : s.schedPc <;>
    simp [State.mainTurn, State.curPrio, State.dataActive, State.schedActive, hd, hs]

/-- The data handler is active exactly where it has a label (rule R55). -/
theorem dataActive_iff (s : State) : s.dataActive = true ↔ s.dataPc ≠ .off := by
  simp only [State.dataActive, bne_iff_ne]

/-- The schedule handler is active exactly where it has a label (rule R55). -/
theorem schedActive_iff (s : State) : s.schedActive = true ↔ s.schedPc ≠ .off := by
  simp only [State.schedActive, bne_iff_ne]

/-- The caller is blocked exactly where the main line waits (rule R140). -/
theorem blocked_iff (s : State) : s.blocked = true ↔ s.mainPc ≠ .ready := by
  simp only [State.blocked, bne_iff_ne]

/-- When TIMER_REQ_ASSERT is enabled (rule R182). -/
theorem timerReqEnabled_iff (s : State) :
    s.timerReqEnabled = true ↔ s.timEn = true ∧ s.timPhase = .primed ∧ s.halted = false := by
  simp only [State.timerReqEnabled, Bool.and_eq_true, beq_iff_eq, Bool.not_eq_true', and_assoc]

/-- When DMA_A_FETCH is enabled (rule R189). -/
theorem fetchEnabled_iff (s : State) :
    s.fetchEnabled = true ↔ s.aEn = true ∧ s.pfq.length < s.params.prefetchDepth ∧ s.halted = false := by
  simp only [State.fetchEnabled, Bool.and_eq_true, decide_eq_true_eq, Bool.not_eq_true', and_assoc]

/-- When DMA_A_XFER is enabled (rule R190). -/
theorem aXferEnabled_iff (s : State) :
    s.aXferEnabled = true ↔ s.aReq = true ∧ s.aEn = true ∧ s.halted = false := by
  simp only [State.aXferEnabled, Bool.and_eq_true, Bool.not_eq_true', and_assoc]

/-- When DMA_B_XFER is enabled (rule R191). -/
theorem bXferEnabled_iff (s : State) : s.bXferEnabled = true ↔
    s.bReq = true ∧ s.bEn = true ∧ s.bCnt ≠ 0 ∧ s.aReq = false ∧ s.halted = false := by
  simp only [State.bXferEnabled, Bool.and_eq_true, bne_iff_ne, Bool.not_eq_true', and_assoc]

/-- When DATA_IRQ is enabled as an entry (rules R241, R277). -/
theorem dataEntryEnabled_iff (s : State) : s.dataEntryEnabled = true ↔
    s.dataPc = .off ∧ s.dataPending = true ∧ s.dataEn = true ∧ s.irqMask = false ∧ s.halted = false := by
  simp only [State.dataEntryEnabled, Bool.and_eq_true, beq_iff_eq, Bool.not_eq_true', and_assoc]

/-- When DATA_IRQ is enabled (rule R241). -/
theorem dataIrqEnabled_iff (s : State) : s.dataIrqEnabled = true ↔
    s.dataEntryEnabled = true ∨ (s.dataPc ≠ .off ∧ s.halted = false) := by
  simp only [State.dataIrqEnabled, Bool.or_eq_true, Bool.and_eq_true, dataActive_iff, Bool.not_eq_true']

/-- When the data handler comes before the schedule handler (rules R250, R278). -/
theorem dataFirst_iff (s : State) : s.dataFirst = true ↔
    s.dataPc ≠ .off ∨ (s.dataPending = true ∧ s.dataEn = true) := by
  simp only [State.dataFirst, Bool.or_eq_true, Bool.and_eq_true, dataActive_iff]

/-- When SCHED_IRQ is enabled as an entry (rules R250, R277). -/
theorem schedEntryEnabled_iff (s : State) : s.schedEntryEnabled = true ↔
    s.schedPc = .off ∧ s.schedPending = true ∧ s.schedEn = true ∧ s.irqMask = false ∧ s.dataFirst = false ∧
      s.halted = false := by
  simp only [State.schedEntryEnabled, Bool.and_eq_true, beq_iff_eq, Bool.not_eq_true', and_assoc]

/-- When SCHED_IRQ is enabled (rule R250). -/
theorem schedIrqEnabled_iff (s : State) : s.schedIrqEnabled = true ↔
    s.schedEntryEnabled = true ∨ (s.schedPc ≠ .off ∧ s.dataFirst = false ∧ s.halted = false) := by
  simp only [State.schedIrqEnabled, Bool.or_eq_true, Bool.and_eq_true, schedActive_iff, Bool.not_eq_true', and_assoc]

end Sys2Proof.Machine
end

