-- ==== Sys2Proof/Laws/Memory.lean ====
section
/-! SUPPORT. Application memory and the cancel cells: read after write, and the canonical forms. -/

namespace Sys2Proof.Machine

/-- Reading the byte just written gives it. -/
theorem Memory.read_write_same (m : Memory) (a : Nat) (v : Byte) (h : Memory.wf m = true) :
    Memory.read (Memory.write m a v) a = v := by
  suffices hs : ∀ lo m, Memory.wfFrom lo m = true → Memory.read (Memory.write m a v) a = v from hs 0 m h
  intro lo m
  induction m generalizing lo with
  | nil =>
    intro _
    by_cases hv : v = Memory.blank <;> simp [Memory.write, Memory.read, hv]
  | cons c t ih =>
    obtain ⟨x, b⟩ := c
    intro hw
    simp only [Memory.wfFrom, Bool.and_eq_true, decide_eq_true_eq] at hw
    have above : ∀ t lo, a < lo → Memory.wfFrom lo t = true → Memory.read t a = Memory.blank := by
      intro t
      induction t with
      | nil => intros; rfl
      | cons c t ih =>
        obtain ⟨y, d⟩ := c
        intro lo hlo hw
        simp only [Memory.wfFrom, Bool.and_eq_true, decide_eq_true_eq] at hw
        simp only [Memory.read, if_neg (by omega : ¬ y = a)]
        exact ih (y + 1) (by omega) hw.2
    rcases Nat.lt_trichotomy x a with hx | hx | hx
    · simp only [Memory.write, if_pos hx, Memory.read, if_neg (by omega : ¬ x = a)]
      exact ih _ hw.2
    · subst hx
      by_cases hv : v = Memory.blank
      · simp only [Memory.write, lt_irrefl, if_false, if_true, if_pos hv]
        rw [hv]; exact above t (x + 1) (by omega) hw.2
      · simp [Memory.write, Memory.read, hv]
    · have h1 : ¬ x < a := by omega
      have h2 : ¬ x = a := by omega
      by_cases hv : v = Memory.blank
      · simp only [Memory.write, if_neg h1, if_neg h2, if_pos hv, Memory.read]
        rw [hv]; exact above t (x + 1) (by omega) hw.2
      · simp [Memory.write, Memory.read, h1, h2, hv]

/-- A write leaves every other address alone. -/
theorem Memory.read_write_other (m : Memory) (a c : Nat) (v : Byte) (h : c ≠ a) :
    Memory.read (Memory.write m a v) c = Memory.read m c := by
  induction m with
  | nil =>
    by_cases hv : v = Memory.blank <;> simp [Memory.write, Memory.read, hv, h.symm]
  | cons d t ih =>
    obtain ⟨x, b⟩ := d
    simp only [Memory.write]
    split
    · simp only [Memory.read, ih]
    · split
      · next hx =>
        subst hx
        split <;> simp [Memory.read, h.symm]
      · split <;> simp [Memory.read, h.symm]

/-- A write keeps the canonical form. -/
theorem Memory.write_wf (m : Memory) (a : Nat) (v : Byte) (ha : a < 2 ^ 32) (h : Memory.wf m = true) :
    Memory.wf (Memory.write m a v) = true := by
  suffices hs : ∀ lo, lo ≤ a → Memory.wfFrom lo m = true → Memory.wfFrom lo (Memory.write m a v) = true from
    hs 0 (Nat.zero_le a) h
  clear h
  induction m with
  | nil =>
    intro lo hlo _
    by_cases hv : v = Memory.blank
    · simp [Memory.write, Memory.wfFrom, hv]
    · simp only [Memory.write, Memory.wfFrom, hv, if_false, Bool.and_eq_true, decide_eq_true_eq]
      exact ⟨⟨⟨hlo, ha⟩, hv⟩, trivial⟩
  | cons d t ih =>
    obtain ⟨x, b⟩ := d
    intro lo hlo hw
    have hw' := hw
    simp only [Memory.wfFrom, Bool.and_eq_true, decide_eq_true_eq] at hw'
    obtain ⟨⟨⟨h1, h2⟩, h3⟩, h4⟩ := hw'
    simp only [Memory.write]
    split
    · next hx =>
      simp only [Memory.wfFrom, Bool.and_eq_true, decide_eq_true_eq]
      exact ⟨⟨⟨h1, h2⟩, h3⟩, ih (x + 1) (by omega) h4⟩
    · split
      · next hx =>
        subst hx
        split
        · revert h4
          cases t with
          | nil => intro _; rfl
          | cons e t =>
            obtain ⟨y, d⟩ := e
            simp only [Memory.wfFrom, Bool.and_eq_true, decide_eq_true_eq]
            rintro ⟨⟨⟨h5, h6⟩, h7⟩, h8⟩
            exact ⟨⟨⟨by omega, h6⟩, h7⟩, h8⟩
        · next hv =>
          simp only [Memory.wfFrom, Bool.and_eq_true, decide_eq_true_eq]
          exact ⟨⟨⟨h1, h2⟩, hv⟩, h4⟩
      · split
        · exact hw
        · next hx1 hx2 hv =>
          simp only [Memory.wfFrom, Bool.and_eq_true, decide_eq_true_eq]
          exact ⟨⟨⟨hlo, ha⟩, hv⟩, ⟨⟨by omega, h2⟩, h3⟩, h4⟩

/-- The host's own store keeps the canonical form. -/
theorem hostStore_mem_wf (s : State) (a : Word) (b : Byte) (h : Memory.wf s.mem = true) :
    Memory.wf (s.hostStore a b).mem = true := Memory.write_wf _ _ _ a.isLt h

/-- The reset state's memory has the canonical form. -/
theorem reset_mem_wf : Memory.wf State.reset.mem = true := rfl

/-- Setting a cell adds its number and no other. -/
theorem Cells.mem_set (c : Cells) (k n : Nat) : n ∈ Cells.set c k ↔ n = k ∨ n ∈ c := by
  induction c with
  | nil => simp [Cells.set]
  | cons x t ih =>
    simp only [Cells.set]
    split
    · simp only [List.mem_cons, ih]; tauto
    · split
      · next h => subst h; simp
      · simp

/-- Setting a cell keeps the canonical form. -/
theorem Cells.set_wf (c : Cells) (k : Nat) (hk : k < 2 ^ 32) (h : Cells.wf c = true) :
    Cells.wf (Cells.set c k) = true := by
  suffices hs : ∀ lo, lo ≤ k → Cells.wfFrom lo c = true → Cells.wfFrom lo (Cells.set c k) = true from
    hs 0 (Nat.zero_le k) h
  clear h
  induction c with
  | nil =>
    intro lo hlo _
    simp only [Cells.set, Cells.wfFrom, Bool.and_eq_true, decide_eq_true_eq]
    exact ⟨⟨hlo, hk⟩, trivial⟩
  | cons x t ih =>
    intro lo hlo hw
    have hw' := hw
    simp only [Cells.wfFrom, Bool.and_eq_true, decide_eq_true_eq] at hw'
    obtain ⟨⟨h1, h2⟩, h3⟩ := hw'
    simp only [Cells.set]
    split
    · simp only [Cells.wfFrom, Bool.and_eq_true, decide_eq_true_eq]
      exact ⟨⟨h1, h2⟩, ih (x + 1) (by omega) h3⟩
    · split
      · exact hw
      · simp only [Cells.wfFrom, Bool.and_eq_true, decide_eq_true_eq]
        exact ⟨⟨hlo, hk⟩, ⟨by omega, h2⟩, h3⟩

/-- Reading a cell. -/
theorem cell_iff (s : State) (c : Word) : s.cell c = true ↔ c.toNat ∈ s.cells := by
  simp [State.cell]

/-- Reading a byte of AM at an address that exists. -/
theorem memRead_of_lt (s : State) {a : Nat} (h : a < 2 ^ 32) : s.memRead a = some (s.mem.read a) := if_pos h

/-- There is no byte outside AM (rule R80). -/
theorem memRead_of_not_lt (s : State) {a : Nat} (h : ¬ a < 2 ^ 32) : s.memRead a = none := if_neg h

end Sys2Proof.Machine
end

