-- ==== Sys2Proof/Laws/Params.lean ====
section
/-! SUPPORT. What the parameters' properties give (00_scope.md section 3): each check of `Params.wf`, the ring
arithmetic modulo `N`, and that the parameters of the reset state have the properties. -/

namespace Sys2Proof

open Sys2Proof.Machine

/-- Each check of `Params.wf`, by name. -/
theorem Params.wf_iff (p : Params) : p.wf = true ↔ p.ringOk = true ∧ p.tableShapeOk = true ∧ p.parityOk = true ∧
    p.prefetchOk = true ∧ p.tableDistinct = true ∧ p.poisonInvalid = true := by
  simp [Params.wf, and_assoc]

/-- Rule R7 with log entry 3: the exponent of the ring capacity is 1 to 31. -/
theorem Params.logN_bounds {p : Params} (h : p.wf = true) : 1 ≤ p.logN ∧ p.logN ≤ 31 := by
  simpa [Params.ringOk] using ((Params.wf_iff p).1 h).1

/-- The ring capacity is twice the half-ring. -/
theorem Params.n_eq_two_half {p : Params} (h : p.wf = true) : p.n = 2 * p.half := by
  obtain ⟨k, hk⟩ : ∃ k, p.logN = k + 1 := ⟨p.logN - 1, by have := Params.logN_bounds h; omega⟩
  simp only [Params.half, Params.n, hk, pow_succ]
  omega

/-- The half-ring has an entry at least. -/
theorem Params.half_pos {p : Params} (h : p.wf = true) : 1 ≤ p.half := by
  have h2 := Params.n_eq_two_half h
  have h3 : 0 < p.n := Nat.two_pow_pos _
  omega

/-- The ring capacity is a cursor value. -/
theorem Params.n_lt {p : Params} (h : p.wf = true) : p.n < 2 ^ 32 :=
  Nat.pow_lt_pow_right (by decide) (by have := Params.logN_bounds h; omega)

/-- `N` as a cursor. -/
theorem Params.nWord_toNat {p : Params} (h : p.wf = true) : p.nWord.toNat = p.n := by
  simpa [Params.nWord] using Nat.mod_eq_of_lt (Params.n_lt h)

/-- `HALF` as a cursor. -/
theorem Params.halfWord_toNat {p : Params} (h : p.wf = true) : p.halfWord.toNat = p.half := by
  have h1 := Params.n_lt h
  have h2 := Params.n_eq_two_half h
  simpa [Params.halfWord] using Nat.mod_eq_of_lt (by omega : p.half < 2 ^ 32)

/-- `c & MASK` is `c mod N` (rule R21). -/
theorem Params.and_mask_toNat {p : Params} (h : p.wf = true) (c : Word) : (c &&& p.mask).toNat = c.toNat % p.n := by
  have h1 := Params.n_lt h
  have h2 : p.mask.toNat = 2 ^ p.logN - 1 := by
    rw [Params.mask, BitVec.toNat_ofNat]
    exact Nat.mod_eq_of_lt (by omega)
  rw [BitVec.toNat_and, h2, Nat.and_two_pow_sub_one_eq_mod]
  rfl

/-- A slot is its cursor modulo `N` (rule R21). -/
theorem Machine.slot_eq {s : State} (h : s.params.wf = true) (c : Word) : s.slot c = c.toNat % s.params.n :=
  Params.and_mask_toNat h c

/-- A slot is an entry of the ring. -/
theorem Machine.slot_lt {s : State} (h : s.params.wf = true) (c : Word) : s.slot c < s.params.n := by
  rw [Machine.slot_eq h]; exact Nat.mod_lt _ (Nat.two_pow_pos _)

/-- A slot is never a sum's carry beyond 2^32: `N` divides 2^32. -/
theorem Params.mod_n_of_mod {p : Params} (h : p.wf = true) (x : Nat) : x % 2 ^ 32 % p.n = x % p.n :=
  Nat.mod_mod_of_dvd x (pow_dvd_pow 2 (by have := Params.logN_bounds h; omega))

/-- The half-transfer event (rules R46, R190). -/
theorem Machine.halfEvent_iff {p : Params} (h : p.wf = true) (c : Word) :
    halfEvent p c = decide (c.toNat % p.n = p.half) := by
  rw [Bool.eq_iff_iff]
  simp only [halfEvent, beq_iff_eq, decide_eq_true_eq]
  rw [← BitVec.toNat_inj, Params.and_mask_toNat h, Params.halfWord_toNat h]

/-- The full-transfer event (rules R46, R190). -/
theorem Machine.fullEvent_iff {p : Params} (h : p.wf = true) (c : Word) :
    fullEvent p c = decide (c.toNat % p.n = 0) := by
  rw [Bool.eq_iff_iff]
  simp only [fullEvent, beq_iff_eq, decide_eq_true_eq]
  rw [← BitVec.toNat_inj, Params.and_mask_toNat h]
  rfl

/-- `TRANSLATE` gives images of `IMG_W` bits (rules R10, R11). -/
theorem Params.translate_lt {p : Params} (h : p.wf = true) (b : Byte) : p.translate b < 2 ^ p.imgW := by
  have h2 := ((Params.wf_iff p).1 h).2.1
  simp only [Params.tableShapeOk, Bool.and_eq_true, beq_iff_eq, List.all_eq_true, decide_eq_true_eq] at h2
  obtain ⟨⟨-, hl⟩, ha⟩ := h2
  have hb : b.toNat < p.table.length := hl ▸ b.isLt
  rw [Params.translate, List.getD_eq_getElem _ _ hb]
  exact ha _ (List.getElem_mem hb)

/-- The poison image has `IMG_W` bits (rule R13). -/
theorem Params.poison_lt {p : Params} (h : p.wf = true) : p.poison < 2 ^ p.imgW := by
  have h3 := ((Params.wf_iff p).1 h).2.2.1
  simp only [Params.parityOk, List.any_eq_true, List.mem_range, beq_iff_eq] at h3
  obtain ⟨k, hk, hm⟩ := h3
  exact Nat.xor_lt_two_pow (Params.translate_lt h 0) (hm ▸ Nat.pow_lt_pow_right (by decide) hk)

/-- The poison image is no byte's image (rule R11, TR2). -/
theorem Params.translate_ne_poison {p : Params} (h : p.wf = true) (b : Byte) : p.translate b ≠ p.poison := by
  obtain ⟨-, h2, -, -, -, h6⟩ := (Params.wf_iff p).1 h
  simp only [Params.tableShapeOk, Bool.and_eq_true, beq_iff_eq] at h2
  have hb : b.toNat < p.table.length := h2.1.2 ▸ b.isLt
  intro he
  rw [Params.translate, List.getD_eq_getElem _ _ hb] at he
  simp only [Params.poisonInvalid, Bool.not_eq_true'] at h6
  have := List.getElem_mem hb
  rw [he] at this
  simp [this] at h6

/-- The fixture table of 95_test_vectors.md section 1.1 has the properties of a table (rules R10 to R13). -/
theorem Config.vectorParams_table : (Config.vectorParams 1 0).tableShapeOk = true ∧
    (Config.vectorParams 1 0).parityOk = true ∧ (Config.vectorParams 1 0).tableDistinct = true ∧
    (Config.vectorParams 1 0).poisonInvalid = true := by decide +kernel

/-- The fixture has the properties of the parameters at every ring capacity and prefetch depth that has them. -/
theorem Config.vectorParams_wf {l k : Nat} (h1 : 1 ≤ l) (h2 : l ≤ 31) (h3 : k ≤ 2 ^ l / 2) :
    (Config.vectorParams l k).wf = true := by
  obtain ⟨a, b, c, d⟩ := Config.vectorParams_table
  have r : (Config.vectorParams l k).ringOk = true := by
    rw [Params.ringOk, Bool.and_eq_true, decide_eq_true_eq, decide_eq_true_eq]; exact ⟨h1, h2⟩
  have q : (Config.vectorParams l k).prefetchOk = true := by
    rw [Params.prefetchOk, decide_eq_true_eq]; exact h3
  rw [Params.wf_iff]
  refine ⟨r, ?_, ?_, q, ?_, ?_⟩
  · exact a
  · exact b
  · exact c
  · exact d

/-- The parameters of the reset state have the properties of 00_scope.md section 3. -/
theorem Config.params_wf : Config.params.wf = true := by
  unfold Config.params
  split
  · assumption
  · exact Config.vectorParams_wf (by decide) (by decide) (by decide)

end Sys2Proof
end

