-- ==== Sys2Proof/Laws/State.lean ====
section
/-! SUPPORT. Each named update of the state, field by field: one lemma per field, true by `rfl`. -/

namespace Sys2Proof.Machine

/-! ### emit -/

@[simp] theorem emit_params (s : State) (e : Event) : (s.emit e).params = s.params := rfl
@[simp] theorem emit_mainPc (s : State) (e : Event) : (s.emit e).mainPc = s.mainPc := rfl
@[simp] theorem emit_dataPc (s : State) (e : Event) : (s.emit e).dataPc = s.dataPc := rfl
@[simp] theorem emit_schedPc (s : State) (e : Event) : (s.emit e).schedPc = s.schedPc := rfl
@[simp] theorem emit_engine (s : State) (e : Event) : (s.emit e).engine = s.engine := rfl
@[simp] theorem emit_appBuf (s : State) (e : Event) : (s.emit e).appBuf = s.appBuf := rfl
@[simp] theorem emit_bytesApp (s : State) (e : Event) : (s.emit e).bytesApp = s.bytesApp := rfl
@[simp] theorem emit_bytesDma (s : State) (e : Event) : (s.emit e).bytesDma = s.bytesDma := rfl
@[simp] theorem emit_scheduledDma (s : State) (e : Event) : (s.emit e).scheduledDma = s.scheduledDma := rfl
@[simp] theorem emit_dmaIdx (s : State) (e : Event) : (s.emit e).dmaIdx = s.dmaIdx := rfl
@[simp] theorem emit_dmaFillto (s : State) (e : Event) : (s.emit e).dmaFillto = s.dmaFillto := rfl
@[simp] theorem emit_incompleteBuf (s : State) (e : Event) : (s.emit e).incompleteBuf = s.incompleteBuf := rfl
@[simp] theorem emit_nextValid (s : State) (e : Event) : (s.emit e).nextValid = s.nextValid := rfl
@[simp] theorem emit_nextAppBuf (s : State) (e : Event) : (s.emit e).nextAppBuf = s.nextAppBuf := rfl
@[simp] theorem emit_nextAppBytes (s : State) (e : Event) : (s.emit e).nextAppBytes = s.nextAppBytes := rfl
@[simp] theorem emit_cells (s : State) (e : Event) : (s.emit e).cells = s.cells := rfl
@[simp] theorem emit_nowMs (s : State) (e : Event) : (s.emit e).nowMs = s.nowMs := rfl
@[simp] theorem emit_ring (s : State) (e : Event) : (s.emit e).ring = s.ring := rfl
@[simp] theorem emit_aEn (s : State) (e : Event) : (s.emit e).aEn = s.aEn := rfl
@[simp] theorem emit_aFetch (s : State) (e : Event) : (s.emit e).aFetch = s.aFetch := rfl
@[simp] theorem emit_aXfer (s : State) (e : Event) : (s.emit e).aXfer = s.aXfer := rfl
@[simp] theorem emit_pfq (s : State) (e : Event) : (s.emit e).pfq = s.pfq := rfl
@[simp] theorem emit_aHtie (s : State) (e : Event) : (s.emit e).aHtie = s.aHtie := rfl
@[simp] theorem emit_aTcie (s : State) (e : Event) : (s.emit e).aTcie = s.aTcie := rfl
@[simp] theorem emit_htA (s : State) (e : Event) : (s.emit e).htA = s.htA := rfl
@[simp] theorem emit_tcA (s : State) (e : Event) : (s.emit e).tcA = s.tcA := rfl
@[simp] theorem emit_aReq (s : State) (e : Event) : (s.emit e).aReq = s.aReq := rfl
@[simp] theorem emit_bEn (s : State) (e : Event) : (s.emit e).bEn = s.bEn := rfl
@[simp] theorem emit_bCnt (s : State) (e : Event) : (s.emit e).bCnt = s.bCnt := rfl
@[simp] theorem emit_bTcie (s : State) (e : Event) : (s.emit e).bTcie = s.bTcie := rfl
@[simp] theorem emit_tcB (s : State) (e : Event) : (s.emit e).tcB = s.tcB := rfl
@[simp] theorem emit_bReq (s : State) (e : Event) : (s.emit e).bReq = s.bReq := rfl
@[simp] theorem emit_timEn (s : State) (e : Event) : (s.emit e).timEn = s.timEn := rfl
@[simp] theorem emit_timPhase (s : State) (e : Event) : (s.emit e).timPhase = s.timPhase := rfl
@[simp] theorem emit_req (s : State) (e : Event) : (s.emit e).req = s.req := rfl
@[simp] theorem emit_ack (s : State) (e : Event) : (s.emit e).ack = s.ack := rfl
@[simp] theorem emit_gpioMode (s : State) (e : Event) : (s.emit e).gpioMode = s.gpioMode := rfl
@[simp] theorem emit_dataDriven (s : State) (e : Event) : (s.emit e).dataDriven = s.dataDriven := rfl
@[simp] theorem emit_out (s : State) (e : Event) : (s.emit e).out = s.out := rfl
@[simp] theorem emit_irqMask (s : State) (e : Event) : (s.emit e).irqMask = s.irqMask := rfl
@[simp] theorem emit_dataEn (s : State) (e : Event) : (s.emit e).dataEn = s.dataEn := rfl
@[simp] theorem emit_schedEn (s : State) (e : Event) : (s.emit e).schedEn = s.schedEn := rfl
@[simp] theorem emit_configured (s : State) (e : Event) : (s.emit e).configured = s.configured := rfl
@[simp] theorem emit_halted (s : State) (e : Event) : (s.emit e).halted = s.halted := rfl
@[simp] theorem emit_reqLost (s : State) (e : Event) : (s.emit e).reqLost = s.reqLost := rfl
@[simp] theorem emit_refused (s : State) (e : Event) : (s.emit e).refused = s.refused := rfl
@[simp] theorem emit_overrunSeen (s : State) (e : Event) : (s.emit e).overrunSeen = s.overrunSeen := rfl
@[simp] theorem emit_stallSeen (s : State) (e : Event) : (s.emit e).stallSeen = s.stallSeen := rfl
@[simp] theorem emit_log (s : State) (e : Event) : (s.emit e).log = s.log := rfl
@[simp] theorem emit_trace (s : State) (e : Event) : (s.emit e).trace = s.trace ++ [e] := rfl
@[simp] theorem emit_poisonOut (s : State) (e : Event) : (s.emit e).poisonOut = s.poisonOut := rfl
@[simp] theorem emit_mem (s : State) (e : Event) : (s.emit e).mem = s.mem := rfl
@[simp] theorem emit_run (s : State) (e : Event) : (s.emit e).run = s.run := rfl
@[simp] theorem emit_issuers (s : State) (e : Event) : (s.emit e).issuers = s.issuers := rfl

/-! ### ringWrite -/

@[simp] theorem ringWrite_params (s : State) (i : Nat) (img : Image) : (s.ringWrite i img).params = s.params := rfl
@[simp] theorem ringWrite_mainPc (s : State) (i : Nat) (img : Image) : (s.ringWrite i img).mainPc = s.mainPc := rfl
@[simp] theorem ringWrite_dataPc (s : State) (i : Nat) (img : Image) : (s.ringWrite i img).dataPc = s.dataPc := rfl
@[simp] theorem ringWrite_schedPc (s : State) (i : Nat) (img : Image) : (s.ringWrite i img).schedPc = s.schedPc := rfl
@[simp] theorem ringWrite_engine (s : State) (i : Nat) (img : Image) : (s.ringWrite i img).engine = s.engine := rfl
@[simp] theorem ringWrite_appBuf (s : State) (i : Nat) (img : Image) : (s.ringWrite i img).appBuf = s.appBuf := rfl
@[simp] theorem ringWrite_bytesApp (s : State) (i : Nat) (img : Image) : (s.ringWrite i img).bytesApp = s.bytesApp := rfl
@[simp] theorem ringWrite_bytesDma (s : State) (i : Nat) (img : Image) : (s.ringWrite i img).bytesDma = s.bytesDma := rfl
@[simp] theorem ringWrite_scheduledDma (s : State) (i : Nat) (img : Image) : (s.ringWrite i img).scheduledDma = s.scheduledDma := rfl
@[simp] theorem ringWrite_dmaIdx (s : State) (i : Nat) (img : Image) : (s.ringWrite i img).dmaIdx = s.dmaIdx := rfl
@[simp] theorem ringWrite_dmaFillto (s : State) (i : Nat) (img : Image) : (s.ringWrite i img).dmaFillto = s.dmaFillto := rfl
@[simp] theorem ringWrite_incompleteBuf (s : State) (i : Nat) (img : Image) : (s.ringWrite i img).incompleteBuf = s.incompleteBuf := rfl
@[simp] theorem ringWrite_nextValid (s : State) (i : Nat) (img : Image) : (s.ringWrite i img).nextValid = s.nextValid := rfl
@[simp] theorem ringWrite_nextAppBuf (s : State) (i : Nat) (img : Image) : (s.ringWrite i img).nextAppBuf = s.nextAppBuf := rfl
@[simp] theorem ringWrite_nextAppBytes (s : State) (i : Nat) (img : Image) : (s.ringWrite i img).nextAppBytes = s.nextAppBytes := rfl
@[simp] theorem ringWrite_cells (s : State) (i : Nat) (img : Image) : (s.ringWrite i img).cells = s.cells := rfl
@[simp] theorem ringWrite_nowMs (s : State) (i : Nat) (img : Image) : (s.ringWrite i img).nowMs = s.nowMs := rfl
@[simp] theorem ringWrite_ring (s : State) (i : Nat) (img : Image) : (s.ringWrite i img).ring = s.ring.set i img := rfl
@[simp] theorem ringWrite_aEn (s : State) (i : Nat) (img : Image) : (s.ringWrite i img).aEn = s.aEn := rfl
@[simp] theorem ringWrite_aFetch (s : State) (i : Nat) (img : Image) : (s.ringWrite i img).aFetch = s.aFetch := rfl
@[simp] theorem ringWrite_aXfer (s : State) (i : Nat) (img : Image) : (s.ringWrite i img).aXfer = s.aXfer := rfl
@[simp] theorem ringWrite_pfq (s : State) (i : Nat) (img : Image) : (s.ringWrite i img).pfq = s.pfq := rfl
@[simp] theorem ringWrite_aHtie (s : State) (i : Nat) (img : Image) : (s.ringWrite i img).aHtie = s.aHtie := rfl
@[simp] theorem ringWrite_aTcie (s : State) (i : Nat) (img : Image) : (s.ringWrite i img).aTcie = s.aTcie := rfl
@[simp] theorem ringWrite_htA (s : State) (i : Nat) (img : Image) : (s.ringWrite i img).htA = s.htA := rfl
@[simp] theorem ringWrite_tcA (s : State) (i : Nat) (img : Image) : (s.ringWrite i img).tcA = s.tcA := rfl
@[simp] theorem ringWrite_aReq (s : State) (i : Nat) (img : Image) : (s.ringWrite i img).aReq = s.aReq := rfl
@[simp] theorem ringWrite_bEn (s : State) (i : Nat) (img : Image) : (s.ringWrite i img).bEn = s.bEn := rfl
@[simp] theorem ringWrite_bCnt (s : State) (i : Nat) (img : Image) : (s.ringWrite i img).bCnt = s.bCnt := rfl
@[simp] theorem ringWrite_bTcie (s : State) (i : Nat) (img : Image) : (s.ringWrite i img).bTcie = s.bTcie := rfl
@[simp] theorem ringWrite_tcB (s : State) (i : Nat) (img : Image) : (s.ringWrite i img).tcB = s.tcB := rfl
@[simp] theorem ringWrite_bReq (s : State) (i : Nat) (img : Image) : (s.ringWrite i img).bReq = s.bReq := rfl
@[simp] theorem ringWrite_timEn (s : State) (i : Nat) (img : Image) : (s.ringWrite i img).timEn = s.timEn := rfl
@[simp] theorem ringWrite_timPhase (s : State) (i : Nat) (img : Image) : (s.ringWrite i img).timPhase = s.timPhase := rfl
@[simp] theorem ringWrite_req (s : State) (i : Nat) (img : Image) : (s.ringWrite i img).req = s.req := rfl
@[simp] theorem ringWrite_ack (s : State) (i : Nat) (img : Image) : (s.ringWrite i img).ack = s.ack := rfl
@[simp] theorem ringWrite_gpioMode (s : State) (i : Nat) (img : Image) : (s.ringWrite i img).gpioMode = s.gpioMode := rfl
@[simp] theorem ringWrite_dataDriven (s : State) (i : Nat) (img : Image) : (s.ringWrite i img).dataDriven = s.dataDriven := rfl
@[simp] theorem ringWrite_out (s : State) (i : Nat) (img : Image) : (s.ringWrite i img).out = s.out := rfl
@[simp] theorem ringWrite_irqMask (s : State) (i : Nat) (img : Image) : (s.ringWrite i img).irqMask = s.irqMask := rfl
@[simp] theorem ringWrite_dataEn (s : State) (i : Nat) (img : Image) : (s.ringWrite i img).dataEn = s.dataEn := rfl
@[simp] theorem ringWrite_schedEn (s : State) (i : Nat) (img : Image) : (s.ringWrite i img).schedEn = s.schedEn := rfl
@[simp] theorem ringWrite_configured (s : State) (i : Nat) (img : Image) : (s.ringWrite i img).configured = s.configured := rfl
@[simp] theorem ringWrite_halted (s : State) (i : Nat) (img : Image) : (s.ringWrite i img).halted = s.halted := rfl
@[simp] theorem ringWrite_reqLost (s : State) (i : Nat) (img : Image) : (s.ringWrite i img).reqLost = s.reqLost := rfl
@[simp] theorem ringWrite_refused (s : State) (i : Nat) (img : Image) : (s.ringWrite i img).refused = s.refused := rfl
@[simp] theorem ringWrite_overrunSeen (s : State) (i : Nat) (img : Image) : (s.ringWrite i img).overrunSeen = s.overrunSeen := rfl
@[simp] theorem ringWrite_stallSeen (s : State) (i : Nat) (img : Image) : (s.ringWrite i img).stallSeen = s.stallSeen := rfl
@[simp] theorem ringWrite_log (s : State) (i : Nat) (img : Image) : (s.ringWrite i img).log = s.log := rfl
@[simp] theorem ringWrite_trace (s : State) (i : Nat) (img : Image) : (s.ringWrite i img).trace = s.trace := rfl
@[simp] theorem ringWrite_poisonOut (s : State) (i : Nat) (img : Image) : (s.ringWrite i img).poisonOut = s.poisonOut := rfl
@[simp] theorem ringWrite_mem (s : State) (i : Nat) (img : Image) : (s.ringWrite i img).mem = s.mem := rfl
@[simp] theorem ringWrite_run (s : State) (i : Nat) (img : Image) : (s.ringWrite i img).run = s.run := rfl
@[simp] theorem ringWrite_issuers (s : State) (i : Nat) (img : Image) : (s.ringWrite i img).issuers = s.issuers := rfl

/-! ### outWrite -/

@[simp] theorem outWrite_params (s : State) (v : Image) : (s.outWrite v).params = s.params := rfl
@[simp] theorem outWrite_mainPc (s : State) (v : Image) : (s.outWrite v).mainPc = s.mainPc := rfl
@[simp] theorem outWrite_dataPc (s : State) (v : Image) : (s.outWrite v).dataPc = s.dataPc := rfl
@[simp] theorem outWrite_schedPc (s : State) (v : Image) : (s.outWrite v).schedPc = s.schedPc := rfl
@[simp] theorem outWrite_engine (s : State) (v : Image) : (s.outWrite v).engine = s.engine := rfl
@[simp] theorem outWrite_appBuf (s : State) (v : Image) : (s.outWrite v).appBuf = s.appBuf := rfl
@[simp] theorem outWrite_bytesApp (s : State) (v : Image) : (s.outWrite v).bytesApp = s.bytesApp := rfl
@[simp] theorem outWrite_bytesDma (s : State) (v : Image) : (s.outWrite v).bytesDma = s.bytesDma := rfl
@[simp] theorem outWrite_scheduledDma (s : State) (v : Image) : (s.outWrite v).scheduledDma = s.scheduledDma := rfl
@[simp] theorem outWrite_dmaIdx (s : State) (v : Image) : (s.outWrite v).dmaIdx = s.dmaIdx := rfl
@[simp] theorem outWrite_dmaFillto (s : State) (v : Image) : (s.outWrite v).dmaFillto = s.dmaFillto := rfl
@[simp] theorem outWrite_incompleteBuf (s : State) (v : Image) : (s.outWrite v).incompleteBuf = s.incompleteBuf := rfl
@[simp] theorem outWrite_nextValid (s : State) (v : Image) : (s.outWrite v).nextValid = s.nextValid := rfl
@[simp] theorem outWrite_nextAppBuf (s : State) (v : Image) : (s.outWrite v).nextAppBuf = s.nextAppBuf := rfl
@[simp] theorem outWrite_nextAppBytes (s : State) (v : Image) : (s.outWrite v).nextAppBytes = s.nextAppBytes := rfl
@[simp] theorem outWrite_cells (s : State) (v : Image) : (s.outWrite v).cells = s.cells := rfl
@[simp] theorem outWrite_nowMs (s : State) (v : Image) : (s.outWrite v).nowMs = s.nowMs := rfl
@[simp] theorem outWrite_ring (s : State) (v : Image) : (s.outWrite v).ring = s.ring := rfl
@[simp] theorem outWrite_aEn (s : State) (v : Image) : (s.outWrite v).aEn = s.aEn := rfl
@[simp] theorem outWrite_aFetch (s : State) (v : Image) : (s.outWrite v).aFetch = s.aFetch := rfl
@[simp] theorem outWrite_aXfer (s : State) (v : Image) : (s.outWrite v).aXfer = s.aXfer := rfl
@[simp] theorem outWrite_pfq (s : State) (v : Image) : (s.outWrite v).pfq = s.pfq := rfl
@[simp] theorem outWrite_aHtie (s : State) (v : Image) : (s.outWrite v).aHtie = s.aHtie := rfl
@[simp] theorem outWrite_aTcie (s : State) (v : Image) : (s.outWrite v).aTcie = s.aTcie := rfl
@[simp] theorem outWrite_htA (s : State) (v : Image) : (s.outWrite v).htA = s.htA := rfl
@[simp] theorem outWrite_tcA (s : State) (v : Image) : (s.outWrite v).tcA = s.tcA := rfl
@[simp] theorem outWrite_aReq (s : State) (v : Image) : (s.outWrite v).aReq = s.aReq := rfl
@[simp] theorem outWrite_bEn (s : State) (v : Image) : (s.outWrite v).bEn = s.bEn := rfl
@[simp] theorem outWrite_bCnt (s : State) (v : Image) : (s.outWrite v).bCnt = s.bCnt := rfl
@[simp] theorem outWrite_bTcie (s : State) (v : Image) : (s.outWrite v).bTcie = s.bTcie := rfl
@[simp] theorem outWrite_tcB (s : State) (v : Image) : (s.outWrite v).tcB = s.tcB := rfl
@[simp] theorem outWrite_bReq (s : State) (v : Image) : (s.outWrite v).bReq = s.bReq := rfl
@[simp] theorem outWrite_timEn (s : State) (v : Image) : (s.outWrite v).timEn = s.timEn := rfl
@[simp] theorem outWrite_timPhase (s : State) (v : Image) : (s.outWrite v).timPhase = s.timPhase := rfl
@[simp] theorem outWrite_req (s : State) (v : Image) : (s.outWrite v).req = s.req := rfl
@[simp] theorem outWrite_ack (s : State) (v : Image) : (s.outWrite v).ack = s.ack := rfl
@[simp] theorem outWrite_gpioMode (s : State) (v : Image) : (s.outWrite v).gpioMode = s.gpioMode := rfl
@[simp] theorem outWrite_dataDriven (s : State) (v : Image) : (s.outWrite v).dataDriven = s.dataDriven := rfl
@[simp] theorem outWrite_out (s : State) (v : Image) : (s.outWrite v).out = v := rfl
@[simp] theorem outWrite_irqMask (s : State) (v : Image) : (s.outWrite v).irqMask = s.irqMask := rfl
@[simp] theorem outWrite_dataEn (s : State) (v : Image) : (s.outWrite v).dataEn = s.dataEn := rfl
@[simp] theorem outWrite_schedEn (s : State) (v : Image) : (s.outWrite v).schedEn = s.schedEn := rfl
@[simp] theorem outWrite_configured (s : State) (v : Image) : (s.outWrite v).configured = s.configured := rfl
@[simp] theorem outWrite_halted (s : State) (v : Image) : (s.outWrite v).halted = s.halted := rfl
@[simp] theorem outWrite_reqLost (s : State) (v : Image) : (s.outWrite v).reqLost = s.reqLost := rfl
@[simp] theorem outWrite_refused (s : State) (v : Image) : (s.outWrite v).refused = s.refused := rfl
@[simp] theorem outWrite_overrunSeen (s : State) (v : Image) : (s.outWrite v).overrunSeen = s.overrunSeen := rfl
@[simp] theorem outWrite_stallSeen (s : State) (v : Image) : (s.outWrite v).stallSeen = s.stallSeen := rfl
@[simp] theorem outWrite_log (s : State) (v : Image) : (s.outWrite v).log = s.log := rfl
@[simp] theorem outWrite_trace (s : State) (v : Image) : (s.outWrite v).trace = s.trace ++ [.outw v] := rfl
@[simp] theorem outWrite_poisonOut (s : State) (v : Image) : (s.outWrite v).poisonOut = if v = s.params.poison then s.poisonOut + 1 else s.poisonOut := rfl
@[simp] theorem outWrite_mem (s : State) (v : Image) : (s.outWrite v).mem = s.mem := rfl
@[simp] theorem outWrite_run (s : State) (v : Image) : (s.outWrite v).run = s.run := rfl
@[simp] theorem outWrite_issuers (s : State) (v : Image) : (s.outWrite v).issuers = s.issuers := rfl

/-! ### refuse -/

@[simp] theorem refuse_params (s : State) (r : RefuseReason) : (s.refuse r).params = s.params := rfl
@[simp] theorem refuse_mainPc (s : State) (r : RefuseReason) : (s.refuse r).mainPc = s.mainPc := rfl
@[simp] theorem refuse_dataPc (s : State) (r : RefuseReason) : (s.refuse r).dataPc = s.dataPc := rfl
@[simp] theorem refuse_schedPc (s : State) (r : RefuseReason) : (s.refuse r).schedPc = s.schedPc := rfl
@[simp] theorem refuse_engine (s : State) (r : RefuseReason) : (s.refuse r).engine = s.engine := rfl
@[simp] theorem refuse_appBuf (s : State) (r : RefuseReason) : (s.refuse r).appBuf = s.appBuf := rfl
@[simp] theorem refuse_bytesApp (s : State) (r : RefuseReason) : (s.refuse r).bytesApp = s.bytesApp := rfl
@[simp] theorem refuse_bytesDma (s : State) (r : RefuseReason) : (s.refuse r).bytesDma = s.bytesDma := rfl
@[simp] theorem refuse_scheduledDma (s : State) (r : RefuseReason) : (s.refuse r).scheduledDma = s.scheduledDma := rfl
@[simp] theorem refuse_dmaIdx (s : State) (r : RefuseReason) : (s.refuse r).dmaIdx = s.dmaIdx := rfl
@[simp] theorem refuse_dmaFillto (s : State) (r : RefuseReason) : (s.refuse r).dmaFillto = s.dmaFillto := rfl
@[simp] theorem refuse_incompleteBuf (s : State) (r : RefuseReason) : (s.refuse r).incompleteBuf = s.incompleteBuf := rfl
@[simp] theorem refuse_nextValid (s : State) (r : RefuseReason) : (s.refuse r).nextValid = s.nextValid := rfl
@[simp] theorem refuse_nextAppBuf (s : State) (r : RefuseReason) : (s.refuse r).nextAppBuf = s.nextAppBuf := rfl
@[simp] theorem refuse_nextAppBytes (s : State) (r : RefuseReason) : (s.refuse r).nextAppBytes = s.nextAppBytes := rfl
@[simp] theorem refuse_cells (s : State) (r : RefuseReason) : (s.refuse r).cells = s.cells := rfl
@[simp] theorem refuse_nowMs (s : State) (r : RefuseReason) : (s.refuse r).nowMs = s.nowMs := rfl
@[simp] theorem refuse_ring (s : State) (r : RefuseReason) : (s.refuse r).ring = s.ring := rfl
@[simp] theorem refuse_aEn (s : State) (r : RefuseReason) : (s.refuse r).aEn = s.aEn := rfl
@[simp] theorem refuse_aFetch (s : State) (r : RefuseReason) : (s.refuse r).aFetch = s.aFetch := rfl
@[simp] theorem refuse_aXfer (s : State) (r : RefuseReason) : (s.refuse r).aXfer = s.aXfer := rfl
@[simp] theorem refuse_pfq (s : State) (r : RefuseReason) : (s.refuse r).pfq = s.pfq := rfl
@[simp] theorem refuse_aHtie (s : State) (r : RefuseReason) : (s.refuse r).aHtie = s.aHtie := rfl
@[simp] theorem refuse_aTcie (s : State) (r : RefuseReason) : (s.refuse r).aTcie = s.aTcie := rfl
@[simp] theorem refuse_htA (s : State) (r : RefuseReason) : (s.refuse r).htA = s.htA := rfl
@[simp] theorem refuse_tcA (s : State) (r : RefuseReason) : (s.refuse r).tcA = s.tcA := rfl
@[simp] theorem refuse_aReq (s : State) (r : RefuseReason) : (s.refuse r).aReq = s.aReq := rfl
@[simp] theorem refuse_bEn (s : State) (r : RefuseReason) : (s.refuse r).bEn = s.bEn := rfl
@[simp] theorem refuse_bCnt (s : State) (r : RefuseReason) : (s.refuse r).bCnt = s.bCnt := rfl
@[simp] theorem refuse_bTcie (s : State) (r : RefuseReason) : (s.refuse r).bTcie = s.bTcie := rfl
@[simp] theorem refuse_tcB (s : State) (r : RefuseReason) : (s.refuse r).tcB = s.tcB := rfl
@[simp] theorem refuse_bReq (s : State) (r : RefuseReason) : (s.refuse r).bReq = s.bReq := rfl
@[simp] theorem refuse_timEn (s : State) (r : RefuseReason) : (s.refuse r).timEn = s.timEn := rfl
@[simp] theorem refuse_timPhase (s : State) (r : RefuseReason) : (s.refuse r).timPhase = s.timPhase := rfl
@[simp] theorem refuse_req (s : State) (r : RefuseReason) : (s.refuse r).req = s.req := rfl
@[simp] theorem refuse_ack (s : State) (r : RefuseReason) : (s.refuse r).ack = s.ack := rfl
@[simp] theorem refuse_gpioMode (s : State) (r : RefuseReason) : (s.refuse r).gpioMode = s.gpioMode := rfl
@[simp] theorem refuse_dataDriven (s : State) (r : RefuseReason) : (s.refuse r).dataDriven = s.dataDriven := rfl
@[simp] theorem refuse_out (s : State) (r : RefuseReason) : (s.refuse r).out = s.out := rfl
@[simp] theorem refuse_irqMask (s : State) (r : RefuseReason) : (s.refuse r).irqMask = s.irqMask := rfl
@[simp] theorem refuse_dataEn (s : State) (r : RefuseReason) : (s.refuse r).dataEn = s.dataEn := rfl
@[simp] theorem refuse_schedEn (s : State) (r : RefuseReason) : (s.refuse r).schedEn = s.schedEn := rfl
@[simp] theorem refuse_configured (s : State) (r : RefuseReason) : (s.refuse r).configured = s.configured := rfl
@[simp] theorem refuse_halted (s : State) (r : RefuseReason) : (s.refuse r).halted = s.halted := rfl
@[simp] theorem refuse_reqLost (s : State) (r : RefuseReason) : (s.refuse r).reqLost = s.reqLost := rfl
@[simp] theorem refuse_refused (s : State) (r : RefuseReason) : (s.refuse r).refused = true := rfl
@[simp] theorem refuse_overrunSeen (s : State) (r : RefuseReason) : (s.refuse r).overrunSeen = s.overrunSeen := rfl
@[simp] theorem refuse_stallSeen (s : State) (r : RefuseReason) : (s.refuse r).stallSeen = s.stallSeen := rfl
@[simp] theorem refuse_log (s : State) (r : RefuseReason) : (s.refuse r).log = s.log := rfl
@[simp] theorem refuse_trace (s : State) (r : RefuseReason) : (s.refuse r).trace = s.trace ++ [.err (.refused r)] := rfl
@[simp] theorem refuse_poisonOut (s : State) (r : RefuseReason) : (s.refuse r).poisonOut = s.poisonOut := rfl
@[simp] theorem refuse_mem (s : State) (r : RefuseReason) : (s.refuse r).mem = s.mem := rfl
@[simp] theorem refuse_run (s : State) (r : RefuseReason) : (s.refuse r).run = s.run := rfl
@[simp] theorem refuse_issuers (s : State) (r : RefuseReason) : (s.refuse r).issuers = s.issuers := rfl

/-! ### logRecord -/

@[simp] theorem logRecord_params (s : State) (k : LogKind) : (s.logRecord k).params = s.params := rfl
@[simp] theorem logRecord_mainPc (s : State) (k : LogKind) : (s.logRecord k).mainPc = s.mainPc := rfl
@[simp] theorem logRecord_dataPc (s : State) (k : LogKind) : (s.logRecord k).dataPc = s.dataPc := rfl
@[simp] theorem logRecord_schedPc (s : State) (k : LogKind) : (s.logRecord k).schedPc = s.schedPc := rfl
@[simp] theorem logRecord_engine (s : State) (k : LogKind) : (s.logRecord k).engine = s.engine := rfl
@[simp] theorem logRecord_appBuf (s : State) (k : LogKind) : (s.logRecord k).appBuf = s.appBuf := rfl
@[simp] theorem logRecord_bytesApp (s : State) (k : LogKind) : (s.logRecord k).bytesApp = s.bytesApp := rfl
@[simp] theorem logRecord_bytesDma (s : State) (k : LogKind) : (s.logRecord k).bytesDma = s.bytesDma := rfl
@[simp] theorem logRecord_scheduledDma (s : State) (k : LogKind) : (s.logRecord k).scheduledDma = s.scheduledDma := rfl
@[simp] theorem logRecord_dmaIdx (s : State) (k : LogKind) : (s.logRecord k).dmaIdx = s.dmaIdx := rfl
@[simp] theorem logRecord_dmaFillto (s : State) (k : LogKind) : (s.logRecord k).dmaFillto = s.dmaFillto := rfl
@[simp] theorem logRecord_incompleteBuf (s : State) (k : LogKind) : (s.logRecord k).incompleteBuf = s.incompleteBuf := rfl
@[simp] theorem logRecord_nextValid (s : State) (k : LogKind) : (s.logRecord k).nextValid = s.nextValid := rfl
@[simp] theorem logRecord_nextAppBuf (s : State) (k : LogKind) : (s.logRecord k).nextAppBuf = s.nextAppBuf := rfl
@[simp] theorem logRecord_nextAppBytes (s : State) (k : LogKind) : (s.logRecord k).nextAppBytes = s.nextAppBytes := rfl
@[simp] theorem logRecord_cells (s : State) (k : LogKind) : (s.logRecord k).cells = s.cells := rfl
@[simp] theorem logRecord_nowMs (s : State) (k : LogKind) : (s.logRecord k).nowMs = s.nowMs := rfl
@[simp] theorem logRecord_ring (s : State) (k : LogKind) : (s.logRecord k).ring = s.ring := rfl
@[simp] theorem logRecord_aEn (s : State) (k : LogKind) : (s.logRecord k).aEn = s.aEn := rfl
@[simp] theorem logRecord_aFetch (s : State) (k : LogKind) : (s.logRecord k).aFetch = s.aFetch := rfl
@[simp] theorem logRecord_aXfer (s : State) (k : LogKind) : (s.logRecord k).aXfer = s.aXfer := rfl
@[simp] theorem logRecord_pfq (s : State) (k : LogKind) : (s.logRecord k).pfq = s.pfq := rfl
@[simp] theorem logRecord_aHtie (s : State) (k : LogKind) : (s.logRecord k).aHtie = s.aHtie := rfl
@[simp] theorem logRecord_aTcie (s : State) (k : LogKind) : (s.logRecord k).aTcie = s.aTcie := rfl
@[simp] theorem logRecord_htA (s : State) (k : LogKind) : (s.logRecord k).htA = s.htA := rfl
@[simp] theorem logRecord_tcA (s : State) (k : LogKind) : (s.logRecord k).tcA = s.tcA := rfl
@[simp] theorem logRecord_aReq (s : State) (k : LogKind) : (s.logRecord k).aReq = s.aReq := rfl
@[simp] theorem logRecord_bEn (s : State) (k : LogKind) : (s.logRecord k).bEn = s.bEn := rfl
@[simp] theorem logRecord_bCnt (s : State) (k : LogKind) : (s.logRecord k).bCnt = s.bCnt := rfl
@[simp] theorem logRecord_bTcie (s : State) (k : LogKind) : (s.logRecord k).bTcie = s.bTcie := rfl
@[simp] theorem logRecord_tcB (s : State) (k : LogKind) : (s.logRecord k).tcB = s.tcB := rfl
@[simp] theorem logRecord_bReq (s : State) (k : LogKind) : (s.logRecord k).bReq = s.bReq := rfl
@[simp] theorem logRecord_timEn (s : State) (k : LogKind) : (s.logRecord k).timEn = s.timEn := rfl
@[simp] theorem logRecord_timPhase (s : State) (k : LogKind) : (s.logRecord k).timPhase = s.timPhase := rfl
@[simp] theorem logRecord_req (s : State) (k : LogKind) : (s.logRecord k).req = s.req := rfl
@[simp] theorem logRecord_ack (s : State) (k : LogKind) : (s.logRecord k).ack = s.ack := rfl
@[simp] theorem logRecord_gpioMode (s : State) (k : LogKind) : (s.logRecord k).gpioMode = s.gpioMode := rfl
@[simp] theorem logRecord_dataDriven (s : State) (k : LogKind) : (s.logRecord k).dataDriven = s.dataDriven := rfl
@[simp] theorem logRecord_out (s : State) (k : LogKind) : (s.logRecord k).out = s.out := rfl
@[simp] theorem logRecord_irqMask (s : State) (k : LogKind) : (s.logRecord k).irqMask = s.irqMask := rfl
@[simp] theorem logRecord_dataEn (s : State) (k : LogKind) : (s.logRecord k).dataEn = s.dataEn := rfl
@[simp] theorem logRecord_schedEn (s : State) (k : LogKind) : (s.logRecord k).schedEn = s.schedEn := rfl
@[simp] theorem logRecord_configured (s : State) (k : LogKind) : (s.logRecord k).configured = s.configured := rfl
@[simp] theorem logRecord_halted (s : State) (k : LogKind) : (s.logRecord k).halted = s.halted := rfl
@[simp] theorem logRecord_reqLost (s : State) (k : LogKind) : (s.logRecord k).reqLost = s.reqLost := rfl
@[simp] theorem logRecord_refused (s : State) (k : LogKind) : (s.logRecord k).refused = s.refused := rfl
@[simp] theorem logRecord_overrunSeen (s : State) (k : LogKind) : (s.logRecord k).overrunSeen = (s.overrunSeen || k == .overrun) := rfl
@[simp] theorem logRecord_stallSeen (s : State) (k : LogKind) : (s.logRecord k).stallSeen = (s.stallSeen || k == .stall) := rfl
@[simp] theorem logRecord_log (s : State) (k : LogKind) : (s.logRecord k).log = s.log ++ [⟨k, s.snap⟩] := rfl
@[simp] theorem logRecord_trace (s : State) (k : LogKind) : (s.logRecord k).trace = s.trace ++ [.log ⟨k, s.snap⟩] := rfl
@[simp] theorem logRecord_poisonOut (s : State) (k : LogKind) : (s.logRecord k).poisonOut = s.poisonOut := rfl
@[simp] theorem logRecord_mem (s : State) (k : LogKind) : (s.logRecord k).mem = s.mem := rfl
@[simp] theorem logRecord_run (s : State) (k : LogKind) : (s.logRecord k).run = s.run := rfl
@[simp] theorem logRecord_issuers (s : State) (k : LogKind) : (s.logRecord k).issuers = s.issuers := rfl

/-! ### setCell -/

@[simp] theorem setCell_params (s : State) (c : Word) : (s.setCell c).params = s.params := rfl
@[simp] theorem setCell_mainPc (s : State) (c : Word) : (s.setCell c).mainPc = s.mainPc := rfl
@[simp] theorem setCell_dataPc (s : State) (c : Word) : (s.setCell c).dataPc = s.dataPc := rfl
@[simp] theorem setCell_schedPc (s : State) (c : Word) : (s.setCell c).schedPc = s.schedPc := rfl
@[simp] theorem setCell_engine (s : State) (c : Word) : (s.setCell c).engine = s.engine := rfl
@[simp] theorem setCell_appBuf (s : State) (c : Word) : (s.setCell c).appBuf = s.appBuf := rfl
@[simp] theorem setCell_bytesApp (s : State) (c : Word) : (s.setCell c).bytesApp = s.bytesApp := rfl
@[simp] theorem setCell_bytesDma (s : State) (c : Word) : (s.setCell c).bytesDma = s.bytesDma := rfl
@[simp] theorem setCell_scheduledDma (s : State) (c : Word) : (s.setCell c).scheduledDma = s.scheduledDma := rfl
@[simp] theorem setCell_dmaIdx (s : State) (c : Word) : (s.setCell c).dmaIdx = s.dmaIdx := rfl
@[simp] theorem setCell_dmaFillto (s : State) (c : Word) : (s.setCell c).dmaFillto = s.dmaFillto := rfl
@[simp] theorem setCell_incompleteBuf (s : State) (c : Word) : (s.setCell c).incompleteBuf = s.incompleteBuf := rfl
@[simp] theorem setCell_nextValid (s : State) (c : Word) : (s.setCell c).nextValid = s.nextValid := rfl
@[simp] theorem setCell_nextAppBuf (s : State) (c : Word) : (s.setCell c).nextAppBuf = s.nextAppBuf := rfl
@[simp] theorem setCell_nextAppBytes (s : State) (c : Word) : (s.setCell c).nextAppBytes = s.nextAppBytes := rfl
@[simp] theorem setCell_cells (s : State) (c : Word) : (s.setCell c).cells = Cells.set s.cells c.toNat := rfl
@[simp] theorem setCell_nowMs (s : State) (c : Word) : (s.setCell c).nowMs = s.nowMs := rfl
@[simp] theorem setCell_ring (s : State) (c : Word) : (s.setCell c).ring = s.ring := rfl
@[simp] theorem setCell_aEn (s : State) (c : Word) : (s.setCell c).aEn = s.aEn := rfl
@[simp] theorem setCell_aFetch (s : State) (c : Word) : (s.setCell c).aFetch = s.aFetch := rfl
@[simp] theorem setCell_aXfer (s : State) (c : Word) : (s.setCell c).aXfer = s.aXfer := rfl
@[simp] theorem setCell_pfq (s : State) (c : Word) : (s.setCell c).pfq = s.pfq := rfl
@[simp] theorem setCell_aHtie (s : State) (c : Word) : (s.setCell c).aHtie = s.aHtie := rfl
@[simp] theorem setCell_aTcie (s : State) (c : Word) : (s.setCell c).aTcie = s.aTcie := rfl
@[simp] theorem setCell_htA (s : State) (c : Word) : (s.setCell c).htA = s.htA := rfl
@[simp] theorem setCell_tcA (s : State) (c : Word) : (s.setCell c).tcA = s.tcA := rfl
@[simp] theorem setCell_aReq (s : State) (c : Word) : (s.setCell c).aReq = s.aReq := rfl
@[simp] theorem setCell_bEn (s : State) (c : Word) : (s.setCell c).bEn = s.bEn := rfl
@[simp] theorem setCell_bCnt (s : State) (c : Word) : (s.setCell c).bCnt = s.bCnt := rfl
@[simp] theorem setCell_bTcie (s : State) (c : Word) : (s.setCell c).bTcie = s.bTcie := rfl
@[simp] theorem setCell_tcB (s : State) (c : Word) : (s.setCell c).tcB = s.tcB := rfl
@[simp] theorem setCell_bReq (s : State) (c : Word) : (s.setCell c).bReq = s.bReq := rfl
@[simp] theorem setCell_timEn (s : State) (c : Word) : (s.setCell c).timEn = s.timEn := rfl
@[simp] theorem setCell_timPhase (s : State) (c : Word) : (s.setCell c).timPhase = s.timPhase := rfl
@[simp] theorem setCell_req (s : State) (c : Word) : (s.setCell c).req = s.req := rfl
@[simp] theorem setCell_ack (s : State) (c : Word) : (s.setCell c).ack = s.ack := rfl
@[simp] theorem setCell_gpioMode (s : State) (c : Word) : (s.setCell c).gpioMode = s.gpioMode := rfl
@[simp] theorem setCell_dataDriven (s : State) (c : Word) : (s.setCell c).dataDriven = s.dataDriven := rfl
@[simp] theorem setCell_out (s : State) (c : Word) : (s.setCell c).out = s.out := rfl
@[simp] theorem setCell_irqMask (s : State) (c : Word) : (s.setCell c).irqMask = s.irqMask := rfl
@[simp] theorem setCell_dataEn (s : State) (c : Word) : (s.setCell c).dataEn = s.dataEn := rfl
@[simp] theorem setCell_schedEn (s : State) (c : Word) : (s.setCell c).schedEn = s.schedEn := rfl
@[simp] theorem setCell_configured (s : State) (c : Word) : (s.setCell c).configured = s.configured := rfl
@[simp] theorem setCell_halted (s : State) (c : Word) : (s.setCell c).halted = s.halted := rfl
@[simp] theorem setCell_reqLost (s : State) (c : Word) : (s.setCell c).reqLost = s.reqLost := rfl
@[simp] theorem setCell_refused (s : State) (c : Word) : (s.setCell c).refused = s.refused := rfl
@[simp] theorem setCell_overrunSeen (s : State) (c : Word) : (s.setCell c).overrunSeen = s.overrunSeen := rfl
@[simp] theorem setCell_stallSeen (s : State) (c : Word) : (s.setCell c).stallSeen = s.stallSeen := rfl
@[simp] theorem setCell_log (s : State) (c : Word) : (s.setCell c).log = s.log := rfl
@[simp] theorem setCell_trace (s : State) (c : Word) : (s.setCell c).trace = s.trace := rfl
@[simp] theorem setCell_poisonOut (s : State) (c : Word) : (s.setCell c).poisonOut = s.poisonOut := rfl
@[simp] theorem setCell_mem (s : State) (c : Word) : (s.setCell c).mem = s.mem := rfl
@[simp] theorem setCell_run (s : State) (c : Word) : (s.setCell c).run = s.run := rfl
@[simp] theorem setCell_issuers (s : State) (c : Word) : (s.setCell c).issuers = s.issuers := rfl

/-! ### hostStore -/

@[simp] theorem hostStore_params (s : State) (a : Word) (b : Byte) : (s.hostStore a b).params = s.params := rfl
@[simp] theorem hostStore_mainPc (s : State) (a : Word) (b : Byte) : (s.hostStore a b).mainPc = s.mainPc := rfl
@[simp] theorem hostStore_dataPc (s : State) (a : Word) (b : Byte) : (s.hostStore a b).dataPc = s.dataPc := rfl
@[simp] theorem hostStore_schedPc (s : State) (a : Word) (b : Byte) : (s.hostStore a b).schedPc = s.schedPc := rfl
@[simp] theorem hostStore_engine (s : State) (a : Word) (b : Byte) : (s.hostStore a b).engine = s.engine := rfl
@[simp] theorem hostStore_appBuf (s : State) (a : Word) (b : Byte) : (s.hostStore a b).appBuf = s.appBuf := rfl
@[simp] theorem hostStore_bytesApp (s : State) (a : Word) (b : Byte) : (s.hostStore a b).bytesApp = s.bytesApp := rfl
@[simp] theorem hostStore_bytesDma (s : State) (a : Word) (b : Byte) : (s.hostStore a b).bytesDma = s.bytesDma := rfl
@[simp] theorem hostStore_scheduledDma (s : State) (a : Word) (b : Byte) : (s.hostStore a b).scheduledDma = s.scheduledDma := rfl
@[simp] theorem hostStore_dmaIdx (s : State) (a : Word) (b : Byte) : (s.hostStore a b).dmaIdx = s.dmaIdx := rfl
@[simp] theorem hostStore_dmaFillto (s : State) (a : Word) (b : Byte) : (s.hostStore a b).dmaFillto = s.dmaFillto := rfl
@[simp] theorem hostStore_incompleteBuf (s : State) (a : Word) (b : Byte) : (s.hostStore a b).incompleteBuf = s.incompleteBuf := rfl
@[simp] theorem hostStore_nextValid (s : State) (a : Word) (b : Byte) : (s.hostStore a b).nextValid = s.nextValid := rfl
@[simp] theorem hostStore_nextAppBuf (s : State) (a : Word) (b : Byte) : (s.hostStore a b).nextAppBuf = s.nextAppBuf := rfl
@[simp] theorem hostStore_nextAppBytes (s : State) (a : Word) (b : Byte) : (s.hostStore a b).nextAppBytes = s.nextAppBytes := rfl
@[simp] theorem hostStore_cells (s : State) (a : Word) (b : Byte) : (s.hostStore a b).cells = s.cells := rfl
@[simp] theorem hostStore_nowMs (s : State) (a : Word) (b : Byte) : (s.hostStore a b).nowMs = s.nowMs := rfl
@[simp] theorem hostStore_ring (s : State) (a : Word) (b : Byte) : (s.hostStore a b).ring = s.ring := rfl
@[simp] theorem hostStore_aEn (s : State) (a : Word) (b : Byte) : (s.hostStore a b).aEn = s.aEn := rfl
@[simp] theorem hostStore_aFetch (s : State) (a : Word) (b : Byte) : (s.hostStore a b).aFetch = s.aFetch := rfl
@[simp] theorem hostStore_aXfer (s : State) (a : Word) (b : Byte) : (s.hostStore a b).aXfer = s.aXfer := rfl
@[simp] theorem hostStore_pfq (s : State) (a : Word) (b : Byte) : (s.hostStore a b).pfq = s.pfq := rfl
@[simp] theorem hostStore_aHtie (s : State) (a : Word) (b : Byte) : (s.hostStore a b).aHtie = s.aHtie := rfl
@[simp] theorem hostStore_aTcie (s : State) (a : Word) (b : Byte) : (s.hostStore a b).aTcie = s.aTcie := rfl
@[simp] theorem hostStore_htA (s : State) (a : Word) (b : Byte) : (s.hostStore a b).htA = s.htA := rfl
@[simp] theorem hostStore_tcA (s : State) (a : Word) (b : Byte) : (s.hostStore a b).tcA = s.tcA := rfl
@[simp] theorem hostStore_aReq (s : State) (a : Word) (b : Byte) : (s.hostStore a b).aReq = s.aReq := rfl
@[simp] theorem hostStore_bEn (s : State) (a : Word) (b : Byte) : (s.hostStore a b).bEn = s.bEn := rfl
@[simp] theorem hostStore_bCnt (s : State) (a : Word) (b : Byte) : (s.hostStore a b).bCnt = s.bCnt := rfl
@[simp] theorem hostStore_bTcie (s : State) (a : Word) (b : Byte) : (s.hostStore a b).bTcie = s.bTcie := rfl
@[simp] theorem hostStore_tcB (s : State) (a : Word) (b : Byte) : (s.hostStore a b).tcB = s.tcB := rfl
@[simp] theorem hostStore_bReq (s : State) (a : Word) (b : Byte) : (s.hostStore a b).bReq = s.bReq := rfl
@[simp] theorem hostStore_timEn (s : State) (a : Word) (b : Byte) : (s.hostStore a b).timEn = s.timEn := rfl
@[simp] theorem hostStore_timPhase (s : State) (a : Word) (b : Byte) : (s.hostStore a b).timPhase = s.timPhase := rfl
@[simp] theorem hostStore_req (s : State) (a : Word) (b : Byte) : (s.hostStore a b).req = s.req := rfl
@[simp] theorem hostStore_ack (s : State) (a : Word) (b : Byte) : (s.hostStore a b).ack = s.ack := rfl
@[simp] theorem hostStore_gpioMode (s : State) (a : Word) (b : Byte) : (s.hostStore a b).gpioMode = s.gpioMode := rfl
@[simp] theorem hostStore_dataDriven (s : State) (a : Word) (b : Byte) : (s.hostStore a b).dataDriven = s.dataDriven := rfl
@[simp] theorem hostStore_out (s : State) (a : Word) (b : Byte) : (s.hostStore a b).out = s.out := rfl
@[simp] theorem hostStore_irqMask (s : State) (a : Word) (b : Byte) : (s.hostStore a b).irqMask = s.irqMask := rfl
@[simp] theorem hostStore_dataEn (s : State) (a : Word) (b : Byte) : (s.hostStore a b).dataEn = s.dataEn := rfl
@[simp] theorem hostStore_schedEn (s : State) (a : Word) (b : Byte) : (s.hostStore a b).schedEn = s.schedEn := rfl
@[simp] theorem hostStore_configured (s : State) (a : Word) (b : Byte) : (s.hostStore a b).configured = s.configured := rfl
@[simp] theorem hostStore_halted (s : State) (a : Word) (b : Byte) : (s.hostStore a b).halted = s.halted := rfl
@[simp] theorem hostStore_reqLost (s : State) (a : Word) (b : Byte) : (s.hostStore a b).reqLost = s.reqLost := rfl
@[simp] theorem hostStore_refused (s : State) (a : Word) (b : Byte) : (s.hostStore a b).refused = s.refused := rfl
@[simp] theorem hostStore_overrunSeen (s : State) (a : Word) (b : Byte) : (s.hostStore a b).overrunSeen = s.overrunSeen := rfl
@[simp] theorem hostStore_stallSeen (s : State) (a : Word) (b : Byte) : (s.hostStore a b).stallSeen = s.stallSeen := rfl
@[simp] theorem hostStore_log (s : State) (a : Word) (b : Byte) : (s.hostStore a b).log = s.log := rfl
@[simp] theorem hostStore_trace (s : State) (a : Word) (b : Byte) : (s.hostStore a b).trace = s.trace := rfl
@[simp] theorem hostStore_poisonOut (s : State) (a : Word) (b : Byte) : (s.hostStore a b).poisonOut = s.poisonOut := rfl
@[simp] theorem hostStore_mem (s : State) (a : Word) (b : Byte) : (s.hostStore a b).mem = Memory.write s.mem a.toNat b := rfl
@[simp] theorem hostStore_run (s : State) (a : Word) (b : Byte) : (s.hostStore a b).run = s.run := rfl
@[simp] theorem hostStore_issuers (s : State) (a : Word) (b : Byte) : (s.hostStore a b).issuers = s.issuers := rfl

/-! ### taken -/

@[simp] theorem taken_params (s : State) (r : List Byte) : (s.taken r).params = s.params := rfl
@[simp] theorem taken_mainPc (s : State) (r : List Byte) : (s.taken r).mainPc = s.mainPc := rfl
@[simp] theorem taken_dataPc (s : State) (r : List Byte) : (s.taken r).dataPc = s.dataPc := rfl
@[simp] theorem taken_schedPc (s : State) (r : List Byte) : (s.taken r).schedPc = s.schedPc := rfl
@[simp] theorem taken_engine (s : State) (r : List Byte) : (s.taken r).engine = s.engine := rfl
@[simp] theorem taken_appBuf (s : State) (r : List Byte) : (s.taken r).appBuf = s.appBuf := rfl
@[simp] theorem taken_bytesApp (s : State) (r : List Byte) : (s.taken r).bytesApp = s.bytesApp := rfl
@[simp] theorem taken_bytesDma (s : State) (r : List Byte) : (s.taken r).bytesDma = s.bytesDma := rfl
@[simp] theorem taken_scheduledDma (s : State) (r : List Byte) : (s.taken r).scheduledDma = s.scheduledDma := rfl
@[simp] theorem taken_dmaIdx (s : State) (r : List Byte) : (s.taken r).dmaIdx = s.dmaIdx := rfl
@[simp] theorem taken_dmaFillto (s : State) (r : List Byte) : (s.taken r).dmaFillto = s.dmaFillto := rfl
@[simp] theorem taken_incompleteBuf (s : State) (r : List Byte) : (s.taken r).incompleteBuf = s.incompleteBuf := rfl
@[simp] theorem taken_nextValid (s : State) (r : List Byte) : (s.taken r).nextValid = s.nextValid := rfl
@[simp] theorem taken_nextAppBuf (s : State) (r : List Byte) : (s.taken r).nextAppBuf = s.nextAppBuf := rfl
@[simp] theorem taken_nextAppBytes (s : State) (r : List Byte) : (s.taken r).nextAppBytes = s.nextAppBytes := rfl
@[simp] theorem taken_cells (s : State) (r : List Byte) : (s.taken r).cells = s.cells := rfl
@[simp] theorem taken_nowMs (s : State) (r : List Byte) : (s.taken r).nowMs = s.nowMs := rfl
@[simp] theorem taken_ring (s : State) (r : List Byte) : (s.taken r).ring = s.ring := rfl
@[simp] theorem taken_aEn (s : State) (r : List Byte) : (s.taken r).aEn = s.aEn := rfl
@[simp] theorem taken_aFetch (s : State) (r : List Byte) : (s.taken r).aFetch = s.aFetch := rfl
@[simp] theorem taken_aXfer (s : State) (r : List Byte) : (s.taken r).aXfer = s.aXfer := rfl
@[simp] theorem taken_pfq (s : State) (r : List Byte) : (s.taken r).pfq = s.pfq := rfl
@[simp] theorem taken_aHtie (s : State) (r : List Byte) : (s.taken r).aHtie = s.aHtie := rfl
@[simp] theorem taken_aTcie (s : State) (r : List Byte) : (s.taken r).aTcie = s.aTcie := rfl
@[simp] theorem taken_htA (s : State) (r : List Byte) : (s.taken r).htA = s.htA := rfl
@[simp] theorem taken_tcA (s : State) (r : List Byte) : (s.taken r).tcA = s.tcA := rfl
@[simp] theorem taken_aReq (s : State) (r : List Byte) : (s.taken r).aReq = s.aReq := rfl
@[simp] theorem taken_bEn (s : State) (r : List Byte) : (s.taken r).bEn = s.bEn := rfl
@[simp] theorem taken_bCnt (s : State) (r : List Byte) : (s.taken r).bCnt = s.bCnt := rfl
@[simp] theorem taken_bTcie (s : State) (r : List Byte) : (s.taken r).bTcie = s.bTcie := rfl
@[simp] theorem taken_tcB (s : State) (r : List Byte) : (s.taken r).tcB = s.tcB := rfl
@[simp] theorem taken_bReq (s : State) (r : List Byte) : (s.taken r).bReq = s.bReq := rfl
@[simp] theorem taken_timEn (s : State) (r : List Byte) : (s.taken r).timEn = s.timEn := rfl
@[simp] theorem taken_timPhase (s : State) (r : List Byte) : (s.taken r).timPhase = s.timPhase := rfl
@[simp] theorem taken_req (s : State) (r : List Byte) : (s.taken r).req = s.req := rfl
@[simp] theorem taken_ack (s : State) (r : List Byte) : (s.taken r).ack = s.ack := rfl
@[simp] theorem taken_gpioMode (s : State) (r : List Byte) : (s.taken r).gpioMode = s.gpioMode := rfl
@[simp] theorem taken_dataDriven (s : State) (r : List Byte) : (s.taken r).dataDriven = s.dataDriven := rfl
@[simp] theorem taken_out (s : State) (r : List Byte) : (s.taken r).out = s.out := rfl
@[simp] theorem taken_irqMask (s : State) (r : List Byte) : (s.taken r).irqMask = s.irqMask := rfl
@[simp] theorem taken_dataEn (s : State) (r : List Byte) : (s.taken r).dataEn = s.dataEn := rfl
@[simp] theorem taken_schedEn (s : State) (r : List Byte) : (s.taken r).schedEn = s.schedEn := rfl
@[simp] theorem taken_configured (s : State) (r : List Byte) : (s.taken r).configured = s.configured := rfl
@[simp] theorem taken_halted (s : State) (r : List Byte) : (s.taken r).halted = s.halted := rfl
@[simp] theorem taken_reqLost (s : State) (r : List Byte) : (s.taken r).reqLost = s.reqLost := rfl
@[simp] theorem taken_refused (s : State) (r : List Byte) : (s.taken r).refused = s.refused := rfl
@[simp] theorem taken_overrunSeen (s : State) (r : List Byte) : (s.taken r).overrunSeen = s.overrunSeen := rfl
@[simp] theorem taken_stallSeen (s : State) (r : List Byte) : (s.taken r).stallSeen = s.stallSeen := rfl
@[simp] theorem taken_log (s : State) (r : List Byte) : (s.taken r).log = s.log := rfl
@[simp] theorem taken_trace (s : State) (r : List Byte) : (s.taken r).trace = s.trace := rfl
@[simp] theorem taken_poisonOut (s : State) (r : List Byte) : (s.taken r).poisonOut = s.poisonOut := rfl
@[simp] theorem taken_mem (s : State) (r : List Byte) : (s.taken r).mem = s.mem := rfl
@[simp] theorem taken_run (s : State) (r : List Byte) : (s.taken r).run = r := rfl
@[simp] theorem taken_issuers (s : State) (r : List Byte) : (s.taken r).issuers = s.issuers.tail := rfl

/-! ### withRun -/

@[simp] theorem withRun_params (s : State) (r : List Byte) : (s.withRun r).params = s.params := rfl
@[simp] theorem withRun_mainPc (s : State) (r : List Byte) : (s.withRun r).mainPc = s.mainPc := rfl
@[simp] theorem withRun_dataPc (s : State) (r : List Byte) : (s.withRun r).dataPc = s.dataPc := rfl
@[simp] theorem withRun_schedPc (s : State) (r : List Byte) : (s.withRun r).schedPc = s.schedPc := rfl
@[simp] theorem withRun_engine (s : State) (r : List Byte) : (s.withRun r).engine = s.engine := rfl
@[simp] theorem withRun_appBuf (s : State) (r : List Byte) : (s.withRun r).appBuf = s.appBuf := rfl
@[simp] theorem withRun_bytesApp (s : State) (r : List Byte) : (s.withRun r).bytesApp = s.bytesApp := rfl
@[simp] theorem withRun_bytesDma (s : State) (r : List Byte) : (s.withRun r).bytesDma = s.bytesDma := rfl
@[simp] theorem withRun_scheduledDma (s : State) (r : List Byte) : (s.withRun r).scheduledDma = s.scheduledDma := rfl
@[simp] theorem withRun_dmaIdx (s : State) (r : List Byte) : (s.withRun r).dmaIdx = s.dmaIdx := rfl
@[simp] theorem withRun_dmaFillto (s : State) (r : List Byte) : (s.withRun r).dmaFillto = s.dmaFillto := rfl
@[simp] theorem withRun_incompleteBuf (s : State) (r : List Byte) : (s.withRun r).incompleteBuf = s.incompleteBuf := rfl
@[simp] theorem withRun_nextValid (s : State) (r : List Byte) : (s.withRun r).nextValid = s.nextValid := rfl
@[simp] theorem withRun_nextAppBuf (s : State) (r : List Byte) : (s.withRun r).nextAppBuf = s.nextAppBuf := rfl
@[simp] theorem withRun_nextAppBytes (s : State) (r : List Byte) : (s.withRun r).nextAppBytes = s.nextAppBytes := rfl
@[simp] theorem withRun_cells (s : State) (r : List Byte) : (s.withRun r).cells = s.cells := rfl
@[simp] theorem withRun_nowMs (s : State) (r : List Byte) : (s.withRun r).nowMs = s.nowMs := rfl
@[simp] theorem withRun_ring (s : State) (r : List Byte) : (s.withRun r).ring = s.ring := rfl
@[simp] theorem withRun_aEn (s : State) (r : List Byte) : (s.withRun r).aEn = s.aEn := rfl
@[simp] theorem withRun_aFetch (s : State) (r : List Byte) : (s.withRun r).aFetch = s.aFetch := rfl
@[simp] theorem withRun_aXfer (s : State) (r : List Byte) : (s.withRun r).aXfer = s.aXfer := rfl
@[simp] theorem withRun_pfq (s : State) (r : List Byte) : (s.withRun r).pfq = s.pfq := rfl
@[simp] theorem withRun_aHtie (s : State) (r : List Byte) : (s.withRun r).aHtie = s.aHtie := rfl
@[simp] theorem withRun_aTcie (s : State) (r : List Byte) : (s.withRun r).aTcie = s.aTcie := rfl
@[simp] theorem withRun_htA (s : State) (r : List Byte) : (s.withRun r).htA = s.htA := rfl
@[simp] theorem withRun_tcA (s : State) (r : List Byte) : (s.withRun r).tcA = s.tcA := rfl
@[simp] theorem withRun_aReq (s : State) (r : List Byte) : (s.withRun r).aReq = s.aReq := rfl
@[simp] theorem withRun_bEn (s : State) (r : List Byte) : (s.withRun r).bEn = s.bEn := rfl
@[simp] theorem withRun_bCnt (s : State) (r : List Byte) : (s.withRun r).bCnt = s.bCnt := rfl
@[simp] theorem withRun_bTcie (s : State) (r : List Byte) : (s.withRun r).bTcie = s.bTcie := rfl
@[simp] theorem withRun_tcB (s : State) (r : List Byte) : (s.withRun r).tcB = s.tcB := rfl
@[simp] theorem withRun_bReq (s : State) (r : List Byte) : (s.withRun r).bReq = s.bReq := rfl
@[simp] theorem withRun_timEn (s : State) (r : List Byte) : (s.withRun r).timEn = s.timEn := rfl
@[simp] theorem withRun_timPhase (s : State) (r : List Byte) : (s.withRun r).timPhase = s.timPhase := rfl
@[simp] theorem withRun_req (s : State) (r : List Byte) : (s.withRun r).req = s.req := rfl
@[simp] theorem withRun_ack (s : State) (r : List Byte) : (s.withRun r).ack = s.ack := rfl
@[simp] theorem withRun_gpioMode (s : State) (r : List Byte) : (s.withRun r).gpioMode = s.gpioMode := rfl
@[simp] theorem withRun_dataDriven (s : State) (r : List Byte) : (s.withRun r).dataDriven = s.dataDriven := rfl
@[simp] theorem withRun_out (s : State) (r : List Byte) : (s.withRun r).out = s.out := rfl
@[simp] theorem withRun_irqMask (s : State) (r : List Byte) : (s.withRun r).irqMask = s.irqMask := rfl
@[simp] theorem withRun_dataEn (s : State) (r : List Byte) : (s.withRun r).dataEn = s.dataEn := rfl
@[simp] theorem withRun_schedEn (s : State) (r : List Byte) : (s.withRun r).schedEn = s.schedEn := rfl
@[simp] theorem withRun_configured (s : State) (r : List Byte) : (s.withRun r).configured = s.configured := rfl
@[simp] theorem withRun_halted (s : State) (r : List Byte) : (s.withRun r).halted = s.halted := rfl
@[simp] theorem withRun_reqLost (s : State) (r : List Byte) : (s.withRun r).reqLost = s.reqLost := rfl
@[simp] theorem withRun_refused (s : State) (r : List Byte) : (s.withRun r).refused = s.refused := rfl
@[simp] theorem withRun_overrunSeen (s : State) (r : List Byte) : (s.withRun r).overrunSeen = s.overrunSeen := rfl
@[simp] theorem withRun_stallSeen (s : State) (r : List Byte) : (s.withRun r).stallSeen = s.stallSeen := rfl
@[simp] theorem withRun_log (s : State) (r : List Byte) : (s.withRun r).log = s.log := rfl
@[simp] theorem withRun_trace (s : State) (r : List Byte) : (s.withRun r).trace = s.trace := rfl
@[simp] theorem withRun_poisonOut (s : State) (r : List Byte) : (s.withRun r).poisonOut = s.poisonOut := rfl
@[simp] theorem withRun_mem (s : State) (r : List Byte) : (s.withRun r).mem = s.mem := rfl
@[simp] theorem withRun_run (s : State) (r : List Byte) : (s.withRun r).run = r := rfl
@[simp] theorem withRun_issuers (s : State) (r : List Byte) : (s.withRun r).issuers = [] := rfl

/-! ### flagIncomplete -/

@[simp] theorem flagIncomplete_params (s : State) : s.flagIncomplete.params = s.params := rfl
@[simp] theorem flagIncomplete_mainPc (s : State) : s.flagIncomplete.mainPc = s.mainPc := rfl
@[simp] theorem flagIncomplete_dataPc (s : State) : s.flagIncomplete.dataPc = s.dataPc := rfl
@[simp] theorem flagIncomplete_schedPc (s : State) : s.flagIncomplete.schedPc = s.schedPc := rfl
@[simp] theorem flagIncomplete_engine (s : State) : s.flagIncomplete.engine = s.engine := rfl
@[simp] theorem flagIncomplete_appBuf (s : State) : s.flagIncomplete.appBuf = s.appBuf := rfl
@[simp] theorem flagIncomplete_bytesApp (s : State) : s.flagIncomplete.bytesApp = s.bytesApp := rfl
@[simp] theorem flagIncomplete_bytesDma (s : State) : s.flagIncomplete.bytesDma = s.bytesDma := rfl
@[simp] theorem flagIncomplete_scheduledDma (s : State) : s.flagIncomplete.scheduledDma = s.scheduledDma := rfl
@[simp] theorem flagIncomplete_dmaIdx (s : State) : s.flagIncomplete.dmaIdx = s.dmaIdx := rfl
@[simp] theorem flagIncomplete_dmaFillto (s : State) : s.flagIncomplete.dmaFillto = s.dmaFillto := rfl
@[simp] theorem flagIncomplete_incompleteBuf (s : State) : s.flagIncomplete.incompleteBuf = (s.incompleteBuf || s.dmaIdx != s.dmaFillto) := rfl
@[simp] theorem flagIncomplete_nextValid (s : State) : s.flagIncomplete.nextValid = s.nextValid := rfl
@[simp] theorem flagIncomplete_nextAppBuf (s : State) : s.flagIncomplete.nextAppBuf = s.nextAppBuf := rfl
@[simp] theorem flagIncomplete_nextAppBytes (s : State) : s.flagIncomplete.nextAppBytes = s.nextAppBytes := rfl
@[simp] theorem flagIncomplete_cells (s : State) : s.flagIncomplete.cells = s.cells := rfl
@[simp] theorem flagIncomplete_nowMs (s : State) : s.flagIncomplete.nowMs = s.nowMs := rfl
@[simp] theorem flagIncomplete_ring (s : State) : s.flagIncomplete.ring = s.ring := rfl
@[simp] theorem flagIncomplete_aEn (s : State) : s.flagIncomplete.aEn = s.aEn := rfl
@[simp] theorem flagIncomplete_aFetch (s : State) : s.flagIncomplete.aFetch = s.aFetch := rfl
@[simp] theorem flagIncomplete_aXfer (s : State) : s.flagIncomplete.aXfer = s.aXfer := rfl
@[simp] theorem flagIncomplete_pfq (s : State) : s.flagIncomplete.pfq = s.pfq := rfl
@[simp] theorem flagIncomplete_aHtie (s : State) : s.flagIncomplete.aHtie = s.aHtie := rfl
@[simp] theorem flagIncomplete_aTcie (s : State) : s.flagIncomplete.aTcie = s.aTcie := rfl
@[simp] theorem flagIncomplete_htA (s : State) : s.flagIncomplete.htA = s.htA := rfl
@[simp] theorem flagIncomplete_tcA (s : State) : s.flagIncomplete.tcA = s.tcA := rfl
@[simp] theorem flagIncomplete_aReq (s : State) : s.flagIncomplete.aReq = s.aReq := rfl
@[simp] theorem flagIncomplete_bEn (s : State) : s.flagIncomplete.bEn = s.bEn := rfl
@[simp] theorem flagIncomplete_bCnt (s : State) : s.flagIncomplete.bCnt = s.bCnt := rfl
@[simp] theorem flagIncomplete_bTcie (s : State) : s.flagIncomplete.bTcie = s.bTcie := rfl
@[simp] theorem flagIncomplete_tcB (s : State) : s.flagIncomplete.tcB = s.tcB := rfl
@[simp] theorem flagIncomplete_bReq (s : State) : s.flagIncomplete.bReq = s.bReq := rfl
@[simp] theorem flagIncomplete_timEn (s : State) : s.flagIncomplete.timEn = s.timEn := rfl
@[simp] theorem flagIncomplete_timPhase (s : State) : s.flagIncomplete.timPhase = s.timPhase := rfl
@[simp] theorem flagIncomplete_req (s : State) : s.flagIncomplete.req = s.req := rfl
@[simp] theorem flagIncomplete_ack (s : State) : s.flagIncomplete.ack = s.ack := rfl
@[simp] theorem flagIncomplete_gpioMode (s : State) : s.flagIncomplete.gpioMode = s.gpioMode := rfl
@[simp] theorem flagIncomplete_dataDriven (s : State) : s.flagIncomplete.dataDriven = s.dataDriven := rfl
@[simp] theorem flagIncomplete_out (s : State) : s.flagIncomplete.out = s.out := rfl
@[simp] theorem flagIncomplete_irqMask (s : State) : s.flagIncomplete.irqMask = s.irqMask := rfl
@[simp] theorem flagIncomplete_dataEn (s : State) : s.flagIncomplete.dataEn = s.dataEn := rfl
@[simp] theorem flagIncomplete_schedEn (s : State) : s.flagIncomplete.schedEn = s.schedEn := rfl
@[simp] theorem flagIncomplete_configured (s : State) : s.flagIncomplete.configured = s.configured := rfl
@[simp] theorem flagIncomplete_halted (s : State) : s.flagIncomplete.halted = s.halted := rfl
@[simp] theorem flagIncomplete_reqLost (s : State) : s.flagIncomplete.reqLost = s.reqLost := rfl
@[simp] theorem flagIncomplete_refused (s : State) : s.flagIncomplete.refused = s.refused := rfl
@[simp] theorem flagIncomplete_overrunSeen (s : State) : s.flagIncomplete.overrunSeen = s.overrunSeen := rfl
@[simp] theorem flagIncomplete_stallSeen (s : State) : s.flagIncomplete.stallSeen = s.stallSeen := rfl
@[simp] theorem flagIncomplete_log (s : State) : s.flagIncomplete.log = s.log := rfl
@[simp] theorem flagIncomplete_trace (s : State) : s.flagIncomplete.trace = s.trace := rfl
@[simp] theorem flagIncomplete_poisonOut (s : State) : s.flagIncomplete.poisonOut = s.poisonOut := rfl
@[simp] theorem flagIncomplete_mem (s : State) : s.flagIncomplete.mem = s.mem := rfl
@[simp] theorem flagIncomplete_run (s : State) : s.flagIncomplete.run = s.run := rfl
@[simp] theorem flagIncomplete_issuers (s : State) : s.flagIncomplete.issuers = s.issuers := rfl

/-! ### splice -/

@[simp] theorem splice_params (s : State) : (splice s).params = s.params := rfl
@[simp] theorem splice_mainPc (s : State) : (splice s).mainPc = s.mainPc := rfl
@[simp] theorem splice_dataPc (s : State) : (splice s).dataPc = s.dataPc := rfl
@[simp] theorem splice_schedPc (s : State) : (splice s).schedPc = s.schedPc := rfl
@[simp] theorem splice_engine (s : State) : (splice s).engine = s.engine := rfl
@[simp] theorem splice_appBuf (s : State) : (splice s).appBuf = s.nextAppBuf := rfl
@[simp] theorem splice_bytesApp (s : State) : (splice s).bytesApp = s.nextAppBytes := rfl
@[simp] theorem splice_bytesDma (s : State) : (splice s).bytesDma = 0 := rfl
@[simp] theorem splice_scheduledDma (s : State) : (splice s).scheduledDma = 0 := rfl
@[simp] theorem splice_dmaIdx (s : State) : (splice s).dmaIdx = s.dmaIdx := rfl
@[simp] theorem splice_dmaFillto (s : State) : (splice s).dmaFillto = s.dmaFillto := rfl
@[simp] theorem splice_incompleteBuf (s : State) : (splice s).incompleteBuf = s.incompleteBuf := rfl
@[simp] theorem splice_nextValid (s : State) : (splice s).nextValid = false := rfl
@[simp] theorem splice_nextAppBuf (s : State) : (splice s).nextAppBuf = 0 := rfl
@[simp] theorem splice_nextAppBytes (s : State) : (splice s).nextAppBytes = 0 := rfl
@[simp] theorem splice_cells (s : State) : (splice s).cells = s.cells := rfl
@[simp] theorem splice_nowMs (s : State) : (splice s).nowMs = s.nowMs := rfl
@[simp] theorem splice_ring (s : State) : (splice s).ring = s.ring := rfl
@[simp] theorem splice_aEn (s : State) : (splice s).aEn = s.aEn := rfl
@[simp] theorem splice_aFetch (s : State) : (splice s).aFetch = s.aFetch := rfl
@[simp] theorem splice_aXfer (s : State) : (splice s).aXfer = s.aXfer := rfl
@[simp] theorem splice_pfq (s : State) : (splice s).pfq = s.pfq := rfl
@[simp] theorem splice_aHtie (s : State) : (splice s).aHtie = s.aHtie := rfl
@[simp] theorem splice_aTcie (s : State) : (splice s).aTcie = s.aTcie := rfl
@[simp] theorem splice_htA (s : State) : (splice s).htA = s.htA := rfl
@[simp] theorem splice_tcA (s : State) : (splice s).tcA = s.tcA := rfl
@[simp] theorem splice_aReq (s : State) : (splice s).aReq = s.aReq := rfl
@[simp] theorem splice_bEn (s : State) : (splice s).bEn = s.bEn := rfl
@[simp] theorem splice_bCnt (s : State) : (splice s).bCnt = s.bCnt := rfl
@[simp] theorem splice_bTcie (s : State) : (splice s).bTcie = s.bTcie := rfl
@[simp] theorem splice_tcB (s : State) : (splice s).tcB = s.tcB := rfl
@[simp] theorem splice_bReq (s : State) : (splice s).bReq = s.bReq := rfl
@[simp] theorem splice_timEn (s : State) : (splice s).timEn = s.timEn := rfl
@[simp] theorem splice_timPhase (s : State) : (splice s).timPhase = s.timPhase := rfl
@[simp] theorem splice_req (s : State) : (splice s).req = s.req := rfl
@[simp] theorem splice_ack (s : State) : (splice s).ack = s.ack := rfl
@[simp] theorem splice_gpioMode (s : State) : (splice s).gpioMode = s.gpioMode := rfl
@[simp] theorem splice_dataDriven (s : State) : (splice s).dataDriven = s.dataDriven := rfl
@[simp] theorem splice_out (s : State) : (splice s).out = s.out := rfl
@[simp] theorem splice_irqMask (s : State) : (splice s).irqMask = s.irqMask := rfl
@[simp] theorem splice_dataEn (s : State) : (splice s).dataEn = s.dataEn := rfl
@[simp] theorem splice_schedEn (s : State) : (splice s).schedEn = s.schedEn := rfl
@[simp] theorem splice_configured (s : State) : (splice s).configured = s.configured := rfl
@[simp] theorem splice_halted (s : State) : (splice s).halted = s.halted := rfl
@[simp] theorem splice_reqLost (s : State) : (splice s).reqLost = s.reqLost := rfl
@[simp] theorem splice_refused (s : State) : (splice s).refused = s.refused := rfl
@[simp] theorem splice_overrunSeen (s : State) : (splice s).overrunSeen = s.overrunSeen := rfl
@[simp] theorem splice_stallSeen (s : State) : (splice s).stallSeen = s.stallSeen := rfl
@[simp] theorem splice_log (s : State) : (splice s).log = s.log := rfl
@[simp] theorem splice_trace (s : State) : (splice s).trace = s.trace := rfl
@[simp] theorem splice_poisonOut (s : State) : (splice s).poisonOut = s.poisonOut := rfl
@[simp] theorem splice_mem (s : State) : (splice s).mem = s.mem := rfl
@[simp] theorem splice_run (s : State) : (splice s).run = s.run := rfl
@[simp] theorem splice_issuers (s : State) : (splice s).issuers = s.issuers := rfl

/-! ### irqMask -/

@[simp] theorem irqMask_params (s : State) : (irqMask s).params = s.params := rfl
@[simp] theorem irqMask_mainPc (s : State) : (irqMask s).mainPc = s.mainPc := rfl
@[simp] theorem irqMask_dataPc (s : State) : (irqMask s).dataPc = s.dataPc := rfl
@[simp] theorem irqMask_schedPc (s : State) : (irqMask s).schedPc = s.schedPc := rfl
@[simp] theorem irqMask_engine (s : State) : (irqMask s).engine = s.engine := rfl
@[simp] theorem irqMask_appBuf (s : State) : (irqMask s).appBuf = s.appBuf := rfl
@[simp] theorem irqMask_bytesApp (s : State) : (irqMask s).bytesApp = s.bytesApp := rfl
@[simp] theorem irqMask_bytesDma (s : State) : (irqMask s).bytesDma = s.bytesDma := rfl
@[simp] theorem irqMask_scheduledDma (s : State) : (irqMask s).scheduledDma = s.scheduledDma := rfl
@[simp] theorem irqMask_dmaIdx (s : State) : (irqMask s).dmaIdx = s.dmaIdx := rfl
@[simp] theorem irqMask_dmaFillto (s : State) : (irqMask s).dmaFillto = s.dmaFillto := rfl
@[simp] theorem irqMask_incompleteBuf (s : State) : (irqMask s).incompleteBuf = s.incompleteBuf := rfl
@[simp] theorem irqMask_nextValid (s : State) : (irqMask s).nextValid = s.nextValid := rfl
@[simp] theorem irqMask_nextAppBuf (s : State) : (irqMask s).nextAppBuf = s.nextAppBuf := rfl
@[simp] theorem irqMask_nextAppBytes (s : State) : (irqMask s).nextAppBytes = s.nextAppBytes := rfl
@[simp] theorem irqMask_cells (s : State) : (irqMask s).cells = s.cells := rfl
@[simp] theorem irqMask_nowMs (s : State) : (irqMask s).nowMs = s.nowMs := rfl
@[simp] theorem irqMask_ring (s : State) : (irqMask s).ring = s.ring := rfl
@[simp] theorem irqMask_aEn (s : State) : (irqMask s).aEn = s.aEn := rfl
@[simp] theorem irqMask_aFetch (s : State) : (irqMask s).aFetch = s.aFetch := rfl
@[simp] theorem irqMask_aXfer (s : State) : (irqMask s).aXfer = s.aXfer := rfl
@[simp] theorem irqMask_pfq (s : State) : (irqMask s).pfq = s.pfq := rfl
@[simp] theorem irqMask_aHtie (s : State) : (irqMask s).aHtie = s.aHtie := rfl
@[simp] theorem irqMask_aTcie (s : State) : (irqMask s).aTcie = s.aTcie := rfl
@[simp] theorem irqMask_htA (s : State) : (irqMask s).htA = s.htA := rfl
@[simp] theorem irqMask_tcA (s : State) : (irqMask s).tcA = s.tcA := rfl
@[simp] theorem irqMask_aReq (s : State) : (irqMask s).aReq = s.aReq := rfl
@[simp] theorem irqMask_bEn (s : State) : (irqMask s).bEn = s.bEn := rfl
@[simp] theorem irqMask_bCnt (s : State) : (irqMask s).bCnt = s.bCnt := rfl
@[simp] theorem irqMask_bTcie (s : State) : (irqMask s).bTcie = s.bTcie := rfl
@[simp] theorem irqMask_tcB (s : State) : (irqMask s).tcB = s.tcB := rfl
@[simp] theorem irqMask_bReq (s : State) : (irqMask s).bReq = s.bReq := rfl
@[simp] theorem irqMask_timEn (s : State) : (irqMask s).timEn = s.timEn := rfl
@[simp] theorem irqMask_timPhase (s : State) : (irqMask s).timPhase = s.timPhase := rfl
@[simp] theorem irqMask_req (s : State) : (irqMask s).req = s.req := rfl
@[simp] theorem irqMask_ack (s : State) : (irqMask s).ack = s.ack := rfl
@[simp] theorem irqMask_gpioMode (s : State) : (irqMask s).gpioMode = s.gpioMode := rfl
@[simp] theorem irqMask_dataDriven (s : State) : (irqMask s).dataDriven = s.dataDriven := rfl
@[simp] theorem irqMask_out (s : State) : (irqMask s).out = s.out := rfl
@[simp] theorem irqMask_irqMask (s : State) : (irqMask s).irqMask = true := rfl
@[simp] theorem irqMask_dataEn (s : State) : (irqMask s).dataEn = s.dataEn := rfl
@[simp] theorem irqMask_schedEn (s : State) : (irqMask s).schedEn = s.schedEn := rfl
@[simp] theorem irqMask_configured (s : State) : (irqMask s).configured = s.configured := rfl
@[simp] theorem irqMask_halted (s : State) : (irqMask s).halted = s.halted := rfl
@[simp] theorem irqMask_reqLost (s : State) : (irqMask s).reqLost = s.reqLost := rfl
@[simp] theorem irqMask_refused (s : State) : (irqMask s).refused = s.refused := rfl
@[simp] theorem irqMask_overrunSeen (s : State) : (irqMask s).overrunSeen = s.overrunSeen := rfl
@[simp] theorem irqMask_stallSeen (s : State) : (irqMask s).stallSeen = s.stallSeen := rfl
@[simp] theorem irqMask_log (s : State) : (irqMask s).log = s.log := rfl
@[simp] theorem irqMask_trace (s : State) : (irqMask s).trace = s.trace := rfl
@[simp] theorem irqMask_poisonOut (s : State) : (irqMask s).poisonOut = s.poisonOut := rfl
@[simp] theorem irqMask_mem (s : State) : (irqMask s).mem = s.mem := rfl
@[simp] theorem irqMask_run (s : State) : (irqMask s).run = s.run := rfl
@[simp] theorem irqMask_issuers (s : State) : (irqMask s).issuers = s.issuers := rfl

/-! ### irqUnmask -/

@[simp] theorem irqUnmask_params (s : State) : (irqUnmask s).params = s.params := rfl
@[simp] theorem irqUnmask_mainPc (s : State) : (irqUnmask s).mainPc = s.mainPc := rfl
@[simp] theorem irqUnmask_dataPc (s : State) : (irqUnmask s).dataPc = s.dataPc := rfl
@[simp] theorem irqUnmask_schedPc (s : State) : (irqUnmask s).schedPc = s.schedPc := rfl
@[simp] theorem irqUnmask_engine (s : State) : (irqUnmask s).engine = s.engine := rfl
@[simp] theorem irqUnmask_appBuf (s : State) : (irqUnmask s).appBuf = s.appBuf := rfl
@[simp] theorem irqUnmask_bytesApp (s : State) : (irqUnmask s).bytesApp = s.bytesApp := rfl
@[simp] theorem irqUnmask_bytesDma (s : State) : (irqUnmask s).bytesDma = s.bytesDma := rfl
@[simp] theorem irqUnmask_scheduledDma (s : State) : (irqUnmask s).scheduledDma = s.scheduledDma := rfl
@[simp] theorem irqUnmask_dmaIdx (s : State) : (irqUnmask s).dmaIdx = s.dmaIdx := rfl
@[simp] theorem irqUnmask_dmaFillto (s : State) : (irqUnmask s).dmaFillto = s.dmaFillto := rfl
@[simp] theorem irqUnmask_incompleteBuf (s : State) : (irqUnmask s).incompleteBuf = s.incompleteBuf := rfl
@[simp] theorem irqUnmask_nextValid (s : State) : (irqUnmask s).nextValid = s.nextValid := rfl
@[simp] theorem irqUnmask_nextAppBuf (s : State) : (irqUnmask s).nextAppBuf = s.nextAppBuf := rfl
@[simp] theorem irqUnmask_nextAppBytes (s : State) : (irqUnmask s).nextAppBytes = s.nextAppBytes := rfl
@[simp] theorem irqUnmask_cells (s : State) : (irqUnmask s).cells = s.cells := rfl
@[simp] theorem irqUnmask_nowMs (s : State) : (irqUnmask s).nowMs = s.nowMs := rfl
@[simp] theorem irqUnmask_ring (s : State) : (irqUnmask s).ring = s.ring := rfl
@[simp] theorem irqUnmask_aEn (s : State) : (irqUnmask s).aEn = s.aEn := rfl
@[simp] theorem irqUnmask_aFetch (s : State) : (irqUnmask s).aFetch = s.aFetch := rfl
@[simp] theorem irqUnmask_aXfer (s : State) : (irqUnmask s).aXfer = s.aXfer := rfl
@[simp] theorem irqUnmask_pfq (s : State) : (irqUnmask s).pfq = s.pfq := rfl
@[simp] theorem irqUnmask_aHtie (s : State) : (irqUnmask s).aHtie = s.aHtie := rfl
@[simp] theorem irqUnmask_aTcie (s : State) : (irqUnmask s).aTcie = s.aTcie := rfl
@[simp] theorem irqUnmask_htA (s : State) : (irqUnmask s).htA = s.htA := rfl
@[simp] theorem irqUnmask_tcA (s : State) : (irqUnmask s).tcA = s.tcA := rfl
@[simp] theorem irqUnmask_aReq (s : State) : (irqUnmask s).aReq = s.aReq := rfl
@[simp] theorem irqUnmask_bEn (s : State) : (irqUnmask s).bEn = s.bEn := rfl
@[simp] theorem irqUnmask_bCnt (s : State) : (irqUnmask s).bCnt = s.bCnt := rfl
@[simp] theorem irqUnmask_bTcie (s : State) : (irqUnmask s).bTcie = s.bTcie := rfl
@[simp] theorem irqUnmask_tcB (s : State) : (irqUnmask s).tcB = s.tcB := rfl
@[simp] theorem irqUnmask_bReq (s : State) : (irqUnmask s).bReq = s.bReq := rfl
@[simp] theorem irqUnmask_timEn (s : State) : (irqUnmask s).timEn = s.timEn := rfl
@[simp] theorem irqUnmask_timPhase (s : State) : (irqUnmask s).timPhase = s.timPhase := rfl
@[simp] theorem irqUnmask_req (s : State) : (irqUnmask s).req = s.req := rfl
@[simp] theorem irqUnmask_ack (s : State) : (irqUnmask s).ack = s.ack := rfl
@[simp] theorem irqUnmask_gpioMode (s : State) : (irqUnmask s).gpioMode = s.gpioMode := rfl
@[simp] theorem irqUnmask_dataDriven (s : State) : (irqUnmask s).dataDriven = s.dataDriven := rfl
@[simp] theorem irqUnmask_out (s : State) : (irqUnmask s).out = s.out := rfl
@[simp] theorem irqUnmask_irqMask (s : State) : (irqUnmask s).irqMask = false := rfl
@[simp] theorem irqUnmask_dataEn (s : State) : (irqUnmask s).dataEn = s.dataEn := rfl
@[simp] theorem irqUnmask_schedEn (s : State) : (irqUnmask s).schedEn = s.schedEn := rfl
@[simp] theorem irqUnmask_configured (s : State) : (irqUnmask s).configured = s.configured := rfl
@[simp] theorem irqUnmask_halted (s : State) : (irqUnmask s).halted = s.halted := rfl
@[simp] theorem irqUnmask_reqLost (s : State) : (irqUnmask s).reqLost = s.reqLost := rfl
@[simp] theorem irqUnmask_refused (s : State) : (irqUnmask s).refused = s.refused := rfl
@[simp] theorem irqUnmask_overrunSeen (s : State) : (irqUnmask s).overrunSeen = s.overrunSeen := rfl
@[simp] theorem irqUnmask_stallSeen (s : State) : (irqUnmask s).stallSeen = s.stallSeen := rfl
@[simp] theorem irqUnmask_log (s : State) : (irqUnmask s).log = s.log := rfl
@[simp] theorem irqUnmask_trace (s : State) : (irqUnmask s).trace = s.trace := rfl
@[simp] theorem irqUnmask_poisonOut (s : State) : (irqUnmask s).poisonOut = s.poisonOut := rfl
@[simp] theorem irqUnmask_mem (s : State) : (irqUnmask s).mem = s.mem := rfl
@[simp] theorem irqUnmask_run (s : State) : (irqUnmask s).run = s.run := rfl
@[simp] theorem irqUnmask_issuers (s : State) : (irqUnmask s).issuers = s.issuers := rfl

/-! ### ctlInit -/

@[simp] theorem ctlInit_params (s : State) : (ctlInit s).params = s.params := rfl
@[simp] theorem ctlInit_mainPc (s : State) : (ctlInit s).mainPc = s.mainPc := rfl
@[simp] theorem ctlInit_dataPc (s : State) : (ctlInit s).dataPc = s.dataPc := rfl
@[simp] theorem ctlInit_schedPc (s : State) : (ctlInit s).schedPc = s.schedPc := rfl
@[simp] theorem ctlInit_engine (s : State) : (ctlInit s).engine = s.engine := rfl
@[simp] theorem ctlInit_appBuf (s : State) : (ctlInit s).appBuf = s.appBuf := rfl
@[simp] theorem ctlInit_bytesApp (s : State) : (ctlInit s).bytesApp = s.bytesApp := rfl
@[simp] theorem ctlInit_bytesDma (s : State) : (ctlInit s).bytesDma = s.bytesDma := rfl
@[simp] theorem ctlInit_scheduledDma (s : State) : (ctlInit s).scheduledDma = s.scheduledDma := rfl
@[simp] theorem ctlInit_dmaIdx (s : State) : (ctlInit s).dmaIdx = s.dmaIdx := rfl
@[simp] theorem ctlInit_dmaFillto (s : State) : (ctlInit s).dmaFillto = s.dmaFillto := rfl
@[simp] theorem ctlInit_incompleteBuf (s : State) : (ctlInit s).incompleteBuf = s.incompleteBuf := rfl
@[simp] theorem ctlInit_nextValid (s : State) : (ctlInit s).nextValid = s.nextValid := rfl
@[simp] theorem ctlInit_nextAppBuf (s : State) : (ctlInit s).nextAppBuf = s.nextAppBuf := rfl
@[simp] theorem ctlInit_nextAppBytes (s : State) : (ctlInit s).nextAppBytes = s.nextAppBytes := rfl
@[simp] theorem ctlInit_cells (s : State) : (ctlInit s).cells = s.cells := rfl
@[simp] theorem ctlInit_nowMs (s : State) : (ctlInit s).nowMs = s.nowMs := rfl
@[simp] theorem ctlInit_ring (s : State) : (ctlInit s).ring = s.ring := rfl
@[simp] theorem ctlInit_aEn (s : State) : (ctlInit s).aEn = false := rfl
@[simp] theorem ctlInit_aFetch (s : State) : (ctlInit s).aFetch = s.aFetch := rfl
@[simp] theorem ctlInit_aXfer (s : State) : (ctlInit s).aXfer = s.aXfer := rfl
@[simp] theorem ctlInit_pfq (s : State) : (ctlInit s).pfq = s.pfq := rfl
@[simp] theorem ctlInit_aHtie (s : State) : (ctlInit s).aHtie = true := rfl
@[simp] theorem ctlInit_aTcie (s : State) : (ctlInit s).aTcie = true := rfl
@[simp] theorem ctlInit_htA (s : State) : (ctlInit s).htA = s.htA := rfl
@[simp] theorem ctlInit_tcA (s : State) : (ctlInit s).tcA = s.tcA := rfl
@[simp] theorem ctlInit_aReq (s : State) : (ctlInit s).aReq = s.aReq := rfl
@[simp] theorem ctlInit_bEn (s : State) : (ctlInit s).bEn = false := rfl
@[simp] theorem ctlInit_bCnt (s : State) : (ctlInit s).bCnt = s.bCnt := rfl
@[simp] theorem ctlInit_bTcie (s : State) : (ctlInit s).bTcie = true := rfl
@[simp] theorem ctlInit_tcB (s : State) : (ctlInit s).tcB = s.tcB := rfl
@[simp] theorem ctlInit_bReq (s : State) : (ctlInit s).bReq = s.bReq := rfl
@[simp] theorem ctlInit_timEn (s : State) : (ctlInit s).timEn = false := rfl
@[simp] theorem ctlInit_timPhase (s : State) : (ctlInit s).timPhase = .off := rfl
@[simp] theorem ctlInit_req (s : State) : (ctlInit s).req = false := rfl
@[simp] theorem ctlInit_ack (s : State) : (ctlInit s).ack = s.ack := rfl
@[simp] theorem ctlInit_gpioMode (s : State) : (ctlInit s).gpioMode = .plain := rfl
@[simp] theorem ctlInit_dataDriven (s : State) : (ctlInit s).dataDriven = false := rfl
@[simp] theorem ctlInit_out (s : State) : (ctlInit s).out = s.out := rfl
@[simp] theorem ctlInit_irqMask (s : State) : (ctlInit s).irqMask = s.irqMask := rfl
@[simp] theorem ctlInit_dataEn (s : State) : (ctlInit s).dataEn = true := rfl
@[simp] theorem ctlInit_schedEn (s : State) : (ctlInit s).schedEn = true := rfl
@[simp] theorem ctlInit_configured (s : State) : (ctlInit s).configured = s.configured := rfl
@[simp] theorem ctlInit_halted (s : State) : (ctlInit s).halted = s.halted := rfl
@[simp] theorem ctlInit_reqLost (s : State) : (ctlInit s).reqLost = s.reqLost := rfl
@[simp] theorem ctlInit_refused (s : State) : (ctlInit s).refused = s.refused := rfl
@[simp] theorem ctlInit_overrunSeen (s : State) : (ctlInit s).overrunSeen = s.overrunSeen := rfl
@[simp] theorem ctlInit_stallSeen (s : State) : (ctlInit s).stallSeen = s.stallSeen := rfl
@[simp] theorem ctlInit_log (s : State) : (ctlInit s).log = s.log := rfl
@[simp] theorem ctlInit_trace (s : State) : (ctlInit s).trace = s.trace := rfl
@[simp] theorem ctlInit_poisonOut (s : State) : (ctlInit s).poisonOut = s.poisonOut := rfl
@[simp] theorem ctlInit_mem (s : State) : (ctlInit s).mem = s.mem := rfl
@[simp] theorem ctlInit_run (s : State) : (ctlInit s).run = s.run := rfl
@[simp] theorem ctlInit_issuers (s : State) : (ctlInit s).issuers = s.issuers := rfl

/-! ### ctlStart -/

@[simp] theorem ctlStart_params (k : Word) (s : State) : (ctlStart k s).params = s.params := rfl
@[simp] theorem ctlStart_mainPc (k : Word) (s : State) : (ctlStart k s).mainPc = s.mainPc := rfl
@[simp] theorem ctlStart_dataPc (k : Word) (s : State) : (ctlStart k s).dataPc = s.dataPc := rfl
@[simp] theorem ctlStart_schedPc (k : Word) (s : State) : (ctlStart k s).schedPc = s.schedPc := rfl
@[simp] theorem ctlStart_engine (k : Word) (s : State) : (ctlStart k s).engine = s.engine := rfl
@[simp] theorem ctlStart_appBuf (k : Word) (s : State) : (ctlStart k s).appBuf = s.appBuf := rfl
@[simp] theorem ctlStart_bytesApp (k : Word) (s : State) : (ctlStart k s).bytesApp = s.bytesApp := rfl
@[simp] theorem ctlStart_bytesDma (k : Word) (s : State) : (ctlStart k s).bytesDma = s.bytesDma := rfl
@[simp] theorem ctlStart_scheduledDma (k : Word) (s : State) : (ctlStart k s).scheduledDma = k := rfl
@[simp] theorem ctlStart_dmaIdx (k : Word) (s : State) : (ctlStart k s).dmaIdx = s.dmaIdx := rfl
@[simp] theorem ctlStart_dmaFillto (k : Word) (s : State) : (ctlStart k s).dmaFillto = s.dmaFillto := rfl
@[simp] theorem ctlStart_incompleteBuf (k : Word) (s : State) : (ctlStart k s).incompleteBuf = s.incompleteBuf := rfl
@[simp] theorem ctlStart_nextValid (k : Word) (s : State) : (ctlStart k s).nextValid = s.nextValid := rfl
@[simp] theorem ctlStart_nextAppBuf (k : Word) (s : State) : (ctlStart k s).nextAppBuf = s.nextAppBuf := rfl
@[simp] theorem ctlStart_nextAppBytes (k : Word) (s : State) : (ctlStart k s).nextAppBytes = s.nextAppBytes := rfl
@[simp] theorem ctlStart_cells (k : Word) (s : State) : (ctlStart k s).cells = s.cells := rfl
@[simp] theorem ctlStart_nowMs (k : Word) (s : State) : (ctlStart k s).nowMs = s.nowMs := rfl
@[simp] theorem ctlStart_ring (k : Word) (s : State) : (ctlStart k s).ring = s.ring := rfl
@[simp] theorem ctlStart_aEn (k : Word) (s : State) : (ctlStart k s).aEn = true := rfl
@[simp] theorem ctlStart_aFetch (k : Word) (s : State) : (ctlStart k s).aFetch = 0 := rfl
@[simp] theorem ctlStart_aXfer (k : Word) (s : State) : (ctlStart k s).aXfer = 0 := rfl
@[simp] theorem ctlStart_pfq (k : Word) (s : State) : (ctlStart k s).pfq = [] := rfl
@[simp] theorem ctlStart_aHtie (k : Word) (s : State) : (ctlStart k s).aHtie = s.aHtie := rfl
@[simp] theorem ctlStart_aTcie (k : Word) (s : State) : (ctlStart k s).aTcie = s.aTcie := rfl
@[simp] theorem ctlStart_htA (k : Word) (s : State) : (ctlStart k s).htA = false := rfl
@[simp] theorem ctlStart_tcA (k : Word) (s : State) : (ctlStart k s).tcA = false := rfl
@[simp] theorem ctlStart_aReq (k : Word) (s : State) : (ctlStart k s).aReq = false := rfl
@[simp] theorem ctlStart_bEn (k : Word) (s : State) : (ctlStart k s).bEn = true := rfl
@[simp] theorem ctlStart_bCnt (k : Word) (s : State) : (ctlStart k s).bCnt = k := rfl
@[simp] theorem ctlStart_bTcie (k : Word) (s : State) : (ctlStart k s).bTcie = s.bTcie := rfl
@[simp] theorem ctlStart_tcB (k : Word) (s : State) : (ctlStart k s).tcB = false := rfl
@[simp] theorem ctlStart_bReq (k : Word) (s : State) : (ctlStart k s).bReq = false := rfl
@[simp] theorem ctlStart_timEn (k : Word) (s : State) : (ctlStart k s).timEn = true := rfl
@[simp] theorem ctlStart_timPhase (k : Word) (s : State) : (ctlStart k s).timPhase = .primed := rfl
@[simp] theorem ctlStart_req (k : Word) (s : State) : (ctlStart k s).req = false := rfl
@[simp] theorem ctlStart_ack (k : Word) (s : State) : (ctlStart k s).ack = s.ack := rfl
@[simp] theorem ctlStart_gpioMode (k : Word) (s : State) : (ctlStart k s).gpioMode = .engine := rfl
@[simp] theorem ctlStart_dataDriven (k : Word) (s : State) : (ctlStart k s).dataDriven = true := rfl
@[simp] theorem ctlStart_out (k : Word) (s : State) : (ctlStart k s).out = s.out := rfl
@[simp] theorem ctlStart_irqMask (k : Word) (s : State) : (ctlStart k s).irqMask = s.irqMask := rfl
@[simp] theorem ctlStart_dataEn (k : Word) (s : State) : (ctlStart k s).dataEn = s.dataEn := rfl
@[simp] theorem ctlStart_schedEn (k : Word) (s : State) : (ctlStart k s).schedEn = s.schedEn := rfl
@[simp] theorem ctlStart_configured (k : Word) (s : State) : (ctlStart k s).configured = s.configured := rfl
@[simp] theorem ctlStart_halted (k : Word) (s : State) : (ctlStart k s).halted = s.halted := rfl
@[simp] theorem ctlStart_reqLost (k : Word) (s : State) : (ctlStart k s).reqLost = s.reqLost := rfl
@[simp] theorem ctlStart_refused (k : Word) (s : State) : (ctlStart k s).refused = s.refused := rfl
@[simp] theorem ctlStart_overrunSeen (k : Word) (s : State) : (ctlStart k s).overrunSeen = s.overrunSeen := rfl
@[simp] theorem ctlStart_stallSeen (k : Word) (s : State) : (ctlStart k s).stallSeen = s.stallSeen := rfl
@[simp] theorem ctlStart_log (k : Word) (s : State) : (ctlStart k s).log = s.log := rfl
@[simp] theorem ctlStart_trace (k : Word) (s : State) : (ctlStart k s).trace = s.trace ++ [.mode .engine] := rfl
@[simp] theorem ctlStart_poisonOut (k : Word) (s : State) : (ctlStart k s).poisonOut = s.poisonOut := rfl
@[simp] theorem ctlStart_mem (k : Word) (s : State) : (ctlStart k s).mem = s.mem := rfl
@[simp] theorem ctlStart_run (k : Word) (s : State) : (ctlStart k s).run = s.run := rfl
@[simp] theorem ctlStart_issuers (k : Word) (s : State) : (ctlStart k s).issuers = s.issuers := rfl

/-! ### ctlStop -/

@[simp] theorem ctlStop_params (s : State) : (ctlStop s).params = s.params := rfl
@[simp] theorem ctlStop_mainPc (s : State) : (ctlStop s).mainPc = s.mainPc := rfl
@[simp] theorem ctlStop_dataPc (s : State) : (ctlStop s).dataPc = s.dataPc := rfl
@[simp] theorem ctlStop_schedPc (s : State) : (ctlStop s).schedPc = s.schedPc := rfl
@[simp] theorem ctlStop_engine (s : State) : (ctlStop s).engine = .idle := rfl
@[simp] theorem ctlStop_appBuf (s : State) : (ctlStop s).appBuf = s.appBuf := rfl
@[simp] theorem ctlStop_bytesApp (s : State) : (ctlStop s).bytesApp = s.bytesApp := rfl
@[simp] theorem ctlStop_bytesDma (s : State) : (ctlStop s).bytesDma = s.bytesDma := rfl
@[simp] theorem ctlStop_scheduledDma (s : State) : (ctlStop s).scheduledDma = s.scheduledDma := rfl
@[simp] theorem ctlStop_dmaIdx (s : State) : (ctlStop s).dmaIdx = s.dmaIdx := rfl
@[simp] theorem ctlStop_dmaFillto (s : State) : (ctlStop s).dmaFillto = s.dmaFillto := rfl
@[simp] theorem ctlStop_incompleteBuf (s : State) : (ctlStop s).incompleteBuf = false := rfl
@[simp] theorem ctlStop_nextValid (s : State) : (ctlStop s).nextValid = false := rfl
@[simp] theorem ctlStop_nextAppBuf (s : State) : (ctlStop s).nextAppBuf = 0 := rfl
@[simp] theorem ctlStop_nextAppBytes (s : State) : (ctlStop s).nextAppBytes = 0 := rfl
@[simp] theorem ctlStop_cells (s : State) : (ctlStop s).cells = s.cells := rfl
@[simp] theorem ctlStop_nowMs (s : State) : (ctlStop s).nowMs = s.nowMs := rfl
@[simp] theorem ctlStop_ring (s : State) : (ctlStop s).ring = s.ring := rfl
@[simp] theorem ctlStop_aEn (s : State) : (ctlStop s).aEn = false := rfl
@[simp] theorem ctlStop_aFetch (s : State) : (ctlStop s).aFetch = 0 := rfl
@[simp] theorem ctlStop_aXfer (s : State) : (ctlStop s).aXfer = 0 := rfl
@[simp] theorem ctlStop_pfq (s : State) : (ctlStop s).pfq = [] := rfl
@[simp] theorem ctlStop_aHtie (s : State) : (ctlStop s).aHtie = s.aHtie := rfl
@[simp] theorem ctlStop_aTcie (s : State) : (ctlStop s).aTcie = s.aTcie := rfl
@[simp] theorem ctlStop_htA (s : State) : (ctlStop s).htA = false := rfl
@[simp] theorem ctlStop_tcA (s : State) : (ctlStop s).tcA = false := rfl
@[simp] theorem ctlStop_aReq (s : State) : (ctlStop s).aReq = false := rfl
@[simp] theorem ctlStop_bEn (s : State) : (ctlStop s).bEn = false := rfl
@[simp] theorem ctlStop_bCnt (s : State) : (ctlStop s).bCnt = 0 := rfl
@[simp] theorem ctlStop_bTcie (s : State) : (ctlStop s).bTcie = s.bTcie := rfl
@[simp] theorem ctlStop_tcB (s : State) : (ctlStop s).tcB = false := rfl
@[simp] theorem ctlStop_bReq (s : State) : (ctlStop s).bReq = false := rfl
@[simp] theorem ctlStop_timEn (s : State) : (ctlStop s).timEn = false := rfl
@[simp] theorem ctlStop_timPhase (s : State) : (ctlStop s).timPhase = .off := rfl
@[simp] theorem ctlStop_req (s : State) : (ctlStop s).req = false := rfl
@[simp] theorem ctlStop_ack (s : State) : (ctlStop s).ack = s.ack := rfl
@[simp] theorem ctlStop_gpioMode (s : State) : (ctlStop s).gpioMode = .plain := rfl
@[simp] theorem ctlStop_dataDriven (s : State) : (ctlStop s).dataDriven = false := rfl
@[simp] theorem ctlStop_out (s : State) : (ctlStop s).out = s.out := rfl
@[simp] theorem ctlStop_irqMask (s : State) : (ctlStop s).irqMask = s.irqMask := rfl
@[simp] theorem ctlStop_dataEn (s : State) : (ctlStop s).dataEn = s.dataEn := rfl
@[simp] theorem ctlStop_schedEn (s : State) : (ctlStop s).schedEn = s.schedEn := rfl
@[simp] theorem ctlStop_configured (s : State) : (ctlStop s).configured = s.configured := rfl
@[simp] theorem ctlStop_halted (s : State) : (ctlStop s).halted = s.halted := rfl
@[simp] theorem ctlStop_reqLost (s : State) : (ctlStop s).reqLost = s.reqLost := rfl
@[simp] theorem ctlStop_refused (s : State) : (ctlStop s).refused = s.refused := rfl
@[simp] theorem ctlStop_overrunSeen (s : State) : (ctlStop s).overrunSeen = s.overrunSeen := rfl
@[simp] theorem ctlStop_stallSeen (s : State) : (ctlStop s).stallSeen = s.stallSeen := rfl
@[simp] theorem ctlStop_log (s : State) : (ctlStop s).log = s.log := rfl
@[simp] theorem ctlStop_trace (s : State) : (ctlStop s).trace = s.trace ++ stopEvents s := rfl
@[simp] theorem ctlStop_poisonOut (s : State) : (ctlStop s).poisonOut = s.poisonOut := rfl
@[simp] theorem ctlStop_mem (s : State) : (ctlStop s).mem = s.mem := rfl
@[simp] theorem ctlStop_run (s : State) : (ctlStop s).run = s.run := rfl
@[simp] theorem ctlStop_issuers (s : State) : (ctlStop s).issuers = s.issuers := rfl

/-! ### restartHead -/

@[simp] theorem restartHead_params (s : State) : (restartHead s).params = s.params := rfl
@[simp] theorem restartHead_mainPc (s : State) : (restartHead s).mainPc = s.mainPc := rfl
@[simp] theorem restartHead_dataPc (s : State) : (restartHead s).dataPc = s.dataPc := rfl
@[simp] theorem restartHead_schedPc (s : State) : (restartHead s).schedPc = s.schedPc := rfl
@[simp] theorem restartHead_engine (s : State) : (restartHead s).engine = s.engine := rfl
@[simp] theorem restartHead_appBuf (s : State) : (restartHead s).appBuf = s.appBuf := rfl
@[simp] theorem restartHead_bytesApp (s : State) : (restartHead s).bytesApp = s.bytesApp := rfl
@[simp] theorem restartHead_bytesDma (s : State) : (restartHead s).bytesDma = s.scheduledDma := rfl
@[simp] theorem restartHead_scheduledDma (s : State) : (restartHead s).scheduledDma = s.scheduledDma := rfl
@[simp] theorem restartHead_dmaIdx (s : State) : (restartHead s).dmaIdx = 0 := rfl
@[simp] theorem restartHead_dmaFillto (s : State) : (restartHead s).dmaFillto = s.params.nWord := rfl
@[simp] theorem restartHead_incompleteBuf (s : State) : (restartHead s).incompleteBuf = false := rfl
@[simp] theorem restartHead_nextValid (s : State) : (restartHead s).nextValid = s.nextValid := rfl
@[simp] theorem restartHead_nextAppBuf (s : State) : (restartHead s).nextAppBuf = s.nextAppBuf := rfl
@[simp] theorem restartHead_nextAppBytes (s : State) : (restartHead s).nextAppBytes = s.nextAppBytes := rfl
@[simp] theorem restartHead_cells (s : State) : (restartHead s).cells = s.cells := rfl
@[simp] theorem restartHead_nowMs (s : State) : (restartHead s).nowMs = s.nowMs := rfl
@[simp] theorem restartHead_ring (s : State) : (restartHead s).ring = s.ring := rfl
@[simp] theorem restartHead_aEn (s : State) : (restartHead s).aEn = false := rfl
@[simp] theorem restartHead_aFetch (s : State) : (restartHead s).aFetch = s.aFetch := rfl
@[simp] theorem restartHead_aXfer (s : State) : (restartHead s).aXfer = s.aXfer := rfl
@[simp] theorem restartHead_pfq (s : State) : (restartHead s).pfq = [] := rfl
@[simp] theorem restartHead_aHtie (s : State) : (restartHead s).aHtie = s.aHtie := rfl
@[simp] theorem restartHead_aTcie (s : State) : (restartHead s).aTcie = s.aTcie := rfl
@[simp] theorem restartHead_htA (s : State) : (restartHead s).htA = s.htA := rfl
@[simp] theorem restartHead_tcA (s : State) : (restartHead s).tcA = s.tcA := rfl
@[simp] theorem restartHead_aReq (s : State) : (restartHead s).aReq = s.aReq := rfl
@[simp] theorem restartHead_bEn (s : State) : (restartHead s).bEn = s.bEn := rfl
@[simp] theorem restartHead_bCnt (s : State) : (restartHead s).bCnt = s.bCnt := rfl
@[simp] theorem restartHead_bTcie (s : State) : (restartHead s).bTcie = s.bTcie := rfl
@[simp] theorem restartHead_tcB (s : State) : (restartHead s).tcB = s.tcB := rfl
@[simp] theorem restartHead_bReq (s : State) : (restartHead s).bReq = s.bReq := rfl
@[simp] theorem restartHead_timEn (s : State) : (restartHead s).timEn = s.timEn := rfl
@[simp] theorem restartHead_timPhase (s : State) : (restartHead s).timPhase = s.timPhase := rfl
@[simp] theorem restartHead_req (s : State) : (restartHead s).req = s.req := rfl
@[simp] theorem restartHead_ack (s : State) : (restartHead s).ack = s.ack := rfl
@[simp] theorem restartHead_gpioMode (s : State) : (restartHead s).gpioMode = s.gpioMode := rfl
@[simp] theorem restartHead_dataDriven (s : State) : (restartHead s).dataDriven = s.dataDriven := rfl
@[simp] theorem restartHead_out (s : State) : (restartHead s).out = s.out := rfl
@[simp] theorem restartHead_irqMask (s : State) : (restartHead s).irqMask = s.irqMask := rfl
@[simp] theorem restartHead_dataEn (s : State) : (restartHead s).dataEn = s.dataEn := rfl
@[simp] theorem restartHead_schedEn (s : State) : (restartHead s).schedEn = s.schedEn := rfl
@[simp] theorem restartHead_configured (s : State) : (restartHead s).configured = s.configured := rfl
@[simp] theorem restartHead_halted (s : State) : (restartHead s).halted = s.halted := rfl
@[simp] theorem restartHead_reqLost (s : State) : (restartHead s).reqLost = s.reqLost := rfl
@[simp] theorem restartHead_refused (s : State) : (restartHead s).refused = s.refused := rfl
@[simp] theorem restartHead_overrunSeen (s : State) : (restartHead s).overrunSeen = s.overrunSeen := rfl
@[simp] theorem restartHead_stallSeen (s : State) : (restartHead s).stallSeen = s.stallSeen := rfl
@[simp] theorem restartHead_log (s : State) : (restartHead s).log = s.log := rfl
@[simp] theorem restartHead_trace (s : State) : (restartHead s).trace = s.trace := rfl
@[simp] theorem restartHead_poisonOut (s : State) : (restartHead s).poisonOut = s.poisonOut := rfl
@[simp] theorem restartHead_mem (s : State) : (restartHead s).mem = s.mem := rfl
@[simp] theorem restartHead_run (s : State) : (restartHead s).run = s.run := rfl
@[simp] theorem restartHead_issuers (s : State) : (restartHead s).issuers = s.issuers := rfl

/-! ### restartTail -/

@[simp] theorem restartTail_params (s : State) : (restartTail s).params = s.params := rfl
@[simp] theorem restartTail_mainPc (s : State) : (restartTail s).mainPc = s.mainPc := rfl
@[simp] theorem restartTail_dataPc (s : State) : (restartTail s).dataPc = s.dataPc := rfl
@[simp] theorem restartTail_schedPc (s : State) : (restartTail s).schedPc = s.schedPc := rfl
@[simp] theorem restartTail_engine (s : State) : (restartTail s).engine = s.engine := rfl
@[simp] theorem restartTail_appBuf (s : State) : (restartTail s).appBuf = s.appBuf := rfl
@[simp] theorem restartTail_bytesApp (s : State) : (restartTail s).bytesApp = s.bytesApp := rfl
@[simp] theorem restartTail_bytesDma (s : State) : (restartTail s).bytesDma = s.bytesDma := rfl
@[simp] theorem restartTail_scheduledDma (s : State) : (restartTail s).scheduledDma = s.scheduledDma := rfl
@[simp] theorem restartTail_dmaIdx (s : State) : (restartTail s).dmaIdx = s.dmaIdx := rfl
@[simp] theorem restartTail_dmaFillto (s : State) : (restartTail s).dmaFillto = s.dmaFillto := rfl
@[simp] theorem restartTail_incompleteBuf (s : State) : (restartTail s).incompleteBuf = (s.incompleteBuf || s.dmaIdx != s.dmaFillto) := rfl
@[simp] theorem restartTail_nextValid (s : State) : (restartTail s).nextValid = s.nextValid := rfl
@[simp] theorem restartTail_nextAppBuf (s : State) : (restartTail s).nextAppBuf = s.nextAppBuf := rfl
@[simp] theorem restartTail_nextAppBytes (s : State) : (restartTail s).nextAppBytes = s.nextAppBytes := rfl
@[simp] theorem restartTail_cells (s : State) : (restartTail s).cells = s.cells := rfl
@[simp] theorem restartTail_nowMs (s : State) : (restartTail s).nowMs = s.nowMs := rfl
@[simp] theorem restartTail_ring (s : State) : (restartTail s).ring = s.ring := rfl
@[simp] theorem restartTail_aEn (s : State) : (restartTail s).aEn = true := rfl
@[simp] theorem restartTail_aFetch (s : State) : (restartTail s).aFetch = 0 := rfl
@[simp] theorem restartTail_aXfer (s : State) : (restartTail s).aXfer = 0 := rfl
@[simp] theorem restartTail_pfq (s : State) : (restartTail s).pfq = s.pfq := rfl
@[simp] theorem restartTail_aHtie (s : State) : (restartTail s).aHtie = s.aHtie := rfl
@[simp] theorem restartTail_aTcie (s : State) : (restartTail s).aTcie = s.aTcie := rfl
@[simp] theorem restartTail_htA (s : State) : (restartTail s).htA = false := rfl
@[simp] theorem restartTail_tcA (s : State) : (restartTail s).tcA = false := rfl
@[simp] theorem restartTail_aReq (s : State) : (restartTail s).aReq = s.aReq := rfl
@[simp] theorem restartTail_bEn (s : State) : (restartTail s).bEn = s.bEn := rfl
@[simp] theorem restartTail_bCnt (s : State) : (restartTail s).bCnt = s.bCnt := rfl
@[simp] theorem restartTail_bTcie (s : State) : (restartTail s).bTcie = s.bTcie := rfl
@[simp] theorem restartTail_tcB (s : State) : (restartTail s).tcB = s.tcB := rfl
@[simp] theorem restartTail_bReq (s : State) : (restartTail s).bReq = s.bReq := rfl
@[simp] theorem restartTail_timEn (s : State) : (restartTail s).timEn = s.timEn := rfl
@[simp] theorem restartTail_timPhase (s : State) : (restartTail s).timPhase = s.timPhase := rfl
@[simp] theorem restartTail_req (s : State) : (restartTail s).req = s.req := rfl
@[simp] theorem restartTail_ack (s : State) : (restartTail s).ack = s.ack := rfl
@[simp] theorem restartTail_gpioMode (s : State) : (restartTail s).gpioMode = s.gpioMode := rfl
@[simp] theorem restartTail_dataDriven (s : State) : (restartTail s).dataDriven = s.dataDriven := rfl
@[simp] theorem restartTail_out (s : State) : (restartTail s).out = s.out := rfl
@[simp] theorem restartTail_irqMask (s : State) : (restartTail s).irqMask = s.irqMask := rfl
@[simp] theorem restartTail_dataEn (s : State) : (restartTail s).dataEn = s.dataEn := rfl
@[simp] theorem restartTail_schedEn (s : State) : (restartTail s).schedEn = s.schedEn := rfl
@[simp] theorem restartTail_configured (s : State) : (restartTail s).configured = s.configured := rfl
@[simp] theorem restartTail_halted (s : State) : (restartTail s).halted = s.halted := rfl
@[simp] theorem restartTail_reqLost (s : State) : (restartTail s).reqLost = s.reqLost := rfl
@[simp] theorem restartTail_refused (s : State) : (restartTail s).refused = s.refused := rfl
@[simp] theorem restartTail_overrunSeen (s : State) : (restartTail s).overrunSeen = s.overrunSeen := rfl
@[simp] theorem restartTail_stallSeen (s : State) : (restartTail s).stallSeen = s.stallSeen := rfl
@[simp] theorem restartTail_log (s : State) : (restartTail s).log = s.log := rfl
@[simp] theorem restartTail_trace (s : State) : (restartTail s).trace = s.trace := rfl
@[simp] theorem restartTail_poisonOut (s : State) : (restartTail s).poisonOut = s.poisonOut := rfl
@[simp] theorem restartTail_mem (s : State) : (restartTail s).mem = s.mem := rfl
@[simp] theorem restartTail_run (s : State) : (restartTail s).run = s.run := rfl
@[simp] theorem restartTail_issuers (s : State) : (restartTail s).issuers = s.issuers := rfl

/-! ### freshHead -/

@[simp] theorem freshHead_params (p l : Word) (s : State) : (freshHead p l s).params = s.params := rfl
@[simp] theorem freshHead_mainPc (p l : Word) (s : State) : (freshHead p l s).mainPc = s.mainPc := rfl
@[simp] theorem freshHead_dataPc (p l : Word) (s : State) : (freshHead p l s).dataPc = s.dataPc := rfl
@[simp] theorem freshHead_schedPc (p l : Word) (s : State) : (freshHead p l s).schedPc = s.schedPc := rfl
@[simp] theorem freshHead_engine (p l : Word) (s : State) : (freshHead p l s).engine = s.engine := rfl
@[simp] theorem freshHead_appBuf (p l : Word) (s : State) : (freshHead p l s).appBuf = p := rfl
@[simp] theorem freshHead_bytesApp (p l : Word) (s : State) : (freshHead p l s).bytesApp = l := rfl
@[simp] theorem freshHead_bytesDma (p l : Word) (s : State) : (freshHead p l s).bytesDma = 0 := rfl
@[simp] theorem freshHead_scheduledDma (p l : Word) (s : State) : (freshHead p l s).scheduledDma = 0 := rfl
@[simp] theorem freshHead_dmaIdx (p l : Word) (s : State) : (freshHead p l s).dmaIdx = 0 := rfl
@[simp] theorem freshHead_dmaFillto (p l : Word) (s : State) : (freshHead p l s).dmaFillto = s.params.nWord := rfl
@[simp] theorem freshHead_incompleteBuf (p l : Word) (s : State) : (freshHead p l s).incompleteBuf = false := rfl
@[simp] theorem freshHead_nextValid (p l : Word) (s : State) : (freshHead p l s).nextValid = false := rfl
@[simp] theorem freshHead_nextAppBuf (p l : Word) (s : State) : (freshHead p l s).nextAppBuf = 0 := rfl
@[simp] theorem freshHead_nextAppBytes (p l : Word) (s : State) : (freshHead p l s).nextAppBytes = 0 := rfl
@[simp] theorem freshHead_cells (p l : Word) (s : State) : (freshHead p l s).cells = s.cells := rfl
@[simp] theorem freshHead_nowMs (p l : Word) (s : State) : (freshHead p l s).nowMs = s.nowMs := rfl
@[simp] theorem freshHead_ring (p l : Word) (s : State) : (freshHead p l s).ring = s.ring := rfl
@[simp] theorem freshHead_aEn (p l : Word) (s : State) : (freshHead p l s).aEn = s.aEn := rfl
@[simp] theorem freshHead_aFetch (p l : Word) (s : State) : (freshHead p l s).aFetch = s.aFetch := rfl
@[simp] theorem freshHead_aXfer (p l : Word) (s : State) : (freshHead p l s).aXfer = s.aXfer := rfl
@[simp] theorem freshHead_pfq (p l : Word) (s : State) : (freshHead p l s).pfq = s.pfq := rfl
@[simp] theorem freshHead_aHtie (p l : Word) (s : State) : (freshHead p l s).aHtie = s.aHtie := rfl
@[simp] theorem freshHead_aTcie (p l : Word) (s : State) : (freshHead p l s).aTcie = s.aTcie := rfl
@[simp] theorem freshHead_htA (p l : Word) (s : State) : (freshHead p l s).htA = s.htA := rfl
@[simp] theorem freshHead_tcA (p l : Word) (s : State) : (freshHead p l s).tcA = s.tcA := rfl
@[simp] theorem freshHead_aReq (p l : Word) (s : State) : (freshHead p l s).aReq = s.aReq := rfl
@[simp] theorem freshHead_bEn (p l : Word) (s : State) : (freshHead p l s).bEn = s.bEn := rfl
@[simp] theorem freshHead_bCnt (p l : Word) (s : State) : (freshHead p l s).bCnt = s.bCnt := rfl
@[simp] theorem freshHead_bTcie (p l : Word) (s : State) : (freshHead p l s).bTcie = s.bTcie := rfl
@[simp] theorem freshHead_tcB (p l : Word) (s : State) : (freshHead p l s).tcB = s.tcB := rfl
@[simp] theorem freshHead_bReq (p l : Word) (s : State) : (freshHead p l s).bReq = s.bReq := rfl
@[simp] theorem freshHead_timEn (p l : Word) (s : State) : (freshHead p l s).timEn = s.timEn := rfl
@[simp] theorem freshHead_timPhase (p l : Word) (s : State) : (freshHead p l s).timPhase = s.timPhase := rfl
@[simp] theorem freshHead_req (p l : Word) (s : State) : (freshHead p l s).req = s.req := rfl
@[simp] theorem freshHead_ack (p l : Word) (s : State) : (freshHead p l s).ack = s.ack := rfl
@[simp] theorem freshHead_gpioMode (p l : Word) (s : State) : (freshHead p l s).gpioMode = s.gpioMode := rfl
@[simp] theorem freshHead_dataDriven (p l : Word) (s : State) : (freshHead p l s).dataDriven = s.dataDriven := rfl
@[simp] theorem freshHead_out (p l : Word) (s : State) : (freshHead p l s).out = s.out := rfl
@[simp] theorem freshHead_irqMask (p l : Word) (s : State) : (freshHead p l s).irqMask = s.irqMask := rfl
@[simp] theorem freshHead_dataEn (p l : Word) (s : State) : (freshHead p l s).dataEn = s.dataEn := rfl
@[simp] theorem freshHead_schedEn (p l : Word) (s : State) : (freshHead p l s).schedEn = s.schedEn := rfl
@[simp] theorem freshHead_configured (p l : Word) (s : State) : (freshHead p l s).configured = s.configured := rfl
@[simp] theorem freshHead_halted (p l : Word) (s : State) : (freshHead p l s).halted = s.halted := rfl
@[simp] theorem freshHead_reqLost (p l : Word) (s : State) : (freshHead p l s).reqLost = s.reqLost := rfl
@[simp] theorem freshHead_refused (p l : Word) (s : State) : (freshHead p l s).refused = s.refused := rfl
@[simp] theorem freshHead_overrunSeen (p l : Word) (s : State) : (freshHead p l s).overrunSeen = s.overrunSeen := rfl
@[simp] theorem freshHead_stallSeen (p l : Word) (s : State) : (freshHead p l s).stallSeen = s.stallSeen := rfl
@[simp] theorem freshHead_log (p l : Word) (s : State) : (freshHead p l s).log = s.log := rfl
@[simp] theorem freshHead_trace (p l : Word) (s : State) : (freshHead p l s).trace = s.trace := rfl
@[simp] theorem freshHead_poisonOut (p l : Word) (s : State) : (freshHead p l s).poisonOut = s.poisonOut := rfl
@[simp] theorem freshHead_mem (p l : Word) (s : State) : (freshHead p l s).mem = s.mem := rfl
@[simp] theorem freshHead_run (p l : Word) (s : State) : (freshHead p l s).run = s.run := rfl
@[simp] theorem freshHead_issuers (p l : Word) (s : State) : (freshHead p l s).issuers = s.issuers := rfl

/-! ### countXfer -/

@[simp] theorem countXfer_params (s : State) : (countXfer s).params = s.params := rfl
@[simp] theorem countXfer_mainPc (s : State) : (countXfer s).mainPc = s.mainPc := rfl
@[simp] theorem countXfer_dataPc (s : State) : (countXfer s).dataPc = s.dataPc := rfl
@[simp] theorem countXfer_schedPc (s : State) : (countXfer s).schedPc = s.schedPc := rfl
@[simp] theorem countXfer_engine (s : State) : (countXfer s).engine = s.engine := rfl
@[simp] theorem countXfer_appBuf (s : State) : (countXfer s).appBuf = s.appBuf := rfl
@[simp] theorem countXfer_bytesApp (s : State) : (countXfer s).bytesApp = s.bytesApp := rfl
@[simp] theorem countXfer_bytesDma (s : State) : (countXfer s).bytesDma = s.bytesDma := rfl
@[simp] theorem countXfer_scheduledDma (s : State) : (countXfer s).scheduledDma = s.scheduledDma := rfl
@[simp] theorem countXfer_dmaIdx (s : State) : (countXfer s).dmaIdx = s.dmaIdx := rfl
@[simp] theorem countXfer_dmaFillto (s : State) : (countXfer s).dmaFillto = s.dmaFillto := rfl
@[simp] theorem countXfer_incompleteBuf (s : State) : (countXfer s).incompleteBuf = s.incompleteBuf := rfl
@[simp] theorem countXfer_nextValid (s : State) : (countXfer s).nextValid = s.nextValid := rfl
@[simp] theorem countXfer_nextAppBuf (s : State) : (countXfer s).nextAppBuf = s.nextAppBuf := rfl
@[simp] theorem countXfer_nextAppBytes (s : State) : (countXfer s).nextAppBytes = s.nextAppBytes := rfl
@[simp] theorem countXfer_cells (s : State) : (countXfer s).cells = s.cells := rfl
@[simp] theorem countXfer_nowMs (s : State) : (countXfer s).nowMs = s.nowMs := rfl
@[simp] theorem countXfer_ring (s : State) : (countXfer s).ring = s.ring := rfl
@[simp] theorem countXfer_aEn (s : State) : (countXfer s).aEn = s.aEn := rfl
@[simp] theorem countXfer_aFetch (s : State) : (countXfer s).aFetch = s.aFetch := rfl
@[simp] theorem countXfer_aXfer (s : State) : (countXfer s).aXfer = s.aXfer + 1 := rfl
@[simp] theorem countXfer_pfq (s : State) : (countXfer s).pfq = s.pfq := rfl
@[simp] theorem countXfer_aHtie (s : State) : (countXfer s).aHtie = s.aHtie := rfl
@[simp] theorem countXfer_aTcie (s : State) : (countXfer s).aTcie = s.aTcie := rfl
@[simp] theorem countXfer_htA (s : State) : (countXfer s).htA = (s.htA || halfEvent s.params (s.aXfer + 1)) := rfl
@[simp] theorem countXfer_tcA (s : State) : (countXfer s).tcA = (s.tcA || fullEvent s.params (s.aXfer + 1)) := rfl
@[simp] theorem countXfer_aReq (s : State) : (countXfer s).aReq = false := rfl
@[simp] theorem countXfer_bEn (s : State) : (countXfer s).bEn = s.bEn := rfl
@[simp] theorem countXfer_bCnt (s : State) : (countXfer s).bCnt = s.bCnt := rfl
@[simp] theorem countXfer_bTcie (s : State) : (countXfer s).bTcie = s.bTcie := rfl
@[simp] theorem countXfer_tcB (s : State) : (countXfer s).tcB = s.tcB := rfl
@[simp] theorem countXfer_bReq (s : State) : (countXfer s).bReq = s.bReq := rfl
@[simp] theorem countXfer_timEn (s : State) : (countXfer s).timEn = s.timEn := rfl
@[simp] theorem countXfer_timPhase (s : State) : (countXfer s).timPhase = s.timPhase := rfl
@[simp] theorem countXfer_req (s : State) : (countXfer s).req = s.req := rfl
@[simp] theorem countXfer_ack (s : State) : (countXfer s).ack = s.ack := rfl
@[simp] theorem countXfer_gpioMode (s : State) : (countXfer s).gpioMode = s.gpioMode := rfl
@[simp] theorem countXfer_dataDriven (s : State) : (countXfer s).dataDriven = s.dataDriven := rfl
@[simp] theorem countXfer_out (s : State) : (countXfer s).out = s.out := rfl
@[simp] theorem countXfer_irqMask (s : State) : (countXfer s).irqMask = s.irqMask := rfl
@[simp] theorem countXfer_dataEn (s : State) : (countXfer s).dataEn = s.dataEn := rfl
@[simp] theorem countXfer_schedEn (s : State) : (countXfer s).schedEn = s.schedEn := rfl
@[simp] theorem countXfer_configured (s : State) : (countXfer s).configured = s.configured := rfl
@[simp] theorem countXfer_halted (s : State) : (countXfer s).halted = s.halted := rfl
@[simp] theorem countXfer_reqLost (s : State) : (countXfer s).reqLost = s.reqLost := rfl
@[simp] theorem countXfer_refused (s : State) : (countXfer s).refused = s.refused := rfl
@[simp] theorem countXfer_overrunSeen (s : State) : (countXfer s).overrunSeen = s.overrunSeen := rfl
@[simp] theorem countXfer_stallSeen (s : State) : (countXfer s).stallSeen = s.stallSeen := rfl
@[simp] theorem countXfer_log (s : State) : (countXfer s).log = s.log := rfl
@[simp] theorem countXfer_trace (s : State) : (countXfer s).trace = s.trace := rfl
@[simp] theorem countXfer_poisonOut (s : State) : (countXfer s).poisonOut = s.poisonOut := rfl
@[simp] theorem countXfer_mem (s : State) : (countXfer s).mem = s.mem := rfl
@[simp] theorem countXfer_run (s : State) : (countXfer s).run = s.run := rfl
@[simp] theorem countXfer_issuers (s : State) : (countXfer s).issuers = s.issuers := rfl

/-! ### countReset -/

@[simp] theorem countReset_params (s : State) : (countReset s).params = s.params := rfl
@[simp] theorem countReset_mainPc (s : State) : (countReset s).mainPc = s.mainPc := rfl
@[simp] theorem countReset_dataPc (s : State) : (countReset s).dataPc = s.dataPc := rfl
@[simp] theorem countReset_schedPc (s : State) : (countReset s).schedPc = s.schedPc := rfl
@[simp] theorem countReset_engine (s : State) : (countReset s).engine = s.engine := rfl
@[simp] theorem countReset_appBuf (s : State) : (countReset s).appBuf = s.appBuf := rfl
@[simp] theorem countReset_bytesApp (s : State) : (countReset s).bytesApp = s.bytesApp := rfl
@[simp] theorem countReset_bytesDma (s : State) : (countReset s).bytesDma = s.bytesDma := rfl
@[simp] theorem countReset_scheduledDma (s : State) : (countReset s).scheduledDma = s.scheduledDma := rfl
@[simp] theorem countReset_dmaIdx (s : State) : (countReset s).dmaIdx = s.dmaIdx := rfl
@[simp] theorem countReset_dmaFillto (s : State) : (countReset s).dmaFillto = s.dmaFillto := rfl
@[simp] theorem countReset_incompleteBuf (s : State) : (countReset s).incompleteBuf = s.incompleteBuf := rfl
@[simp] theorem countReset_nextValid (s : State) : (countReset s).nextValid = s.nextValid := rfl
@[simp] theorem countReset_nextAppBuf (s : State) : (countReset s).nextAppBuf = s.nextAppBuf := rfl
@[simp] theorem countReset_nextAppBytes (s : State) : (countReset s).nextAppBytes = s.nextAppBytes := rfl
@[simp] theorem countReset_cells (s : State) : (countReset s).cells = s.cells := rfl
@[simp] theorem countReset_nowMs (s : State) : (countReset s).nowMs = s.nowMs := rfl
@[simp] theorem countReset_ring (s : State) : (countReset s).ring = s.ring := rfl
@[simp] theorem countReset_aEn (s : State) : (countReset s).aEn = s.aEn := rfl
@[simp] theorem countReset_aFetch (s : State) : (countReset s).aFetch = s.aFetch := rfl
@[simp] theorem countReset_aXfer (s : State) : (countReset s).aXfer = s.aXfer := rfl
@[simp] theorem countReset_pfq (s : State) : (countReset s).pfq = s.pfq := rfl
@[simp] theorem countReset_aHtie (s : State) : (countReset s).aHtie = s.aHtie := rfl
@[simp] theorem countReset_aTcie (s : State) : (countReset s).aTcie = s.aTcie := rfl
@[simp] theorem countReset_htA (s : State) : (countReset s).htA = s.htA := rfl
@[simp] theorem countReset_tcA (s : State) : (countReset s).tcA = s.tcA := rfl
@[simp] theorem countReset_aReq (s : State) : (countReset s).aReq = s.aReq := rfl
@[simp] theorem countReset_bEn (s : State) : (countReset s).bEn = s.bEn := rfl
@[simp] theorem countReset_bCnt (s : State) : (countReset s).bCnt = s.bCnt - 1 := rfl
@[simp] theorem countReset_bTcie (s : State) : (countReset s).bTcie = s.bTcie := rfl
@[simp] theorem countReset_tcB (s : State) : (countReset s).tcB = (s.tcB || s.bCnt - 1 == 0) := rfl
@[simp] theorem countReset_bReq (s : State) : (countReset s).bReq = false := rfl
@[simp] theorem countReset_timEn (s : State) : (countReset s).timEn = s.timEn := rfl
@[simp] theorem countReset_timPhase (s : State) : (countReset s).timPhase = s.timPhase := rfl
@[simp] theorem countReset_req (s : State) : (countReset s).req = s.req := rfl
@[simp] theorem countReset_ack (s : State) : (countReset s).ack = s.ack := rfl
@[simp] theorem countReset_gpioMode (s : State) : (countReset s).gpioMode = s.gpioMode := rfl
@[simp] theorem countReset_dataDriven (s : State) : (countReset s).dataDriven = s.dataDriven := rfl
@[simp] theorem countReset_out (s : State) : (countReset s).out = s.out := rfl
@[simp] theorem countReset_irqMask (s : State) : (countReset s).irqMask = s.irqMask := rfl
@[simp] theorem countReset_dataEn (s : State) : (countReset s).dataEn = s.dataEn := rfl
@[simp] theorem countReset_schedEn (s : State) : (countReset s).schedEn = s.schedEn := rfl
@[simp] theorem countReset_configured (s : State) : (countReset s).configured = s.configured := rfl
@[simp] theorem countReset_halted (s : State) : (countReset s).halted = s.halted := rfl
@[simp] theorem countReset_reqLost (s : State) : (countReset s).reqLost = s.reqLost := rfl
@[simp] theorem countReset_refused (s : State) : (countReset s).refused = s.refused := rfl
@[simp] theorem countReset_overrunSeen (s : State) : (countReset s).overrunSeen = s.overrunSeen := rfl
@[simp] theorem countReset_stallSeen (s : State) : (countReset s).stallSeen = s.stallSeen := rfl
@[simp] theorem countReset_log (s : State) : (countReset s).log = s.log := rfl
@[simp] theorem countReset_trace (s : State) : (countReset s).trace = s.trace := rfl
@[simp] theorem countReset_poisonOut (s : State) : (countReset s).poisonOut = s.poisonOut := rfl
@[simp] theorem countReset_mem (s : State) : (countReset s).mem = s.mem := rfl
@[simp] theorem countReset_run (s : State) : (countReset s).run = s.run := rfl
@[simp] theorem countReset_issuers (s : State) : (countReset s).issuers = s.issuers := rfl

/-! ### The updates that depend on a test -/

/-- TIMER_UPDATE writes the phase and nothing else. -/
theorem timerUpdate_eq (s : State) :
    timerUpdate s = { s with timPhase := if s.timEn then .primed else s.timPhase } := by
  unfold timerUpdate; split <;> rfl

/-- The force-update word is TIMER_UPDATE. -/
theorem egrWrite_update (s : State) : s.egrWrite s.params.timerEgrUpdate = timerUpdate s := by
  unfold State.egrWrite; exact if_pos rfl

/-- The release of the request line writes `req` and the trace. -/
theorem releaseReq_eq (s : State) :
    releaseReq s = { s with req := false, trace := s.trace ++ if s.req then [.req false] else [] } := by
  cases h : s.req <;> simp [releaseReq, h, State.emit]
  rw [← h]

/-- A request for DMA-A writes the latch, or the mark of a lost request. -/
theorem requestA_eq (s : State) :
    requestA s = { s with
      aReq := true
      reqLost := s.reqLost || s.aReq
      trace := s.trace ++ if s.aReq then [.err (.reqLost .a)] else [] } := by
  cases h : s.aReq <;> simp [requestA, h, State.raise, State.emit]

/-- A request for DMA-B writes the latch, or the mark of a lost request. -/
theorem requestB_eq (s : State) :
    requestB s = { s with
      bReq := true
      reqLost := s.reqLost || s.bReq
      trace := s.trace ++ if s.bReq then [.err (.reqLost .b)] else [] } := by
  cases h : s.bReq <;> simp [requestB, h, State.raise, State.emit]

/-- Taking the delivered image writes the queue or the fetch cursor. -/
theorem takeImage_eq (s : State) :
    takeImage s = { s with pfq := s.pfq.tail, aFetch := if s.pfq = [] then s.aFetch + 1 else s.aFetch } := by
  cases h : s.pfq <;> simp [takeImage, h]

/-- The poison guard writes one slot of the ring, or nothing. -/
theorem poisonGuard_eq (s : State) :
    poisonGuard s = { s with
      ring := if s.dmaIdx = s.dmaFillto then s.ring else s.ring.set (s.slot s.dmaIdx) s.params.poison } := by
  unfold poisonGuard; split <;> rfl

/-- What `raise` writes. -/
theorem raise_eq (s : State) (e : Err) :
    s.raise e = { s with
      trace := s.trace ++ [.err e]
      halted := s.halted || e.code == 2
      reqLost := s.reqLost || e.code == 4
      refused := s.refused || e.code == 5 } := by
  cases e <;> simp [State.raise, State.emit, Err.code]

end Sys2Proof.Machine
end

