-- ==== Sys2Proof/Laws/Ops.lean ====
section
/-! SUPPORT. For each shared operation, once, everything it can do: the course of a step, REFILL, CHECK_NEXT_BUFFER,
DMA_A_RESTART, CTL_EXTEND, START_FRESH, the command port, a step. -/

namespace Sys2Proof.Machine

/-! ### The course of a step -/

@[simp] theorem Flow.andThen_go (s : State) (k : State → Flow) : (Flow.go s).andThen k = k s := rfl
@[simp] theorem Flow.andThen_stop (s : State) (k : State → Flow) : (Flow.stop s).andThen k = .stop s := rfl
@[simp] theorem Flow.andThen_fault (f : Fault) (k : State → Flow) : (Flow.fault f).andThen k = .fault f := rfl
@[simp] theorem Flow.outcome_go (s : State) : (Flow.go s).outcome = .next s := rfl
@[simp] theorem Flow.outcome_stop (s : State) : (Flow.stop s).outcome = .next s := rfl
@[simp] theorem Flow.outcome_fault (f : Fault) : (Flow.fault f).outcome = .fault f := rfl

/-- A flow gives a next state by going on or by stopping. -/
theorem Flow.outcome_next {x : Flow} {t : State} (h : x.outcome = .next t) : x = .go t ∨ x = .stop t := by
  cases x <;> simp_all [Flow.outcome]

/-- Where two flows in sequence go on. -/
theorem Flow.andThen_eq_go {x : Flow} {k : State → Flow} {t : State} (h : x.andThen k = .go t) :
    ∃ u, x = .go u ∧ k u = .go t := by
  cases x <;> simp_all [Flow.andThen]

/-- Where two flows in sequence stop. -/
theorem Flow.andThen_eq_stop {x : Flow} {k : State → Flow} {t : State} (h : x.andThen k = .stop t) :
    x = .stop t ∨ ∃ u, x = .go u ∧ k u = .stop t := by
  cases x <;> simp_all [Flow.andThen]

/-- Where two flows in sequence fault. -/
theorem Flow.andThen_eq_fault {x : Flow} {k : State → Flow} {f : Fault} (h : x.andThen k = .fault f) :
    x = .fault f ∨ ∃ u, x = .go u ∧ k u = .fault f := by
  cases x <;> simp_all [Flow.andThen]

/-! ### REFILL -/

/-- A pass of the byte loop writes one slot and moves two counters, or its address does not exist. -/
theorem refillByte_cases (s : State) :
    (s.appBuf.toNat + s.bytesDma.toNat < 2 ^ 32 ∧ refillByte s = .go { s with
      ring := s.ring.set (s.slot s.dmaIdx) (s.params.translate (s.mem.read (s.appBuf.toNat + s.bytesDma.toNat)))
      dmaIdx := s.dmaIdx + 1
      bytesDma := s.bytesDma + 1 }) ∨
    (2 ^ 32 ≤ s.appBuf.toNat + s.bytesDma.toNat ∧ refillByte s = .fault .addressOutsideMemory) := by
  by_cases h : s.appBuf.toNat + s.bytesDma.toNat < 2 ^ 32
  · exact .inl ⟨h, by rw [refillByte, memRead_of_lt s h]; rfl⟩
  · exact .inr ⟨by omega, by rw [refillByte, memRead_of_not_lt s h]⟩

/-- The state the byte loop leaves after `k` passes, with `ring` in the ring. -/
def State.filled (s : State) (k : Nat) (ring : List Image) : State :=
  { s with ring := ring, dmaIdx := s.dmaIdx + BitVec.ofNat 32 k, bytesDma := s.bytesDma + BitVec.ofNat 32 k }

/-- Where the byte loop goes on it writes the ring and moves the two counters by its count. -/
theorem refillBytes_go {k : Nat} {s t : State} (h : refillBytes k s = .go t) :
    ∃ ring, ring.length = s.ring.length ∧ t = s.filled k ring := by
  induction k generalizing s with
  | zero =>
    simp only [refillBytes, Flow.go.injEq] at h
    exact ⟨s.ring, rfl, by simp [State.filled, h]⟩
  | succ k ih =>
    simp only [refillBytes] at h
    obtain ⟨u, hu, ht⟩ := Flow.andThen_eq_go h
    rcases refillByte_cases s with ⟨-, he⟩ | ⟨-, he⟩
    · rw [he, Flow.go.injEq] at hu
      subst hu
      obtain ⟨ring, h1, h2⟩ := ih ht
      have e : ∀ w : Word, w + 1 + BitVec.ofNat 32 k = w + BitVec.ofNat 32 (k + 1) := by
        intro w; rw [BitVec.ofNat_add k 1]; bv_omega
      exact ⟨ring, by simpa using h1, by rw [h2]; simp only [State.filled, e]⟩
    · rw [he] at hu; cases hu

/-- The byte loop never stops. -/
theorem refillBytes_ne_stop (k : Nat) (s t : State) : refillBytes k s ≠ .stop t := by
  induction k generalizing s with
  | zero => simp [refillBytes]
  | succ k ih =>
    intro h
    simp only [refillBytes] at h
    rcases Flow.andThen_eq_stop h with h | ⟨u, -, h⟩
    · rcases refillByte_cases s with ⟨-, he⟩ | ⟨-, he⟩ <;> rw [he] at h <;> cases h
    · exact ih u h

/-- The byte loop goes on where all its addresses exist. -/
theorem refillBytes_ne_fault {k : Nat} {s : State} (h : s.appBuf.toNat + s.bytesDma.toNat + k ≤ 2 ^ 32) (f : Fault) :
    refillBytes k s ≠ .fault f := by
  induction k generalizing s with
  | zero => simp [refillBytes]
  | succ k ih =>
    intro hf
    simp only [refillBytes] at hf
    rcases refillByte_cases s with ⟨hb, he⟩ | ⟨hb, he⟩
    · rw [he, Flow.andThen_go] at hf
      refine ih ?_ hf
      show s.appBuf.toNat + (s.bytesDma + 1).toNat + k ≤ 2 ^ 32
      have : (s.bytesDma + 1).toNat ≤ s.bytesDma.toNat + 1 := by
        rw [BitVec.toNat_add]; exact Nat.mod_le _ _
      omega
    · omega

/-- One pass, then the rest: the ring after the byte loop, slot by slot, is read off this equation. -/
theorem refillBytes_succ (k : Nat) (s : State) : refillBytes (k + 1) s = (refillByte s).andThen (refillBytes k) := rfl

/-- The accounting checks pass exactly where both of rule R213 hold. -/
theorem refillMisuse_none_iff (s : State) :
    refillMisuse s = none ↔ s.bytesDma.toNat ≤ s.bytesApp.toNat ∧ s.room ≤ s.params.n := by
  unfold refillMisuse
  split
  · simp; omega
  · split
    · simp; omega
    · simp; omega

/-- REFILL halts at an accounting check. -/
theorem refill_misuse {s : State} {site : MisuseSite} (h : refillMisuse s = some site) :
    refill s = misuse site s := by rw [refill, h]

/-- Everything REFILL can do. -/
theorem refill_cases (s : State) :
    (∃ site, refillMisuse s = some site ∧ refill s = .stop (s.raise (.misuse site))) ∨
    (refillMisuse s = none ∧ ∃ ring, ring.length = s.ring.length ∧
      refill s = .go (s.filled (refillCount s) ring)) ∨
    (refillMisuse s = none ∧ 2 ^ 32 < s.appBuf.toNat + s.bytesApp.toNat ∧ ∃ f, refill s = .fault f) := by
  cases hm : refillMisuse s with
  | some site => exact .inl ⟨site, rfl, refill_misuse hm⟩
  | none =>
    refine .inr ?_
    have hb := (refillMisuse_none_iff s).1 hm
    cases hr : refillBytes (refillCount s) s with
    | go u =>
      obtain ⟨ring, h1, rfl⟩ := refillBytes_go hr
      refine .inl ⟨rfl, (poisonGuard (s.filled (refillCount s) ring)).ring, ?_, ?_⟩
      · rw [poisonGuard_eq]
        show (if _ then ring else ring.set _ _).length = _
        split <;> simp [h1]
      · simp only [refill, hm, hr, Flow.andThen_go, Flow.go.injEq]
        rw [poisonGuard_eq]
        rfl
    | stop u => exact absurd hr (refillBytes_ne_stop _ _ _)
    | fault f =>
      refine .inr ⟨rfl, ?_, f, by simp [refill, hm, hr]⟩
      by_contra hc
      refine refillBytes_ne_fault (k := refillCount s) (s := s) ?_ f hr
      have : refillCount s ≤ s.avail := Nat.min_le_left _ _
      simp only [State.avail] at this
      omega

/-- Where REFILL goes on, in the counters' exact values. -/
theorem refillCount_bounds {s : State} (h : refillMisuse s = none) :
    (s.bytesDma + BitVec.ofNat 32 (refillCount s)).toNat = s.bytesDma.toNat + refillCount s ∧
    (s.dmaFillto - (s.dmaIdx + BitVec.ofNat 32 (refillCount s))).toNat = s.room - refillCount s := by
  have h1 := (refillMisuse_none_iff s).1 h
  have h2 : refillCount s ≤ s.bytesApp.toNat - s.bytesDma.toNat := Nat.min_le_left _ _
  have h3 : refillCount s ≤ (s.dmaFillto - s.dmaIdx).toNat := Nat.min_le_right _ _
  have h4 := s.bytesApp.isLt
  have h5 := (s.dmaFillto - s.dmaIdx).isLt
  have hk : (BitVec.ofNat 32 (refillCount s)).toNat = refillCount s := by
    rw [BitVec.toNat_ofNat]; exact Nat.mod_eq_of_lt (by omega)
  constructor
  · rw [BitVec.toNat_add, hk]; exact Nat.mod_eq_of_lt (by omega)
  · simp only [State.room] at *
    generalize BitVec.ofNat 32 (refillCount s) = w at hk
    rw [← hk] at h3 ⊢
    have : s.dmaFillto - (s.dmaIdx + w) = (s.dmaFillto - s.dmaIdx) - w := by bv_omega
    rw [this]
    generalize s.dmaFillto - s.dmaIdx = r at *
    bv_omega

/-! ### CHECK_NEXT_BUFFER, DMA_A_RESTART, CTL_EXTEND, START_FRESH -/

/-- The splice verdict, case by case (rules R215, R216). -/
theorem spliceVerdict_cases (s : State) :
    (s.bytesDma = s.bytesApp ∧ s.nextValid = true ∧ s.bytesDma.toNat < s.scheduledDma.toNat ∧
      spliceVerdict s = .misuse) ∨
    (s.bytesDma = s.bytesApp ∧ s.nextValid = true ∧ s.scheduledDma = s.bytesDma ∧ spliceVerdict s = .swap) ∨
    ((s.bytesDma ≠ s.bytesApp ∨ s.nextValid = false ∨ s.scheduledDma.toNat < s.bytesDma.toNat) ∧
      spliceVerdict s = .stay) := by
  unfold spliceVerdict
  split
  · next h =>
    obtain ⟨h1, h2⟩ := h
    split
    · next h3 => exact .inl ⟨h1, h2, h3, rfl⟩
    · next h3 =>
      split
      · next h4 => exact .inr (.inl ⟨h1, h2, h4, rfl⟩)
      · next h4 =>
        refine .inr (.inr ⟨.inr (.inr ?_), rfl⟩)
        have : s.scheduledDma.toNat ≠ s.bytesDma.toNat := fun e => h4 (BitVec.toNat_inj.1 e)
        omega
  · next h =>
    refine .inr (.inr ⟨?_, rfl⟩)
    by_cases h1 : s.bytesDma = s.bytesApp
    · exact .inr (.inl (by simpa [h1] using h))
    · exact .inl h1

/-- Everything CHECK_NEXT_BUFFER can do: nothing, a Misuse, or the swap and its REFILL. -/
theorem checkNextBuffer_cases (s : State) :
    (spliceVerdict s = .stay ∧ checkNextBuffer s = .go s) ∨
    (spliceVerdict s = .misuse ∧ checkNextBuffer s = .stop (s.raise (.misuse .spliceSched))) ∨
    (spliceVerdict s = .swap ∧ checkNextBuffer s = refill (splice s)) := by
  cases h : spliceVerdict s <;> simp [checkNextBuffer, h, misuse]

/-- Where DMA_A_RESTART goes on: its refill and its splice went on. -/
theorem dmaARestart_go {s t : State} (h : dmaARestart s = .go t) :
    ∃ u v, refill (restartHead s) = .go u ∧ checkNextBuffer u = .go v ∧ t = restartTail v := by
  obtain ⟨v, hv, ht⟩ := Flow.andThen_eq_go h
  obtain ⟨u, hu, hc⟩ := Flow.andThen_eq_go hv
  exact ⟨u, v, hu, hc, by simpa using ht.symm⟩

/-- Where DMA_A_RESTART stops: its refill stopped, or its splice did. -/
theorem dmaARestart_stop {s t : State} (h : dmaARestart s = .stop t) :
    refill (restartHead s) = .stop t ∨ ∃ u, refill (restartHead s) = .go u ∧ checkNextBuffer u = .stop t := by
  rcases Flow.andThen_eq_stop h with h | ⟨v, -, h⟩
  · exact Flow.andThen_eq_stop h
  · cases h

/-- Everything CTL_EXTEND can do. -/
theorem ctlExtend_cases (k : Word) (s : State) :
    (s.bCnt = 0 ∧ ctlExtend k s = .go { s with bCnt := k, tcB := false, bEn := true }) ∨
    (s.bCnt ≠ 0 ∧ ctlExtend k s = .stop (s.raise (.misuse .extendBusy))) := by
  unfold ctlExtend misuse
  split
  · exact .inl ⟨‹_›, rfl⟩
  · exact .inr ⟨‹_›, rfl⟩

/-- The fresh start's REFILL passes its accounting checks. -/
theorem freshHead_refillMisuse {s : State} (ptr len : Word) (h : s.params.wf = true) :
    refillMisuse (freshHead ptr len s) = none := by
  rw [refillMisuse_none_iff]
  simp [State.room, Params.nWord_toNat h]

/-- Where START_FRESH goes on: its refill went on. -/
theorem startFresh_go {ptr len : Word} {s t : State} (h : startFresh ptr len s = .go t) :
    ∃ u, refill (freshHead ptr len s) = .go u ∧ t = freshTail u := by
  obtain ⟨u, hu, ht⟩ := Flow.andThen_eq_go h
  exact ⟨u, hu, by simpa using ht.symm⟩

/-- Where START_FRESH stops: its refill stopped. -/
theorem startFresh_stop {ptr len : Word} {s t : State} (h : startFresh ptr len s = .stop t) :
    refill (freshHead ptr len s) = .stop t := by
  rcases Flow.andThen_eq_stop h with h | ⟨u, -, h⟩
  · exact h
  · cases h

/-! ### The command port and a step -/

/-- The command port, case by case (rule R140). -/
theorem hostCommand_cases (s : State) (body : Host.Outcome State Fault Refusal) :
    (s.hostEnabled = true ∧ hostCommand s body = body) ∨
    (s.blocked = true ∧ s.halted = false ∧ hostCommand s body = .next (s.refuse .callerBlocked)) ∨
    (s.hostEnabled = false ∧ hostCommand s body = .fault (.notEnabled .host)) := by
  unfold hostCommand notEnabled
  cases s.hostEnabled <;> cases s.blocked <;> cases s.halted <;> simp

/-- A command is enabled exactly where no handler is active, the block runs and the main line is ready. -/
theorem hostEnabled_iff (s : State) : s.hostEnabled = true ↔
    s.dataPc = .off ∧ s.schedPc = .off ∧ s.halted = false ∧ s.mainPc = .ready := by
  cases hd : s.dataPc <;> cases hs : s.schedPc <;>
    simp [State.hostEnabled, State.mainTurn, State.curPrio, State.dataActive, State.schedActive, State.blocked, hd, hs]

/-- A poll is enabled exactly where no handler is active, the block runs and the main line waits. -/
theorem waitPollEnabled_iff (s : State) : s.waitPollEnabled = true ↔
    s.dataPc = .off ∧ s.schedPc = .off ∧ s.halted = false ∧ s.mainPc ≠ .ready := by
  cases hd : s.dataPc <;> cases hs : s.schedPc <;> cases hm : s.mainPc <;>
    simp [State.waitPollEnabled, State.mainTurn, State.curPrio, State.dataActive, State.schedActive, State.blocked,
      hd, hs, hm]

/-- A command other than INIT that gives a next state ran its body, or was refused. -/
theorem configuredCommand_next {s t : State} {body : Host.Outcome State Fault Refusal}
    (h : configuredCommand s body = .next t) :
    (s.hostEnabled = true ∧ s.configured = true ∧ body = .next t) ∨
    (s.hostEnabled = true ∧ s.configured = false ∧ t = s.refuse .notConfigured) ∨
    (s.blocked = true ∧ s.halted = false ∧ t = s.refuse .callerBlocked) := by
  unfold configuredCommand at h
  rcases hostCommand_cases s (if s.configured then body else .next (s.refuse .notConfigured)) with
    ⟨h1, h2⟩ | ⟨h1, h2, h3⟩ | ⟨h1, h2⟩
  · rw [h2] at h
    split at h
    · exact .inl ⟨h1, ‹_›, h⟩
    · exact .inr (.inl ⟨h1, Bool.not_eq_true _ ▸ ‹¬ _›, by simpa using h.symm⟩)
  · rw [h3] at h; exact .inr (.inr ⟨h1, h2, by simpa using h.symm⟩)
  · rw [h2] at h; cases h

/-- Everything a step that gives a next state can be: an operation, or a refusal, with its bytes taken. -/
theorem step_next {s t : State} (h : step s = .next t) :
    ∃ rest, (∃ i, i.wellFormed = true ∧ exec i (s.taken rest) = .next t) ∨
      ∃ reason, t = (s.taken rest).refuse reason := by
  unfold step at h
  split at h
  · next i who s1 hf =>
    have h1 : ∃ rest, s1 = s.taken rest := by
      unfold fetch at hf
      split at hf
      · split at hf <;> simp_all
        exact ⟨_, hf.2.2.symm⟩
      · cases hf
    obtain ⟨rest, rfl⟩ := h1
    refine ⟨rest, ?_⟩
    split at h
    · next ha =>
      refine .inl ⟨i, ?_, h⟩
      unfold admission at ha
      split at ha
      · cases ha
      · next hi => simpa [Instr.wellFormed] using hi
    · exact .inr ⟨_, by simpa using h.symm⟩
  · next s1 hf =>
    have h1 : ∃ rest, s1 = s.taken rest := by
      unfold fetch at hf
      split at hf
      · split at hf <;> simp_all
        exact ⟨_, hf.symm⟩
      · cases hf
    obtain ⟨rest, rfl⟩ := h1
    exact ⟨rest, .inr ⟨_, by simpa using h.symm⟩⟩
  · cases h
  · cases h

end Sys2Proof.Machine
end

