-- ==== Sys2Proof/Laws/Exec.lean ====
section
/-! SUPPORT. For each operation that an agent issues, once, everything it can do where it gives a next state. -/

namespace Sys2Proof.Machine

/-- A body that stands behind an enabling condition gives a next state only where the condition holds. -/
theorem guarded_next {c : Bool} {who : Agent} {x : Host.Outcome State Fault Refusal} {t : State}
    (h : (if c then x else notEnabled who) = .next t) : c = true ∧ x = .next t := by
  cases c with
  | true => exact ⟨rfl, by simpa using h⟩
  | false => simp [notEnabled] at h

/-- INIT. -/
theorem init_next {s t : State} (h : exec .init s = .next t) :
    (s.hostEnabled = true ∧ s.configured = false ∧ t = { ctlInit s with configured := true }) ∨
    ∃ reason, t = s.refuse reason := by
  simp only [exec, execInit] at h
  rcases hostCommand_cases s (if s.configured then .next (s.refuse .initTwice)
    else .next { ctlInit s with configured := true }) with ⟨h1, h2⟩ | ⟨-, -, h2⟩ | ⟨-, h2⟩
  · rw [h2] at h
    cases hc : s.configured with
    | true => rw [hc, if_pos rfl, Host.Outcome.next.injEq] at h; exact .inr ⟨_, h.symm⟩
    | false =>
      rw [hc, if_neg (by decide), Host.Outcome.next.injEq] at h
      exact .inl ⟨h1, rfl, h.symm⟩
  · rw [h2, Host.Outcome.next.injEq] at h; exact .inr ⟨_, h.symm⟩
  · rw [h2] at h; cases h

/-- What START_WRITE does while WRITING (rules R142, R145, R146). -/
theorem startWriting_cases (ptr len cref : Word) (s : State) :
    (s.nextValid = true ∧ s.nextAppBytes.toNat + len.toNat < 2 ^ 32 ∧
      ptr.toNat = s.nextAppBuf.toNat + s.nextAppBytes.toNat ∧
      startWriting ptr len cref s = { s with irqMask := false, nextAppBytes := s.nextAppBytes + len }) ∨
    (s.nextValid = true ∧ startWriting ptr len cref s =
      { s with irqMask := false, mainPc := .waitStart ptr len cref s.nowMs }) ∨
    (s.nextValid = false ∧ s.bytesApp.toNat + len.toNat < 2 ^ 32 ∧ ptr.toNat = s.appBuf.toNat + s.bytesApp.toNat ∧
      startWriting ptr len cref s = { s with irqMask := false, bytesApp := s.bytesApp + len }) ∨
    (s.nextValid = false ∧ startWriting ptr len cref s =
      { s with irqMask := false, nextAppBuf := ptr, nextAppBytes := len, nextValid := true }) ∨
    startWriting ptr len cref s = State.refuse { s with irqMask := false } .lengthOverflow := by
  by_cases hv : s.nextValid = true
  · have h0 : startWriting ptr len cref s = startQueued ptr len cref (irqMask s) := by
      rw [startWriting, if_pos hv]
    rw [h0, startQueued, irqMask_nextAppBuf, irqMask_nextAppBytes]
    by_cases hc : continues ptr s.nextAppBuf s.nextAppBytes = true
    · rw [if_pos hc]
      by_cases ho : lengthOverflows s.nextAppBytes len = true
      · rw [if_pos ho]; exact .inr (.inr (.inr (.inr rfl)))
      · rw [if_neg ho]
        rw [lengthOverflows_iff] at ho
        exact .inl ⟨hv, by omega, (continues_iff _ _ _).1 hc, rfl⟩
    · rw [if_neg hc]; exact .inr (.inl ⟨hv, rfl⟩)
  · have h0 : startWriting ptr len cref s = startActive ptr len (irqMask s) := by
      rw [startWriting, if_neg hv]
    have hf : s.nextValid = false := by simpa using hv
    rw [h0, startActive, irqMask_appBuf, irqMask_bytesApp]
    by_cases hc : continues ptr s.appBuf s.bytesApp = true
    · rw [if_pos hc]
      by_cases ho : lengthOverflows s.bytesApp len = true
      · rw [if_pos ho]; exact .inr (.inr (.inr (.inr rfl)))
      · rw [if_neg ho]
        rw [lengthOverflows_iff] at ho
        exact .inr (.inr (.inl ⟨hf, by omega, (continues_iff _ _ _).1 hc, rfl⟩))
    · rw [if_neg hc]; exact .inr (.inr (.inr (.inl ⟨hf, rfl⟩)))

/-- START_WRITE. -/
theorem startWrite_next {ptr len cref : Word} {s t : State} (h : exec (.startWrite ptr len cref) s = .next t) :
    t = s ∨ (∃ reason, t = s.refuse reason) ∨
    (s.hostEnabled = true ∧ s.configured = true ∧ ptr.toNat + len.toNat ≤ 2 ^ 32 ∧
      ((s.engine = .idle ∧ (startFresh ptr len s).outcome = .next t) ∨
        (s.engine = .writing ∧ t = startWriting ptr len cref s))) := by
  simp only [exec, execStartWrite] at h
  rcases configuredCommand_next h with ⟨h1, h2, h3⟩ | ⟨-, -, h3⟩ | ⟨-, -, h3⟩
  · split at h3
    · exact .inl (by simpa using h3.symm)
    · split at h3
      · exact .inr (.inl ⟨_, by simpa using h3.symm⟩)
      · next hb =>
        rw [bufferWraps_iff] at hb
        refine .inr (.inr ⟨h1, h2, by omega, ?_⟩)
        split at h3
        · exact .inl ⟨‹_›, h3⟩
        · next he =>
          refine .inr ⟨?_, by simpa using h3.symm⟩
          cases hs : s.engine
          · exact absurd hs he
          · rfl
  · exact .inr (.inl ⟨_, h3⟩)
  · exact .inr (.inl ⟨_, h3⟩)

/-- STOP_WRITE. -/
theorem stopWrite_next {s t : State} (h : exec .stopWrite s = .next t) :
    (s.hostEnabled = true ∧ t = { ctlStop s with irqMask := false }) ∨ ∃ reason, t = s.refuse reason := by
  simp only [exec, execStopWrite] at h
  rcases configuredCommand_next h with ⟨h1, h2, h3⟩ | ⟨-, -, h3⟩ | ⟨-, -, h3⟩
  · rw [Host.Outcome.next.injEq] at h3
    exact .inl ⟨h1, h3 ▸ rfl⟩
  · exact .inr ⟨_, h3⟩
  · exact .inr ⟨_, h3⟩

/-- FINISH_WRITE. -/
theorem finishWrite_next {cref : Word} {s t : State} (h : exec (.finishWrite cref) s = .next t) :
    t = s ∨ (∃ reason, t = s.refuse reason) ∨
    (s.hostEnabled = true ∧ s.engine = .writing ∧ t = { s with mainPc := .waitFinish cref s.nowMs }) := by
  simp only [exec, execFinishWrite] at h
  rcases configuredCommand_next h with ⟨h1, h2, h3⟩ | ⟨-, -, h3⟩ | ⟨-, -, h3⟩
  · split at h3
    · exact .inl (by simpa using h3.symm)
    · next he =>
      refine .inr (.inr ⟨h1, ?_, by simpa using h3.symm⟩)
      cases hs : s.engine
      · exact absurd hs he
      · rfl
  · exact .inr (.inl ⟨_, h3⟩)
  · exact .inr (.inl ⟨_, h3⟩)

/-- IS_WRITE_FINISHED. -/
theorem isWriteFinished_next {ptr : Word} {s t : State} (h : exec (.isWriteFinished ptr) s = .next t) :
    (s.hostEnabled = true ∧ ∃ b, t = State.emit { s with irqMask := false } (.result b)) ∨
    ∃ reason, t = s.refuse reason := by
  simp only [exec, execIsWriteFinished] at h
  rcases configuredCommand_next h with ⟨h1, h2, h3⟩ | ⟨-, -, h3⟩ | ⟨-, -, h3⟩
  · rw [Host.Outcome.next.injEq] at h3
    exact .inl ⟨h1, _, h3.symm⟩
  · exact .inr ⟨_, h3⟩
  · exact .inr ⟨_, h3⟩

/-- What a poll of a wait can do, where it does not fault. -/
theorem waitPoll_next {cref t0 : Word} {done : Flow} {s t : State} (h : (waitPoll cref t0 done s).outcome = .next t) :
    t = s ∨
    t = { ctlStop s with irqMask := false, mainPc := .ready } ∨
    (s.engine = .writing ∧ t = { ctlStop (((s.setCell cref).logRecord .stall).raise .stallTimeout) with
      irqMask := false, mainPc := .ready }) ∨
    (s.engine = .idle ∧ ((∃ u, done = .go u ∧ t = { u with mainPc := .ready }) ∨ done = .stop t)) := by
  have hw : ¬ s.engine = .idle → s.engine = .writing := by cases s.engine <;> simp
  unfold waitPoll at h
  split at h
  · rw [Flow.outcome_go, Host.Outcome.next.injEq] at h; exact .inr (.inl (h ▸ rfl))
  · split at h
    · refine .inr (.inr (.inr ⟨‹_›, ?_⟩))
      cases hd : done with
      | go u => rw [hd] at h; exact .inl ⟨u, rfl, by simpa using h.symm⟩
      | stop u => rw [hd] at h; exact .inr (by simpa using h)
      | fault f => rw [hd] at h; cases h
    · split at h
      · rw [Flow.outcome_go, Host.Outcome.next.injEq] at h; exact .inr (.inr (.inl ⟨hw ‹_›, h ▸ rfl⟩))
      · exact .inl (by simpa using h.symm)

/-- WAIT_POLL. -/
theorem execWaitPoll_next {s t : State} (h : exec .waitPoll s = .next t) :
    s.waitPollEnabled = true ∧
    ((∃ cref t0, s.mainPc = .waitFinish cref t0 ∧ (waitPoll cref t0 (.go s) s).outcome = .next t) ∨
      ∃ ptr len cref t0, s.mainPc = .waitStart ptr len cref t0 ∧
        (waitPoll cref t0 (startFresh ptr len s) s).outcome = .next t) := by
  simp only [exec, execWaitPoll] at h
  obtain ⟨h1, h2⟩ := guarded_next h
  refine ⟨h1, ?_⟩
  split at h2
  · cases h2
  · exact .inl ⟨_, _, ‹_›, h2⟩
  · exact .inr ⟨_, _, _, _, ‹_›, h2⟩

/-- ACK_ASSERT. -/
theorem ackAssert_next {s t : State} (h : exec .ackAssert s = .next t) :
    s.ack = false ∧
    (((s.halted = true ∨ s.timEn = false) ∧ t = { s with ack := true }) ∨
      (s.halted = false ∧ s.timEn = true ∧ t = { s with
        ack := true
        req := false
        aReq := true
        timPhase := .acked
        reqLost := s.reqLost || s.aReq
        trace := s.trace ++ (if s.req then [.req false] else []) ++ if s.aReq then [.err (.reqLost .a)] else [] })) := by
  simp only [exec, execAckAssert] at h
  split at h
  · cases h
  · refine ⟨by simpa using ‹¬ s.ack = true›, ?_⟩
    split at h
    · exact .inl ⟨.inl ‹_›, by simpa using h.symm⟩
    · split at h
      · refine .inr ⟨by simpa using ‹¬ s.halted = true›, ‹_›, ?_⟩
        rw [Host.Outcome.next.injEq] at h
        rw [← h, ackAsserted, requestA_eq, releaseReq_eq]
      · exact .inl ⟨.inr (by simpa using ‹¬ s.timEn = true›), by simpa using h.symm⟩

/-- ACK_RELEASE. -/
theorem ackRelease_next {s t : State} (h : exec .ackRelease s = .next t) :
    s.ack = true ∧
    (((s.halted = true ∨ s.timEn = false) ∧ t = { s with ack := false }) ∨
      (s.halted = false ∧ s.timEn = true ∧ t = { s with
        ack := false
        bReq := true
        timPhase := .released
        reqLost := s.reqLost || s.bReq
        trace := s.trace ++ if s.bReq then [.err (.reqLost .b)] else [] })) := by
  simp only [exec, execAckRelease] at h
  split at h
  · refine ⟨‹_›, ?_⟩
    split at h
    · exact .inl ⟨.inl ‹_›, by simpa using h.symm⟩
    · split at h
      · refine .inr ⟨by simpa using ‹¬ s.halted = true›, ‹_›, ?_⟩
        rw [Host.Outcome.next.injEq] at h
        rw [← h, ackReleased, requestB_eq]
      · exact .inl ⟨.inr (by simpa using ‹¬ s.timEn = true›), by simpa using h.symm⟩
  · cases h

/-- TIMER_REQ_ASSERT. -/
theorem timerReqAssert_next {s t : State} (h : exec .timerReqAssert s = .next t) :
    s.timEn = true ∧ s.timPhase = .primed ∧ s.halted = false ∧
      t = { s.emit (.req true) with req := true, timPhase := .reqOn } := by
  simp only [exec, execTimerReqAssert] at h
  obtain ⟨h1, h2⟩ := guarded_next h
  obtain ⟨a, b, c⟩ := (timerReqEnabled_iff s).1 h1
  exact ⟨a, b, c, by simpa using h2.symm⟩

/-- DMA_A_FETCH. -/
theorem dmaAFetch_next {s t : State} (h : exec .dmaAFetch s = .next t) :
    s.aEn = true ∧ s.pfq.length < s.params.prefetchDepth ∧ s.halted = false ∧
      t = { s with pfq := s.pfq ++ [s.ringRead (s.slot s.aFetch)], aFetch := s.aFetch + 1 } := by
  simp only [exec, execDmaAFetch] at h
  obtain ⟨h1, h2⟩ := guarded_next h
  obtain ⟨a, b, c⟩ := (fetchEnabled_iff s).1 h1
  exact ⟨a, b, c, by simpa using h2.symm⟩

/-- DMA_A_XFER. -/
theorem dmaAXfer_next {s t : State} (h : exec .dmaAXfer s = .next t) :
    s.aReq = true ∧ s.aEn = true ∧ s.halted = false ∧ t = { s.outWrite s.nextImage with
      pfq := s.pfq.tail
      aFetch := if s.pfq = [] then s.aFetch + 1 else s.aFetch
      aReq := false
      aXfer := s.aXfer + 1
      htA := s.htA || halfEvent s.params (s.aXfer + 1)
      tcA := s.tcA || fullEvent s.params (s.aXfer + 1) } := by
  simp only [exec, execDmaAXfer] at h
  obtain ⟨h1, h2⟩ := guarded_next h
  obtain ⟨a, b, c⟩ := (aXferEnabled_iff s).1 h1
  refine ⟨a, b, c, ?_⟩
  rw [Host.Outcome.next.injEq] at h2
  rw [← h2, takeImage_eq]
  rfl

/-- DMA_B_XFER. -/
theorem dmaBXfer_next {s t : State} (h : exec .dmaBXfer s = .next t) :
    s.bReq = true ∧ s.bEn = true ∧ s.bCnt ≠ 0 ∧ s.aReq = false ∧ s.halted = false ∧ t = { s with
      timPhase := if s.timEn then .primed else s.timPhase
      bReq := false
      bCnt := s.bCnt - 1
      tcB := s.tcB || s.bCnt - 1 == 0 } := by
  simp only [exec, execDmaBXfer] at h
  obtain ⟨h1, h2⟩ := guarded_next h
  obtain ⟨a, b, c, d, e⟩ := (bXferEnabled_iff s).1 h1
  refine ⟨a, b, c, d, e, ?_⟩
  rw [Host.Outcome.next.injEq] at h2
  rw [← h2, egrWrite_update, timerUpdate_eq]
  rfl

/-- DATA_IRQ. -/
theorem dataIrq_next {s t : State} (h : exec .dataIrq s = .next t) :
    s.halted = false ∧ (s.dataPc = .off → s.dataPending = true ∧ s.dataEn = true ∧ s.irqMask = false) ∧
      (dataStep s).outcome = .next t := by
  simp only [exec, execDataIrq] at h
  obtain ⟨h1, h2⟩ := guarded_next h
  rcases (dataIrqEnabled_iff s).1 h1 with h3 | ⟨h3, h4⟩
  · obtain ⟨-, b, c, d, e⟩ := (dataEntryEnabled_iff s).1 h3
    exact ⟨e, fun _ => ⟨b, c, d⟩, h2⟩
  · exact ⟨h4, fun h5 => absurd h5 h3, h2⟩

/-- SCHED_IRQ. -/
theorem schedIrq_next {s t : State} (h : exec .schedIrq s = .next t) :
    s.halted = false ∧ s.dataPc = .off ∧ (s.schedPc = .off → s.schedPending = true ∧ s.irqMask = false) ∧
      (schedStep s).outcome = .next t := by
  have off : s.dataFirst = false → s.dataPc = .off := by
    intro hf
    rw [Bool.eq_false_iff, ne_eq, dataFirst_iff] at hf
    by_contra hc
    exact hf (.inl hc)
  simp only [exec, execSchedIrq] at h
  obtain ⟨h1, h2⟩ := guarded_next h
  rcases (schedIrqEnabled_iff s).1 h1 with h3 | ⟨h3, h4, h5⟩
  · obtain ⟨-, b, -, d, e, f⟩ := (schedEntryEnabled_iff s).1 h3
    exact ⟨f, off e, fun _ => ⟨b, d⟩, h2⟩
  · exact ⟨h5, off h4, fun h6 => absurd h6 h3, h2⟩

end Sys2Proof.Machine
end

