-- ==== Sys2Proof/Laws/PerInstr.lean ====
section
/-! SUPPORT. Statements made per operation. -/

namespace Sys2Proof.Laws.EncodeLength

/-- An operation's bytes are its `OPC` and as many operand words as its format names (rules R114, R122), and no
operation has a reserved `OPC` (rule R118). -/
def Statement (i : Instr) : Prop :=
  (encode i).length = 1 + 4 * operandWords i.opc ∧ decode [i.opc] ≠ .reserved i.opc []

theorem init : Statement .init := ⟨rfl, nofun⟩
theorem startWrite (a b c : Word) : Statement (.startWrite a b c) := ⟨rfl, nofun⟩
theorem stopWrite : Statement .stopWrite := ⟨rfl, nofun⟩
theorem finishWrite (a : Word) : Statement (.finishWrite a) := ⟨rfl, nofun⟩
theorem isWriteFinished (a : Word) : Statement (.isWriteFinished a) := ⟨rfl, nofun⟩
theorem waitPoll : Statement .waitPoll := ⟨rfl, nofun⟩
theorem setCancel (a : Word) : Statement (.setCancel a) := ⟨rfl, nofun⟩
theorem clockTick (a : Word) : Statement (.clockTick a) := ⟨rfl, nofun⟩
theorem ackAssert : Statement .ackAssert := ⟨rfl, nofun⟩
theorem ackRelease : Statement .ackRelease := ⟨rfl, nofun⟩
theorem timerReqAssert : Statement .timerReqAssert := ⟨rfl, nofun⟩
theorem dmaAFetch : Statement .dmaAFetch := ⟨rfl, nofun⟩
theorem dmaAXfer : Statement .dmaAXfer := ⟨rfl, nofun⟩
theorem dmaBXfer : Statement .dmaBXfer := ⟨rfl, nofun⟩
theorem dataIrq : Statement .dataIrq := ⟨rfl, nofun⟩
theorem schedIrq : Statement .schedIrq := ⟨rfl, nofun⟩
theorem refill : Statement .refill := ⟨rfl, nofun⟩
theorem checkNextBuffer : Statement .checkNextBuffer := ⟨rfl, nofun⟩
theorem ctlInit : Statement .ctlInit := ⟨rfl, nofun⟩
theorem ctlStart : Statement .ctlStart := ⟨rfl, nofun⟩
theorem ctlStop : Statement .ctlStop := ⟨rfl, nofun⟩
theorem ctlExtend : Statement .ctlExtend := ⟨rfl, nofun⟩
theorem dmaARestart : Statement .dmaARestart := ⟨rfl, nofun⟩
theorem irqMask : Statement .irqMask := ⟨rfl, nofun⟩
theorem irqUnmask : Statement .irqUnmask := ⟨rfl, nofun⟩
theorem timerUpdate : Statement .timerUpdate := ⟨rfl, nofun⟩

end Sys2Proof.Laws.EncodeLength
end

