-- ==== Sys2Proof/Laws/Runs.lean ====
section
/-! SUPPORT. Stretches of a session and schedules, said once: what a step takes and counts, the induction over a stretch,
and what stays as it was where no operation is taken. -/

namespace Sys2Proof.Safety

open Sys2Proof.Machine

@[simp] theorem Tally.add_transfers (c : Tally) (s : State) (op : Option Instr) :
    (c.add s op).transfers = c.transfers + (op == some .dmaAXfer).toNat := rfl
@[simp] theorem Tally.add_resets (c : Tally) (s : State) (op : Option Instr) :
    (c.add s op).resets = c.resets + (op == some .dmaBXfer).toNat := rfl
@[simp] theorem Tally.add_requests (c : Tally) (s : State) (op : Option Instr) :
    (c.add s op).requests = c.requests + (op == some .timerReqAssert).toNat := rfl
@[simp] theorem Tally.add_extensions (c : Tally) (s : State) (op : Option Instr) :
    (c.add s op).extensions = c.extensions + (op == some .schedIrq && s.schedPc == .extend).toNat := rfl
@[simp] theorem Tally.add_none (c : Tally) (s : State) : c.add s none = c := rfl

/-- A step that gives a next state takes an operation with its meaning, or none and is a refusal. -/
theorem step_taken {s t : State} (h : step s = .next t) :
    ∃ rest, (∃ i, takenOp s = some i ∧ i.wellFormed = true ∧ exec i (s.taken rest) = .next t) ∨
      (takenOp s = none ∧ ∃ reason, t = (s.taken rest).refuse reason) := by
  have fetched : ∀ {i who s1}, fetch s = .op i who s1 → ∃ rest, s1 = s.taken rest := by
    intro i who s1 hf
    unfold fetch at hf
    split at hf
    · split at hf <;> simp_all
      exact ⟨_, hf.2.2.symm⟩
    · cases hf
  have reserved : ∀ {s1}, fetch s = .reserved s1 → ∃ rest, s1 = s.taken rest := by
    intro s1 hf
    unfold fetch at hf
    split at hf
    · split at hf <;> simp_all
      exact ⟨_, hf.symm⟩
    · cases hf
  unfold step at h
  split at h
  · next i who s1 hf =>
    obtain ⟨rest, rfl⟩ := fetched hf
    refine ⟨rest, ?_⟩
    split at h
    · next ha =>
      refine .inl ⟨i, by simp [takenOp, hf, ha], ?_, h⟩
      unfold admission at ha
      split at ha
      · cases ha
      · next hi => simpa [Instr.wellFormed] using hi
    · next reason ha => exact .inr ⟨by simp [takenOp, hf, ha], reason, by simpa using h.symm⟩
  · next s1 hf =>
    obtain ⟨rest, rfl⟩ := reserved hf
    exact ⟨rest, .inr ⟨by simp [takenOp, hf], _, by simpa using h.symm⟩⟩
  · cases h
  · cases h

/-- The engine is WRITING at both ends of a stretch. -/
theorem Stretch.writing {s t : State} {c : Tally} (h : Stretch s c t) : s.engine = .writing ∧ t.engine = .writing := by
  induction h with
  | here h => exact ⟨h, h⟩
  | next _ _ ht ih => exact ⟨ih.1, ht⟩

/-- What holds where a stretch begins and is kept by each of its steps holds where it ends. -/
theorem Stretch.keeps {P : Tally → State → Prop} {s t : State} {c : Tally} (h : Stretch s c t) (start : P .zero s)
    (each : ∀ c u v, P c u → u.engine = .writing → v.engine = .writing → step u = .next v →
      P (c.add u (takenOp u)) v) : P c t := by
  induction h with
  | here _ => exact start
  | next hu hs ht ih => exact each _ _ _ ih hu.writing.2 ht hs

@[simp] theorem outwCount_nil : outwCount [] = 0 := rfl
@[simp] theorem reqCount_nil : reqCount [] = 0 := rfl
@[simp] theorem outwCount_append (a b : List Event) : outwCount (a ++ b) = outwCount a + outwCount b := by
  simp [outwCount]
@[simp] theorem reqCount_append (a b : List Event) : reqCount (a ++ b) = reqCount a + reqCount b := by
  simp [reqCount]

/-- A stall, unit by unit: each of the block's six steps waits for the PEER, for a command or for the host's wait. -/
theorem stall_iff_no_unit_enabled (s : State) : Stalled s ↔ s.engine = .writing ∧ s.halted = false ∧
    s.timerReqEnabled = false ∧ s.fetchEnabled = false ∧ s.aXferEnabled = false ∧ s.bXferEnabled = false ∧
    s.dataIrqEnabled = false ∧ s.schedIrqEnabled = false := by
  refine ⟨fun ⟨hw, hh, h⟩ => ⟨hw, hh, h .timerReqAssert rfl, h .dmaAFetch rfl, h .dmaAXfer rfl, h .dmaBXfer rfl,
    h .dataIrq rfl, h .schedIrq rfl⟩, fun ⟨hw, hh, ht, hf, ha, hb, hd, hs⟩ => ⟨hw, hh, fun i hi => ?_⟩⟩
  cases i <;> first | assumption | cases hi

/-- A stall does not depend on the main line's label (rule R329). -/
theorem stall_any_mainPc (s : State) (pc : MainPc) : Stalled { s with mainPc := pc } ↔ Stalled s := by
  simp only [stall_iff_no_unit_enabled]; exact Iff.rfl

/-- Where no operation is taken, the handlers' labels, the session and the marks that stop them stay. -/
theorem Between.keeps {s t : State} (h : Between s t) :
    t.dataPc = s.dataPc ∧ t.schedPc = s.schedPc ∧ t.halted = s.halted ∧ t.engine = s.engine ∧
      t.bytesApp = s.bytesApp ∧ t.bytesDma = s.bytesDma ∧ t.dmaIdx = s.dmaIdx ∧ t.dmaFillto = s.dmaFillto := by
  obtain rfl | ⟨_, rfl⟩ | ⟨_, _, rfl⟩ := h <;> exact ⟨rfl, rfl, rfl, rfl, rfl, rfl, rfl, rfl⟩

/-- A moment of a schedule at which an operation is taken. -/
theorem Schedule.Valid.taken {r : Schedule} (h : r.Valid) {n : Nat} {i : Instr} (hi : r.op n = some i) :
    i.wellFormed = true ∧ exec i (r.state n) = .next (r.state (n + 1)) := by
  have := h n
  rwa [hi] at this

/-- A moment of a schedule at which none is. -/
theorem Schedule.Valid.idle {r : Schedule} (h : r.Valid) {n : Nat} (hi : r.op n = none) :
    Between (r.state n) (r.state (n + 1)) := by
  have := h n
  rwa [hi] at this

end Sys2Proof.Safety
end

