-- ==== Sys2Proof/Tests/Slice0.lean ====
section
/-! SUPPORT. Checks of the model's own work: ill-formed terms refused, words written out from the spec's encodings, one
step of each operation on the fixture of 95_test_vectors.md section 1, and, for each statement with hypotheses, states
and operands that meet them (`witness_<statement>`). Expected values come from the spec's rules and vectors, as each
group says. -/

namespace Sys2Proof.Tests

open Sys2Proof.Machine Sys2Proof.Safety

set_option Elab.async false

/-! ### The fixture (95_test_vectors.md section 1) -/

/-- `N = 8`, no prefetch. -/
def p8 : Params := Config.vectorParams 3 0

/-- `N = 8`, prefetch depth 1. -/
def p8f : Params := Config.vectorParams 3 1

/-- Power-on reset, with the fixture's 0xEEE in the ring and in `OUT`. -/
def r0 : State := .resetWith p8 (List.replicate 8 0xEEE) 0xEEE

/-- After INIT, with ABCD at 0x1000 and EF after it. -/
def ready : State :=
  { r0 with
    configured := true, aHtie := true, aTcie := true, bTcie := true, dataEn := true, schedEn := true
    mem := [(0x1000, 0x41), (0x1001, 0x42), (0x1002, 0x43), (0x1003, 0x44), (0x1004, 0x45), (0x1005, 0x46)] }

/-- The state where `i` goes from `s`. -/
def after (i : Instr) (s : State) : State :=
  match exec i s with
  | .next t => t
  | .fault _ => s
  | .refused _ => s

/-- The session that `start_write 0x1000, 4, c0` begins. -/
def writing : State := after (.startWrite 0x1000 4 0) ready

/-- The fixture meets the properties of the parameters. -/
theorem p8_wf : p8.wf = true := Config.vectorParams_wf (by decide) (by decide) (by decide)

/-- The fixture with prefetch meets them. -/
theorem p8f_wf : p8f.wf = true := Config.vectorParams_wf (by decide) (by decide) (by decide)

/-- The session keeps the fixture's parameters. -/
theorem writing_wf : writing.params.wf = true := by
  have h : writing.params = p8 := by decide +kernel
  rw [h]; exact p8_wf

/-! ### Ill-formed terms, one for each check -/

theorem test_wellFormed_internal : (Instr.ctlStop).wellFormed = false := by decide
theorem test_issuedBy_other : (Instr.ackAssert).issuedBy .host = false := by decide
theorem test_ringOk_one_entry : (Params.ringOk { p8 with logN := 0 }) = false := by decide
theorem test_ringOk_too_large : (Params.ringOk { p8 with logN := 32 }) = false := by decide
theorem test_tableShape_short : (Params.tableShapeOk { p8 with table := [0] }) = false := by decide
theorem test_tableShape_wide : (Params.tableShapeOk { p8 with imgW := 8 }) = false := by decide +kernel
theorem test_tableDistinct : (Params.tableDistinct { p8 with table := [1, 2, 1] }) = false := by decide
theorem test_poisonInvalid : (Params.poisonInvalid { p8 with parityMask := 0x101 }) = false := by decide +kernel
theorem test_parity_two_bits : (Params.parityOk { p8 with parityMask := 0x300 }) = false := by decide
theorem test_prefetch_too_deep : (Params.prefetchOk { p8 with prefetchDepth := 5 }) = false := by decide
theorem test_run_cut : runOk [0x02, 0x00, 0x10, 0x00] = false := by decide
theorem test_memory_order : Memory.wf [(2, 1), (1, 1)] = false := by decide
theorem test_memory_blank : Memory.wf [(2, 0)] = false := by decide
theorem test_cells_order : Cells.wf [2, 2] = false := by decide

/-! ### Words written out from rules R114 to R116 and R122 -/

theorem test_decode_init : decode [0x01] = .op .init [] := by decide
theorem test_decode_startWrite :
    decode [0x02, 0x00, 0x10, 0x00, 0x00, 0x04, 0x00, 0x00, 0x00, 0x01, 0x00, 0x00, 0x80] =
      .op (.startWrite 0x1000 4 0x80000001) [] := by decide
theorem test_decode_stopWrite : decode [0x03, 0x01] = .op .stopWrite [0x01] := by decide
theorem test_decode_finishWrite : decode [0x04, 0x78, 0x56, 0x34, 0x12] = .op (.finishWrite 0x12345678) [] := by decide
theorem test_decode_isWriteFinished :
    decode [0x05, 0xFF, 0xFF, 0xFF, 0xFF] = .op (.isWriteFinished 0xFFFFFFFF) [] := by decide
theorem test_decode_waitPoll : decode [0x06] = .op .waitPoll [] := by decide
theorem test_decode_setCancel : decode [0x08, 0x02, 0x00, 0x00, 0x00] = .op (.setCancel 2) [] := by decide
theorem test_decode_clockTick : decode [0x09, 0x88, 0x13, 0x00, 0x00] = .op (.clockTick 5000) [] := by decide
theorem test_decode_ackAssert : decode [0x10] = .op .ackAssert [] := by decide
theorem test_decode_ackRelease : decode [0x11] = .op .ackRelease [] := by decide
theorem test_decode_timerReqAssert : decode [0x18] = .op .timerReqAssert [] := by decide
theorem test_decode_dmaAFetch : decode [0x19] = .op .dmaAFetch [] := by decide
theorem test_decode_dmaAXfer : decode [0x1A] = .op .dmaAXfer [] := by decide
theorem test_decode_dmaBXfer : decode [0x1B] = .op .dmaBXfer [] := by decide
theorem test_decode_dataIrq : decode [0x20] = .op .dataIrq [] := by decide
theorem test_decode_schedIrq : decode [0x21] = .op .schedIrq [] := by decide
theorem test_decode_refill : decode [0x30] = .op .refill [] := by decide
theorem test_decode_checkNextBuffer : decode [0x31] = .op .checkNextBuffer [] := by decide
theorem test_decode_ctlInit : decode [0x32] = .op .ctlInit [] := by decide
theorem test_decode_ctlStart : decode [0x33] = .op .ctlStart [] := by decide
theorem test_decode_ctlStop : decode [0x34] = .op .ctlStop [] := by decide
theorem test_decode_ctlExtend : decode [0x35] = .op .ctlExtend [] := by decide
theorem test_decode_dmaARestart : decode [0x36] = .op .dmaARestart [] := by decide
theorem test_decode_irqMask : decode [0x37] = .op .irqMask [] := by decide
theorem test_decode_irqUnmask : decode [0x38] = .op .irqUnmask [] := by decide
theorem test_decode_timerUpdate : decode [0x39] = .op .timerUpdate [] := by decide

/-- The bytes rule R122 gives for `start_write 0x1000, 4, c0`. -/
theorem test_encode_startWrite : encode (.startWrite 0x1000 4 0) = [0x02, 0x00, 0x10, 0, 0, 0x04, 0, 0, 0, 0, 0, 0, 0] := by
  decide

/-- Both ends of each reserved range of rule R118. -/
theorem test_reserved : [0x00, 0x07, 0x0A, 0x0F, 0x12, 0x17, 0x1C, 0x1F, 0x22, 0x2F, 0x3A, 0xFF].all
    (fun opc : Byte => decide (decode [opc] = .reserved opc [])) = true := by decide

/-- The table word of START_WRITE with its operand words: `OPC` lowest, then `ptr`, `len`, `cref` (rules R114, R122). -/
theorem test_tableWord : decodeTableWord 104 0x00000000_00000004_00001000_02 = some (.startWrite 0x1000 4 0) := by decide

/-- A shorter table word leaves the operand words zero. -/
theorem test_tableWord_short : decodeTableWord 8 0x09 = some (.clockTick 0) := by decide

/-- The text of rule R122's example, read and written. -/
theorem test_text : render (.startWrite 0x1000 4 0) = ['s', 't', 'a', 'r', 't', '_', 'w', 'r', 'i', 't', 'e', ' ', '0', 'x',
    '1', '0', '0', '0', ',', ' ', '4', ',', ' ', 'c', '0'] ∧
    readLine (render (.startWrite 0x1000 4 0)) = some (.op (.startWrite 0x1000 4 0)) := by decide +kernel

/-- The number of a cell is hexadecimal or decimal, as every number is (rule R120). -/
theorem test_text_cell :
    readLine ['s', 'e', 't', '_', 'c', 'a', 'n', 'c', 'e', 'l', ' ', 'c', '0', 'x', '1', 'F'] =
      some (.op (.setCancel 31)) ∧
    readLine ['s', 'e', 't', '_', 'c', 'a', 'n', 'c', 'e', 'l', ' ', 'c', '3', '1'] = some (.op (.setCancel 31)) ∧
    readLine ['s', 'e', 't', '_', 'c', 'a', 'n', 'c', 'e', 'l', ' ', 'c', '0', 'x'] = none := by decide +kernel

/-! ### One step of each operation: the examples of the operation's own rule -/

theorem test_init : (after .init r0).register 0x10 = some 0x5E ∧ (after .init r0).register 0x20 = some 0x48 := by decide
theorem test_startWrite_fresh : writing.ring = [0x141, 0x142, 0x043, 0x144, 0, 0xEEE, 0xEEE, 0xEEE] ∧ writing.bCnt = 4 ∧
    writing.dmaIdx = 4 ∧ writing.incompleteBuf = true ∧ writing.engine = .writing := by decide +kernel
theorem test_startWrite_merge : (after (.startWrite 0x1004 4 1) writing).bytesApp = 8 ∧
    (after (.startWrite 0x1000 4 1) writing).nextValid = true := by decide +kernel
theorem test_stopWrite : (after .stopWrite writing).engine = .idle ∧ (after .stopWrite writing).gpioMode = .plain ∧
    (after .stopWrite writing).trace = [.mode .engine, .mode .plain] := by decide +kernel
theorem test_finishWrite : (after (.finishWrite 7) writing).mainPc = .waitFinish 7 0 := by decide +kernel
theorem test_waitPoll_stall :
    let t := after .waitPoll (after (.clockTick 5000) (after (.finishWrite 0) writing))
    t.log.length = 1 ∧ t.cell 0 = true ∧ t.engine = .idle ∧ t.mainPc = .ready := by decide +kernel
theorem test_waitPoll_starts :
    let t := after .waitPoll { ready with mainPc := .waitStart 0x1004 2 0 0 }
    t.engine = .writing ∧ t.bytesApp = 2 ∧ t.mainPc = .ready := by decide +kernel
theorem test_isWriteFinished : (after (.isWriteFinished 0x1003) writing).trace = [.mode .engine, .result false] ∧
    (after (.isWriteFinished 0x1004) writing).trace = [.mode .engine, .result true] := by decide +kernel
theorem test_setCancel : (after (.setCancel 1) ready).cells = [1] := by decide
theorem test_clockTick : (after (.clockTick 5000) ready).nowMs = 5000 := by decide
theorem test_clockTick_wraps : (after (.clockTick 2) { ready with nowMs := 0xFFFFFFFF }).nowMs = 1 := by decide
theorem test_timerReqAssert : (after .timerReqAssert writing).req = true ∧
    (after .timerReqAssert writing).trace = [.mode .engine, .req true] := by decide +kernel
theorem test_ackAssert :
    let t := after .ackAssert (after .timerReqAssert writing)
    t.ack = true ∧ t.req = false ∧ t.aReq = true ∧ t.timPhase = .acked := by decide +kernel
theorem test_ackRelease :
    let t := after .ackRelease { writing with ack := true, timPhase := .acked }
    t.ack = false ∧ t.bReq = true ∧ t.timPhase = .released := by decide +kernel
theorem test_ackRelease_lost :
    let t := after .ackRelease { writing with ack := true, bReq := true }
    t.reqLost = true ∧ t.bReq = true ∧ t.trace = [.mode .engine, .err (.reqLost .b)] := by decide +kernel
theorem test_dmaAFetch :
    let t := after .dmaAFetch { writing with params := p8f }
    t.pfq = [0x141] ∧ t.aFetch = 1 ∧ t.aXfer = 0 := by decide +kernel
theorem test_dmaAXfer :
    let t := after .dmaAXfer { writing with aReq := true }
    t.out = 0x141 ∧ t.aXfer = 1 ∧ t.aReq = false ∧ t.htA = false := by decide +kernel
theorem test_dmaAXfer_wraps :
    let t := after .dmaAXfer { writing with aReq := true, aXfer := 7, aFetch := 0xC }
    t.out = 0 ∧ t.poisonOut = 1 ∧ t.tcA = true ∧ t.htA = false := by decide +kernel
theorem test_dmaBXfer :
    let t := after .dmaBXfer { writing with bReq := true, timPhase := .released }
    t.bCnt = 3 ∧ t.bReq = false ∧ t.timPhase = .primed ∧ t.tcB = false := by decide +kernel
theorem test_dataIrq_overrun :
    let t := after .dataIrq { writing with htA := true, tcA := true }
    t.engine = .idle ∧ t.overrunSeen = true ∧ t.dataPc = .off ∧ t.log.length = 1 := by decide +kernel
theorem test_dataIrq_entry :
    let t := after .dataIrq { writing with htA := true, incompleteBuf := false }
    t.dmaFillto = 12 ∧ t.dataPc = .refill1 ∧ t.htA = false := by decide +kernel
theorem test_schedIrq_stop : (after .schedIrq { writing with tcB := true }).engine = .idle := by decide +kernel
theorem test_schedIrq_extend :
    let t := after .schedIrq { writing with schedPc := .extend, bytesApp := 6, bCnt := 0 }
    t.bCnt = 2 ∧ t.scheduledDma = 6 ∧ t.schedPc = .off := by decide +kernel
theorem test_refill :
    let t := after .refill { ready with appBuf := 0x1000, bytesApp := 4, dmaFillto := 8 }
    t.ring = [0x141, 0x142, 0x043, 0x144, 0, 0xEEE, 0xEEE, 0xEEE] ∧ t.dmaIdx = 4 ∧ t.bytesDma = 4 := by decide +kernel
theorem test_checkNextBuffer :
    let t := after .checkNextBuffer { writing with
      bytesDma := 4, scheduledDma := 4, nextAppBuf := 0x1003, nextAppBytes := 3, nextValid := true }
    t.appBuf = 0x1003 ∧ t.bytesApp = 3 ∧ t.bytesDma = 3 ∧ t.scheduledDma = 0 ∧
      t.ring = [0x141, 0x142, 0x043, 0x144, 0x144, 0x045, 0x046, 0] := by decide +kernel
theorem test_ctlInit : (after .ctlInit r0).register 0x40 = some 6 := by decide
theorem test_ctlStart : (ctlStart 4 ready).bCnt = 4 ∧ (ctlStart 4 ready).scheduledDma = 4 ∧
    (ctlStart 4 ready).timPhase = .primed ∧ (ctlStart 4 ready).req = false := by decide
theorem test_ctlStop : (after .ctlStop { writing with req := true }).trace =
    [.mode .engine, .req false, .mode .plain] := by decide +kernel
theorem test_ctlExtend :
    let t := after .ctlExtend { writing with bytesApp := 10, bCnt := 0, bReq := true, timPhase := .released }
    t.bCnt = 6 ∧ (after .dmaBXfer t).bCnt = 5 ∧ (after .dmaBXfer t).timPhase = .primed := by decide +kernel
theorem test_dmaARestart :
    let t := after .dmaARestart { writing with bytesApp := 6, bCnt := 0 }
    t.bytesDma = 6 ∧ t.ring.take 3 = [0x045, 0x046, 0] ∧ t.dmaIdx = 2 ∧ t.incompleteBuf = true := by decide +kernel
theorem test_irqMask : (after .irqMask ready).irqMask = true := by decide
theorem test_irqUnmask : (after .irqUnmask { ready with irqMask := true }).irqMask = false := by decide
theorem test_timerUpdate : (after .timerUpdate ready).timPhase = .off ∧
    (after .timerUpdate { ready with timEn := true }).timPhase = .primed := by decide

/-- `byte_cycle` (rule R121) delivers one byte: 41_handshake.md rule R195. -/
theorem test_byteCycle :
    let t := (Pseudo.expand writing .byteCycle).foldl (fun s i => after i s) writing
    t.trace = [.mode .engine, .req true, .req false, .outw 0x141] ∧ t.bCnt = 3 ∧ t.timPhase = .primed := by
  decide +kernel

/-- The step count of a handler run with `incomplete_buf = 1`: `E END` (95_test_vectors.md section 1.4). -/
theorem test_irqDataAll_starved :
    (Pseudo.expand { writing with htA := true } .irqDataAll).length = 2 := by decide +kernel

/-- A write run from reset: the operation, its bytes taken, its agent checked. -/
theorem test_step_wrongAgent :
    (match step { ready with run := [0x10, 0x11], issuers := [some .host] } with
      | .next t => t.refused && t.run == [0x11] && !t.ack
      | .fault _ => false
      | .refused _ => false) = true := by decide

/-! ### States and operands that meet each statement's hypotheses -/

theorem hostReady_r0 : HostReady r0 := ⟨rfl, rfl, rfl, rfl⟩
theorem commandReady_ready : CommandReady ready := ⟨⟨rfl, rfl, rfl, rfl⟩, rfl⟩
theorem hostReady_writing : HostReady writing :=
  ⟨by decide +kernel, by decide +kernel, by decide +kernel, by decide +kernel⟩
theorem commandReady_writing : CommandReady writing := ⟨hostReady_writing, by decide +kernel⟩

/-- Any change that leaves the command port and `configured` alone leaves the port ready. -/
theorem commandReady_of {s : State} (h : s.dataPc = .off ∧ s.schedPc = .off ∧ s.mainPc = .ready ∧ s.halted = false ∧
    s.configured = true) : CommandReady s := ⟨⟨h.1, h.2.1, h.2.2.1, h.2.2.2.1⟩, h.2.2.2.2⟩

theorem witness_EveryOperationHasOneEncoding :
    decode [0x04, 0xFF, 0xFF, 0xFF, 0xFF, 0x06] = .op (.finishWrite 0xFFFFFFFF) [0x06] := by decide
theorem witness_ReservedOpcodesRefused :
    runOk [0xFF, 0x3A] = true ∧ decode [0xFF, 0x3A] = .reserved 0xFF [0x3A] := by decide
theorem witness_InternalAndWrongAgentRefused :
    (runOk [0x30] = true ∧ decode [0x30] = .op .refill [] ∧ Instr.refill.format = .i) ∧
    (runOk [0x39] = true ∧ decode [0x39] = .op .timerUpdate [] ∧ Instr.timerUpdate.format = .i) ∧
    (runOk [0x21] = true ∧ decode [0x21] = .op .schedIrq [] ∧ Instr.schedIrq.format ≠ .i ∧
      [some Agent.data].head? = some (some .data) ∧ Instr.schedIrq.agent ≠ some .data) := by decide
theorem witness_NoStepWithoutAnOperation :
    runOk ({ ready with run := [0x08, 1, 0, 0] } : State).run = false ∧ ({ ready with run := [] } : State).run = [] := by
  decide
theorem witness_StepRunsDecodedOperation :
    runOk [0x06, 0xFF] = true ∧ decode [0x06, 0xFF] = .op .waitPoll [0xFF] ∧ Instr.waitPoll.wellFormed = true ∧
    ([] : List (Option Agent)).head? = none ∧ [none (α := Agent)].head? = some none ∧
    [some Agent.main].head? = some Instr.waitPoll.agent := by decide
theorem witness_InitConfiguresOnce :
    (HostReady r0 ∧ r0.configured = false) ∧ (HostReady ready ∧ ready.configured = true) ∧
      ∃ t, exec .init .reset = .next t :=
  ⟨⟨hostReady_r0, rfl⟩, ⟨commandReady_ready.1, rfl⟩, _, rfl⟩
theorem witness_CommandPort :
    (isHostCommand .stopWrite = true ∧ isHostCommand (.startWrite 0 0 0) = true ∧ isHostCommand .init = true) ∧
    (let s := { ready with mainPc := .waitFinish 0 0 }
     s.halted = false ∧ s.dataPc = .off ∧ s.schedPc = .off ∧ s.mainPc ≠ .ready) ∧
    (let s := { ready with schedPc := .extend }
     s.halted = false ∧ s.mainPc = .ready ∧ (s.dataPc ≠ .off ∨ s.schedPc ≠ .off)) ∧
    (let s := { ready with dataPc := .finish }
     s.halted = false ∧ s.mainPc = .ready ∧ (s.dataPc ≠ .off ∨ s.schedPc ≠ .off)) ∧
    ({ ready with halted := true } : State).halted = true ∧
    (HostReady r0 ∧ r0.configured = false ∧ Instr.stopWrite ≠ .init) :=
  ⟨by decide, by decide, by decide, by decide, rfl, hostReady_r0, rfl, by decide⟩
theorem witness_StartWriteZeroLength : CommandReady ready ∧ CommandReady writing :=
  ⟨commandReady_ready, commandReady_writing⟩

/-- A buffer that ends at the top of AM, and the largest one. -/
theorem witness_FreshStartPrimesAndArms :
    ready.params.wf = true ∧ ready.ring.length = ready.params.n ∧
    (0xFFFFFFFC : Word).toNat + (4 : Word).toNat ≤ 2 ^ 32 ∧ (1 : Word).toNat + (0xFFFFFFFF : Word).toNat ≤ 2 ^ 32 ∧
    CommandReady ready ∧ ready.engine = .idle ∧ (4 : Word) ≠ 0 :=
  ⟨p8_wf, by decide, by decide, by decide, commandReady_ready, rfl, by decide⟩

/-- The four choices, each at the largest merged length or next to contiguity. -/
theorem witness_StartWriteMergesQueuesOrBlocks :
    (let s := { writing with nextValid := true, nextAppBuf := 0, nextAppBytes := 0xFFFFFFFE }
     CommandReady s ∧ s.engine = .writing ∧ (1 : Word) ≠ 0 ∧ (0xFFFFFFFE : Word).toNat + (1 : Word).toNat ≤ 2 ^ 32 ∧
       s.nextValid = true ∧ (0xFFFFFFFE : Word).toNat = s.nextAppBuf.toNat + s.nextAppBytes.toNat ∧
       s.nextAppBytes.toNat + (1 : Word).toNat < 2 ^ 32) ∧
    (let s := { writing with nextValid := true, nextAppBuf := 0, nextAppBytes := 3 }
     CommandReady s ∧ s.nextValid = true ∧ (4 : Word).toNat ≠ s.nextAppBuf.toNat + s.nextAppBytes.toNat) ∧
    (CommandReady writing ∧ writing.engine = .writing ∧ writing.nextValid = false ∧
      (0x1004 : Word).toNat = writing.appBuf.toNat + writing.bytesApp.toNat ∧
      writing.bytesApp.toNat + (2 : Word).toNat < 2 ^ 32) ∧
    (writing.nextValid = false ∧ (0x1003 : Word).toNat ≠ writing.appBuf.toNat + writing.bytesApp.toNat) :=
  ⟨⟨commandReady_of (by decide +kernel), by decide +kernel⟩, ⟨commandReady_of (by decide +kernel), by decide +kernel⟩,
    ⟨commandReady_writing, by decide +kernel⟩, by decide +kernel⟩

/-- One byte too many for AM; and merges to a length of exactly 2^32. -/
theorem witness_StartWriteRefusals :
    (CommandReady ready ∧ (4 : Word) ≠ 0 ∧ 2 ^ 32 < (0xFFFFFFFD : Word).toNat + (4 : Word).toNat) ∧
    (let s := { writing with nextValid := true, nextAppBuf := 0, nextAppBytes := 1 }
     CommandReady s ∧ (0xFFFFFFFF : Word) ≠ 0 ∧ (1 : Word).toNat + (0xFFFFFFFF : Word).toNat ≤ 2 ^ 32 ∧
       s.engine = .writing ∧ s.nextValid = true ∧ (1 : Word).toNat = s.nextAppBuf.toNat + s.nextAppBytes.toNat ∧
       2 ^ 32 ≤ s.nextAppBytes.toNat + (0xFFFFFFFF : Word).toNat) ∧
    (let s := { writing with appBuf := 0, bytesApp := 1 }
     CommandReady s ∧ s.engine = .writing ∧ s.nextValid = false ∧
       (1 : Word).toNat = s.appBuf.toNat + s.bytesApp.toNat ∧ 2 ^ 32 ≤ s.bytesApp.toNat + (0xFFFFFFFF : Word).toNat) :=
  ⟨⟨commandReady_ready, by decide⟩, ⟨commandReady_of (by decide +kernel), by decide +kernel⟩,
    ⟨commandReady_of (by decide +kernel), by decide +kernel⟩⟩
theorem witness_StopWriteStops :
    (HostReady r0 ∧ r0.configured = false) ∧ (HostReady writing ∧ writing.configured = true) :=
  ⟨⟨hostReady_r0, rfl⟩, ⟨hostReady_writing, by decide +kernel⟩⟩
theorem witness_FinishWriteWaits :
    (HostReady r0 ∧ r0.configured = false) ∧ (CommandReady ready ∧ ready.engine = .idle) ∧
      (CommandReady writing ∧ writing.engine = .writing) :=
  ⟨⟨hostReady_r0, rfl⟩, ⟨commandReady_ready, rfl⟩, ⟨commandReady_writing, by decide +kernel⟩⟩

/-- A poll at each exit: the cell set; completion of either wait; the timeout at exactly 5000 ms, and 1 ms before. -/
theorem witness_WaitPollExits :
    (ready.mainPc = .ready ∧ ({ ready with mainPc := .waitFinish 0 0, halted := true } : State).halted = true) ∧
    (let s := { writing with mainPc := .waitFinish 3 0, cells := [3] }
     PollReady s (.waitFinish 3 0) ∧ (3 : Word).toNat ∈ s.cells) ∧
    (let s := { ready with mainPc := .waitFinish 3 0 }
     PollReady s (.waitFinish 3 0) ∧ (3 : Word).toNat ∉ s.cells ∧ s.engine = .idle) ∧
    (let s := { ready with mainPc := .waitStart 0xFFFFFFFC 4 3 0 }
     PollReady s (.waitStart 0xFFFFFFFC 4 3 0) ∧ (3 : Word).toNat ∉ s.cells ∧ s.engine = .idle ∧ s.params.wf = true ∧
       s.ring.length = s.params.n ∧ (0xFFFFFFFC : Word).toNat + (4 : Word).toNat ≤ 2 ^ 32) ∧
    (let s := { writing with mainPc := .waitStart 0 4 3 0xFFFFFFFF, nowMs := 4999 }
     PollReady s (.waitStart 0 4 3 0xFFFFFFFF) ∧ (3 : Word).toNat ∉ s.cells ∧ s.engine = .writing ∧
       s.params.stallTimeoutMs ≤ (s.nowMs - 0xFFFFFFFF).toNat) ∧
    (let s := { writing with mainPc := .waitFinish 3 0xFFFFFFFF, nowMs := 4998 }
     PollReady s (.waitFinish 3 0xFFFFFFFF) ∧ (3 : Word).toNat ∉ s.cells ∧ s.engine = .writing ∧
       (s.nowMs - 0xFFFFFFFF).toNat < s.params.stallTimeoutMs) :=
  have w : ∀ c : List Nat, ∀ pc n, PollReady { writing with mainPc := pc, cells := c, nowMs := n } pc := fun _ _ _ =>
    ⟨hostReady_writing.1, hostReady_writing.2, rfl, hostReady_writing.4⟩
  have e : writing.cells = [] := by decide +kernel
  ⟨⟨rfl, rfl⟩, ⟨⟨hostReady_writing.1, hostReady_writing.2, rfl, hostReady_writing.4⟩, by decide⟩,
    ⟨⟨rfl, rfl, rfl, rfl⟩, by decide, rfl⟩, ⟨⟨rfl, rfl, rfl, rfl⟩, by decide, rfl, p8_wf, by decide, by decide⟩,
    ⟨w writing.cells _ _, by rw [e]; decide, by decide +kernel, by decide +kernel⟩,
    ⟨w writing.cells _ _, by rw [e]; decide, by decide +kernel, by decide +kernel⟩⟩
theorem witness_IsWriteFinishedAnswers : (HostReady r0 ∧ r0.configured = false) ∧ CommandReady writing :=
  ⟨⟨hostReady_r0, rfl⟩, commandReady_writing⟩
theorem witness_TimerAssertsRequest :
    (writing.timEn = true ∧ writing.timPhase = .primed ∧ writing.halted = false) ∧
    ¬ (ready.timEn = true ∧ ready.timPhase = .primed ∧ ready.halted = false) := by decide +kernel
theorem witness_AckAssertLatchesRequestA :
    ({ writing with ack := true } : State).ack = true ∧
    (ready.ack = false ∧ (ready.halted = true ∨ ready.timEn = false)) ∧
    (writing.ack = false ∧ writing.halted = false ∧ writing.timEn = true ∧ writing.aReq = false) ∧
    (let s := { writing with aReq := true }
     s.ack = false ∧ s.halted = false ∧ s.timEn = true ∧ s.aReq = true) := by decide +kernel
theorem witness_AckReleaseLatchesRequestB :
    writing.ack = false ∧
    (let s := { ready with ack := true }
     s.ack = true ∧ (s.halted = true ∨ s.timEn = false)) ∧
    (let s := { writing with ack := true }
     s.ack = true ∧ s.halted = false ∧ s.timEn = true ∧ s.bReq = false) ∧
    (let s := { writing with ack := true, bReq := true }
     s.ack = true ∧ s.halted = false ∧ s.timEn = true ∧ s.bReq = true) := by decide +kernel
theorem witness_DmaAFetchPrefetches : p8f.wf = true ∧
    (let s := { writing with params := p8f }
     s.aEn = true ∧ s.pfq.length < s.params.prefetchDepth ∧ s.halted = false) ∧
    (let s := { writing with params := p8f, pfq := [0] }
     ¬ (s.aEn = true ∧ s.pfq.length < s.params.prefetchDepth ∧ s.halted = false)) := ⟨p8f_wf, by decide +kernel⟩

/-- A delivery from the queue, and one from the last slot of the ring, which raises the full event. -/
theorem witness_DmaAXferDelivers : writing.params.wf = true ∧
    (let s := { writing with aReq := true, pfq := [5, 6] }
     s.aReq = true ∧ s.aEn = true ∧ s.halted = false ∧ s.pfq = 5 :: [6] ∧ s.aFetch = s.aFetch) ∧
    (let s := { writing with aReq := true, aFetch := 7, aXfer := 7 }
     s.aReq = true ∧ s.pfq = [] ∧ s.ring.getD (s.aFetch.toNat % s.params.n) 0 = 0xEEE ∧
       (s.aXfer + 1).toNat % s.params.n = 0) ∧
    ¬ (writing.aReq = true ∧ writing.aEn = true ∧ writing.halted = false) := ⟨writing_wf, by decide +kernel⟩
theorem witness_DmaBXferResetsTimer :
    (let s := { writing with bReq := true, bCnt := 1 }
     s.bReq = true ∧ s.bEn = true ∧ s.bCnt ≠ 0 ∧ s.aReq = false ∧ s.halted = false) ∧
    (let s := { writing with bReq := true, aReq := true }
     ¬ (s.bReq = true ∧ s.bEn = true ∧ s.bCnt ≠ 0 ∧ s.aReq = false ∧ s.halted = false)) := by decide +kernel
theorem witness_NoTimerResetWhileCopyOwed :
    (Instr.setCancel 0).wellFormed = true ∧ ({ writing with aReq := true } : State).engine = .writing ∧
      (∃ t, exec (.setCancel 0) { writing with aReq := true } = .next t) ∧
      (after (.setCancel 0) { writing with aReq := true }).timPhase = .primed :=
  ⟨by decide, by decide +kernel, ⟨_, rfl⟩, by decide +kernel⟩
theorem witness_DataEntryStep :
    (let s := { writing with htA := true, tcA := true }
     s.dataPc = .off ∧ s.halted = false ∧ s.irqMask = false ∧ s.dataEn = true ∧ s.aHtie = true ∧ s.aTcie = true ∧
       s.htA = true ∧ s.tcA = true) ∧
    (let s := { writing with tcA := true }
     s.htA ≠ s.tcA) ∧
    (let s := { writing with htA := true, incompleteBuf := false }
     s.htA ≠ s.tcA ∧ s.incompleteBuf = false) := by decide +kernel

/-- A failed check on each side; the last byte; the end of the byte loop for want of room and for want of bytes. -/
theorem witness_DataRefillSteps : writing.params.wf = true ∧
    (let s := { writing with dataPc := .refill1, bytesDma := 5 }
     s.halted = false ∧ s.bytesApp.toNat < s.bytesDma.toNat) ∧
    (let s := { writing with dataPc := .refill2, dmaFillto := 13 }
     s.params.n < (s.dmaFillto - s.dmaIdx).toNat) ∧
    (let s := { writing with dataPc := .refill2, bytesDma := 3, dmaIdx := 0xFFFFFFFF, dmaFillto := 0 }
     s.bytesDma.toNat < s.bytesApp.toNat ∧ s.dmaIdx ≠ s.dmaFillto ∧ (s.dmaFillto - s.dmaIdx).toNat ≤ s.params.n ∧
       s.appBuf.toNat + s.bytesDma.toNat < 2 ^ 32) ∧
    (let s := { writing with dataPc := .refill1, bytesDma := 3, dmaIdx := 8 }
     s.bytesDma.toNat ≤ s.bytesApp.toNat ∧ (s.dmaFillto - s.dmaIdx).toNat ≤ s.params.n ∧ s.dmaIdx = s.dmaFillto) ∧
    (let s := { writing with dataPc := .refill1 }
     s.bytesDma.toNat ≤ s.bytesApp.toNat ∧ (s.dmaFillto - s.dmaIdx).toNat ≤ s.params.n ∧ s.bytesDma = s.bytesApp) ∧
    ({ writing with dataPc := .poison1 } : State).dataPc = .poison1 := ⟨writing_wf, by decide +kernel⟩
theorem witness_DataSpliceStep :
    (let s := { writing with dataPc := .cnb, nextValid := true, scheduledDma := 5 }
     s.dataPc = .cnb ∧ s.halted = false ∧ s.bytesDma = s.bytesApp ∧ s.nextValid = true ∧
       s.bytesDma.toNat < s.scheduledDma.toNat) ∧
    (let s := { writing with dataPc := .cnb, nextValid := true }
     s.bytesDma = s.bytesApp ∧ s.nextValid = true ∧ s.scheduledDma = s.bytesDma) ∧
    (let s := { writing with dataPc := .cnb, nextValid := true, scheduledDma := 3 }
     s.scheduledDma.toNat < s.bytesDma.toNat) := by decide +kernel
theorem witness_DataEndStep :
    let s := { writing with dataPc := .finish }
    s.dataPc = .finish ∧ s.halted = false := by decide +kernel

/-- Nothing new, one byte more than scheduled, and nothing new but a queued buffer. -/
theorem witness_SchedEntryDecides :
    (let s := { writing with tcB := true }
     s.dataPc = .off ∧ s.schedPc = .off ∧ s.halted = false ∧ s.irqMask = false ∧ s.schedEn = true ∧ s.bTcie = true ∧
       s.tcB = true ∧ s.htA = false ∧ s.tcA = false ∧ s.bytesApp.toNat ≤ s.scheduledDma.toNat ∧ s.nextValid = false) ∧
    (let s := { writing with tcB := true, bytesApp := 5 }
     s.scheduledDma.toNat < s.bytesApp.toNat) ∧
    ({ writing with tcB := true, nextValid := true } : State).nextValid = true := by decide +kernel

/-- The session's own invariants hold of the session that has just begun, and of the one an event follows. -/
theorem sessionInv_writing : SessionInv writing where
  translated := by decide +kernel
  scheduled := by decide +kernel
  queueEmpty := fun _ => by decide +kernel
  activeFits := by decide +kernel
  queuedFits := by decide +kernel
  waitingFits := fun _ _ _ _ h => by rw [hostReady_writing.3] at h; cases h
theorem sessionInv_ready : SessionInv ready where
  translated := by decide
  scheduled := by decide
  queueEmpty := fun _ => rfl
  activeFits := by decide
  queuedFits := by decide
  waitingFits := fun _ _ _ _ h => by cases h
theorem sessionInv_restart : SessionInv { writing with schedPc := .restart, bCnt := 0 } where
  translated := sessionInv_writing.1
  scheduled := sessionInv_writing.2
  queueEmpty := sessionInv_writing.3
  activeFits := sessionInv_writing.4
  queuedFits := sessionInv_writing.5
  waitingFits := sessionInv_writing.6
theorem witness_SchedRestartStep :
    (let s := { ready with schedPc := .restart }
     s.dataPc = .off ∧ s.schedPc = .restart ∧ s.halted = false ∧ s.htA = false ∧ s.tcA = false ∧ s.engine = .idle) ∧
    (let s := { writing with schedPc := .restart, bCnt := 0 }
     s.dataPc = .off ∧ s.schedPc = .restart ∧ s.halted = false ∧ s.htA = false ∧ s.tcA = false ∧
       s.engine = .writing ∧ s.params.wf = true ∧ SessionInv s) :=
  ⟨by decide, hostReady_writing.1, rfl, hostReady_writing.4, by decide +kernel, by decide +kernel, by decide +kernel,
    writing_wf, sessionInv_restart⟩
theorem witness_SchedExtendStep :
    (let s := { ready with schedPc := .extend }
     s.dataPc = .off ∧ s.schedPc = .extend ∧ s.halted = false ∧ s.htA = false ∧ s.tcA = false ∧ s.engine = .idle) ∧
    (let s := { writing with schedPc := .extend, bytesApp := 5, bCnt := 0 }
     s.engine = .writing ∧ s.scheduledDma.toNat < s.bytesApp.toNat ∧ s.bCnt = 0) ∧
    (let s := { writing with schedPc := .extend, bCnt := 0 }
     s.engine = .writing ∧ s.scheduledDma = s.bytesApp) ∧
    (let s := { writing with schedPc := .extend, bytesApp := 5, bCnt := 1 }
     s.engine = .writing ∧ s.scheduledDma.toNat < s.bytesApp.toNat ∧ s.bCnt ≠ 0) := by decide +kernel
theorem witness_HandlerPriority :
    (let s := { writing with dataPc := .cnb }
     s.dataPc ≠ .off) ∧
    (let s := { writing with tcA := true, tcB := true }
     ((s.htA = true ∧ s.aHtie = true) ∨ (s.tcA = true ∧ s.aTcie = true)) ∧ s.dataEn = true ∧ s.dataPc = .off ∧
       s.halted = false ∧ s.irqMask = false) ∧
    ({ writing with schedPc := .extend } : State).schedPc ≠ .off := by decide +kernel

/-- A failed check on each side; a REFILL that fills the ring and one that ends in poison, over the wrap of the cursor. -/
theorem witness_RefillTranslatesAndGuards : ready.params.wf = true ∧
    (let s := { ready with bytesDma := 1 }
     s.bytesApp.toNat < s.bytesDma.toNat) ∧
    (let s := { ready with dmaFillto := 9 }
     s.bytesDma.toNat ≤ s.bytesApp.toNat ∧ s.params.n < (s.dmaFillto - s.dmaIdx).toNat) ∧
    (let s := { ready with appBuf := 0xFFFFFFF8, bytesApp := 8, dmaIdx := 0xFFFFFFFE, dmaFillto := 6 }
     s.ring.length = s.params.n ∧ s.bytesDma.toNat ≤ s.bytesApp.toNat ∧
       (s.dmaFillto - s.dmaIdx).toNat ≤ s.params.n ∧ s.appBuf.toNat + s.bytesApp.toNat ≤ 2 ^ 32) ∧
    (let s := { ready with appBuf := 0x1000, bytesApp := 4, dmaIdx := 0xFFFFFFFE, dmaFillto := 6 }
     s.bytesDma.toNat ≤ s.bytesApp.toNat ∧ (s.dmaFillto - s.dmaIdx).toNat ≤ s.params.n ∧
       s.appBuf.toNat + s.bytesApp.toNat ≤ 2 ^ 32) := ⟨p8_wf, by decide +kernel⟩
theorem witness_CheckNextBufferSplices : writing.params.wf = true ∧
    (let s := { writing with nextValid := true, scheduledDma := 5 }
     s.bytesDma = s.bytesApp ∧ s.nextValid = true ∧ s.bytesDma.toNat < s.scheduledDma.toNat) ∧
    (writing.nextValid = false) ∧
    (let s := { writing with nextValid := true, nextAppBuf := 0xFFFFFFFD, nextAppBytes := 3 }
     s.bytesDma = s.bytesApp ∧ s.nextValid = true ∧ s.scheduledDma = s.bytesDma ∧
       s.ring.length = s.params.n ∧ (s.dmaFillto - s.dmaIdx).toNat ≤ s.params.n ∧
       s.nextAppBuf.toNat + s.nextAppBytes.toNat ≤ 2 ^ 32) := ⟨writing_wf, by decide +kernel⟩
theorem idleInv_ready : IdleInv ready := fun _ =>
  ⟨⟨rfl, rfl⟩, ⟨rfl, rfl, rfl, rfl⟩, ⟨rfl, rfl, rfl⟩, ⟨rfl, rfl, rfl, rfl⟩, ⟨rfl, rfl, rfl⟩, ⟨rfl, rfl, rfl⟩, rfl, rfl⟩
theorem witness_StopOnIdleChangesNothing :
    ready.engine = .idle ∧ IdleInv ready ∧ CommandReady ready ∧ ready.irqMask = false :=
  ⟨rfl, idleInv_ready, commandReady_ready, rfl⟩
theorem witness_CtlExtendSetsCount :
    (let s := { writing with bytesApp := 5, bCnt := 0, bReq := true }
     s.scheduledDma.toNat < s.bytesApp.toNat ∧ s.bCnt = 0) ∧
    (let s := { writing with bytesApp := 5, bCnt := 1 }
     s.scheduledDma.toNat < s.bytesApp.toNat ∧ s.bCnt ≠ 0) := by decide +kernel
theorem witness_RestartResumesAtScheduled :
    (writing.params.wf = true ∧ writing.ring.length = writing.params.n ∧ SessionInv writing ∧
      ¬ (writing.scheduledDma = writing.bytesApp ∧ writing.nextValid = true)) ∧
    (let s := { ready with nextValid := true, nextAppBuf := 0x1004, nextAppBytes := 2 }
     s.params.wf = true ∧ s.ring.length = s.params.n ∧ SessionInv s ∧ s.scheduledDma = s.bytesApp ∧
       s.nextValid = true) :=
  ⟨⟨writing_wf, by decide +kernel, sessionInv_writing, by decide +kernel⟩, p8_wf, by decide,
    ⟨by decide, by decide, fun h => by (cases h), by decide, by decide, fun _ _ _ _ h => by cases h⟩, by decide, rfl⟩
theorem witness_DisabledOperationsTakeNoStep :
    (Instr.dmaBXfer.wellFormed = true ∧ enabled .dmaBXfer writing = false) ∧
    (Instr.stopWrite.wellFormed = true ∧ enabled .stopWrite { ready with mainPc := .waitFinish 0 0 } = false) := by
  decide +kernel
theorem witness_HaltedBlockIsStuck :
    let s := { writing with halted := true }
    Instr.dmaAXfer.wellFormed = true ∧ Instr.ackAssert.wellFormed = true ∧ s.halted = true ∧ s.ack = false := by
  decide +kernel
theorem witness_MarksAndRecordsOnlyGrow : ∃ t, step { writing with run := [0x18], halted := false } = .next t :=
  ⟨after .timerReqAssert { writing with run := [] }, by rfl⟩
theorem witness_MemoryReadOnlyAndOutOwned :
    (∃ t, step { r0 with run := [0x09, 1, 0, 0, 0] } = .next t) ∧
    (Instr.dmaAXfer.wellFormed = true ∧ ∃ t, exec .dmaAXfer { ready with aReq := true, aEn := true } = .next t) :=
  ⟨⟨_, rfl⟩, by decide, ⟨_, rfl⟩⟩
theorem witness_EngineStateTransitions :
    ((Instr.startWrite 0x1000 4 0).wellFormed = true ∧ ready.engine = .idle ∧ writing.engine = .writing) ∧
    (Instr.stopWrite.wellFormed = true ∧ (after .stopWrite writing).engine = .idle) := by decide +kernel

/-! Each invariant holds of the session that has just begun, and a step goes on from there. -/

theorem shapeInv_ready : ShapeInv ready where
  params := p8_wf
  ringLength := by decide
  ringImages := by decide
  queueImages := by decide
  outImage := by decide
  queueLength := by decide
  memory := by decide
  cells := by decide
theorem shapeInv_writing : ShapeInv writing where
  params := writing_wf
  ringLength := by decide +kernel
  ringImages := by decide +kernel
  queueImages := by decide +kernel
  outImage := by decide +kernel
  queueLength := by decide +kernel
  memory := by decide +kernel
  cells := by decide +kernel
theorem controlInv_writing : ControlInv writing where
  armed := fun _ _ => ⟨by decide +kernel, by decide +kernel, by decide +kernel, by decide +kernel⟩
  unmasked := fun _ => by decide +kernel
  sources := by decide +kernel
  engineConfigured := fun _ => by decide +kernel
  waitConfigured := fun _ => by decide +kernel
theorem fillInv_writing : FillInv writing where
  gap := fun _ _ h => by revert h; decide +kernel
  filled := fun _ _ h _ => by revert h; decide +kernel
  refilling := fun _ _ h _ => absurd hostReady_writing.1 h
theorem countInv_writing : CountInv writing where
  atEvent := by decide +kernel
  inHandler := fun h => absurd hostReady_writing.2 h
theorem occupancyInv_writing : OccupancyInv writing where
  written := fun _ _ => by decide +kernel
  released := fun _ _ => by decide +kernel
theorem handshakeInv_writing : HandshakeInv writing where
  writing := fun _ _ => ⟨by decide +kernel, by decide +kernel, by
    have h : writing.timPhase = .primed := by decide +kernel
    unfold phaseLines; rw [h]; decide +kernel⟩
  idle := by decide +kernel
  waiting := fun h => absurd hostReady_writing.3 h
/-- The session that has just begun, with the timer's request next in the written run. -/
def requesting : State := { writing with run := [0x18], issuers := [] }
theorem requesting_next : ∃ t, step requesting = .next t := ⟨after .timerReqAssert { requesting with run := [] }, by rfl⟩
theorem witness_ShapeKeptByEveryStep : ShapeInv requesting ∧ ∃ t, step requesting = .next t :=
  ⟨⟨shapeInv_writing.1, shapeInv_writing.2, shapeInv_writing.3, shapeInv_writing.4, shapeInv_writing.5,
    shapeInv_writing.6, shapeInv_writing.7, shapeInv_writing.8⟩, requesting_next⟩
theorem witness_SessionBoundsKeptByEveryStep : SessionInv requesting ∧ ∃ t, step requesting = .next t :=
  ⟨⟨sessionInv_writing.1, sessionInv_writing.2, sessionInv_writing.3, sessionInv_writing.4, sessionInv_writing.5,
    sessionInv_writing.6⟩, requesting_next⟩
theorem witness_IdleRestKeptByEveryStep :
    let s := { ready with run := [0x00, 0, 0, 0, 0, 1, 0, 0, 0, 0, 0, 0, 0] }
    IdleInv s ∧ s.engine = .idle ∧ (∃ t, step s = .next t) :=
  ⟨fun _ => ⟨⟨rfl, rfl⟩, ⟨rfl, rfl, rfl, rfl⟩, ⟨rfl, rfl, rfl⟩, ⟨rfl, rfl, rfl, rfl⟩, ⟨rfl, rfl, rfl⟩, ⟨rfl, rfl, rfl⟩,
    rfl, rfl⟩, rfl, ⟨_, rfl⟩⟩
theorem witness_ArmedAndUnmaskedKeptByEveryStep : ControlInv requesting ∧ ∃ t, step requesting = .next t :=
  ⟨⟨fun _ _ => ⟨by decide +kernel, by decide +kernel, by decide +kernel, by decide +kernel⟩,
    controlInv_writing.2, controlInv_writing.3, controlInv_writing.4, controlInv_writing.5⟩, requesting_next⟩
theorem witness_FillFetchCountKeptByEveryStep :
    FillInv requesting ∧ FetchInv requesting ∧ CountInv requesting ∧ ∃ t, step requesting = .next t :=
  ⟨⟨fillInv_writing.1, fillInv_writing.2, fillInv_writing.3⟩, fun _ => by decide +kernel,
    ⟨countInv_writing.1, countInv_writing.2⟩, requesting_next⟩

/-! Misuse, occupancy, the handshake and the whole data handler. -/

theorem idleInv_writing (s : State) (h : s.engine = .writing) : IdleInv s := fun g => by rw [h] at g; cases g

/-- The zero extension is within reach of a step: the handler stands at `S_EXTEND` with nothing to extend by. -/
theorem witness_MisuseOnlyAtZeroExtension :
    let s := { writing with schedPc := .extend, bCnt := 0, run := [0x21], issuers := [] }
    s.params.wf = true ∧ SessionInv s ∧ IdleInv s ∧ FillInv s ∧ CountInv s ∧
      (∃ t, step s = .next t ∧ s.halted = false ∧ t.halted = true) := by
  intro s
  exact ⟨writing_wf, ⟨sessionInv_writing.1, sessionInv_writing.2, sessionInv_writing.3, sessionInv_writing.4,
    sessionInv_writing.5, sessionInv_writing.6⟩, idleInv_writing s (by decide +kernel),
    ⟨fillInv_writing.1, fillInv_writing.2, fillInv_writing.3⟩, ⟨by decide +kernel, fun _ => by decide +kernel⟩,
    ⟨after .schedIrq { s with run := [] }, by rfl, by decide +kernel, by decide +kernel⟩⟩

/-- A delivery: `a_xfer` far below the bound. -/
theorem witness_RingNeverOverwritesUndelivered :
    let s := { writing with aReq := true, run := [0x1A], issuers := [] }
    s.params.wf = true ∧ OccupancyInv s ∧ s.aXfer.toNat + s.params.n + 1 < 2 ^ 32 ∧ (∃ t, step s = .next t) ∧
      s.engine = .writing ∧ s.halted = false :=
  ⟨writing_wf, ⟨occupancyInv_writing.1, occupancyInv_writing.2⟩, by decide +kernel, ⟨_, by rfl⟩,
    by decide +kernel, by decide +kernel⟩

/-- The timer's request, and the PEER's answer to it. -/
theorem witness_HandshakeLosesNoRequest :
    let s := { writing with timPhase := .reqOn, req := true, run := [0x10], issuers := [] }
    HandshakeInv s ∧ s.reqLost = false ∧ (∃ t, step s = .next t ∧ PeerDuty s t ∧ t.ack = true) := by
  intro s
  refine ⟨⟨fun _ _ => ⟨by decide +kernel, by decide +kernel, ?_⟩, fun h => absurd h (by decide +kernel),
    handshakeInv_writing.3⟩, by decide +kernel, after .ackAssert { s with run := [] }, by rfl,
    ⟨fun _ _ => by decide +kernel, fun _ _ => by decide +kernel⟩, by decide +kernel⟩
  exact ⟨rfl, by decide +kernel, by decide +kernel, by decide +kernel⟩

/-- The two ends of a peer stall (70_reset_and_hazards.md rule R329): a peer that never answers the request stalls the
block while the host waits, the poll at the timeout ends the stall, and so does STOP_WRITE where it does not wait. -/
theorem test_peer_stall :
    let s := { writing with timPhase := .reqOn, req := true, mainPc := .waitFinish 3 0, nowMs := 5000 }
    Stalled s ∧ s.waitPollEnabled = true ∧ (after .waitPoll s).engine = .idle ∧ (after .waitPoll s).stallSeen = true ∧
      (after .stopWrite { s with mainPc := .ready }).engine = .idle := by
  intro s
  exact ⟨(stall_iff_no_unit_enabled s).2 (by decide +kernel), by decide +kernel, by decide +kernel, by decide +kernel,
    by decide +kernel⟩

/-- Answered, the same block is not stalled: the copy is owed (rule R329, 'nothing owed to the hardware'). -/
theorem test_no_stall_while_copy_owed :
    ¬ Stalled { writing with timPhase := .acked, ack := true, aReq := true } := fun h => by
  have e := ((stall_iff_no_unit_enabled _).1 h).2.2.2.2.1
  revert e; decide +kernel

/-- The request event comes with the step, not with a change of `req` (rule R182's pseudocode; log entry 35). -/
theorem test_timerReqAssert_again :
    let s := { writing with timPhase := .primed, req := true }
    (after .timerReqAssert s).trace = s.trace ++ [.req true] := by decide +kernel

/-- A stretch of one step, the first request of the session, from a fresh start with ACK released. -/
theorem witness_SessionCountsKeepOrder :
    ControlInv requesting ∧ requesting.bReq.toNat + requesting.ack.toNat ≤ requesting.aReq.toNat ∧
      ∃ t, Stretch requesting ⟨0, 0, 1, 0⟩ t ∧ t.reqLost = false := by
  refine ⟨witness_ArmedAndUnmaskedKeptByEveryStep.1, by decide +kernel,
    after .timerReqAssert { requesting with run := [] }, ?_, by decide +kernel⟩
  have h := (Stretch.here (s := requesting) (by decide +kernel)).next
    (t := after .timerReqAssert { requesting with run := [] }) (by rfl) (by decide +kernel)
  have e : takenOp requesting = some .timerReqAssert := by decide
  rw [e] at h
  exact h

/-- A handler's last step, and rest for ever after. -/
def returning (s : State) (i : Instr) : Schedule where
  state n := if n = 0 then s else after i s
  op n := if n = 0 then some i else none
theorem returning_fair {s : State} {i : Instr} (hi : i.wellFormed = true) (h : exec i s = .next (after i s))
    (rest : ∀ j ∈ fairOps, enabled j (after i s) = false) : (returning s i).Valid ∧ (returning s i).WeaklyFair := by
  refine ⟨fun n => ?_, fun j hj n hn => ?_⟩
  · by_cases hz : n = 0
    · subst hz; exact ⟨hi, h⟩
    · have e : Between (after i s) (after i s) := .inl rfl
      simpa [returning, hz] using e
  · have e := hn (n + 1) (by omega)
    simp [returning, rest j hj] at e
theorem witness_FairScheduleMakesProgress :
    (∃ r : Schedule, r.Valid ∧ r.WeaklyFair ∧ (r.state 0).dataPc ≠ .off) ∧
    (∃ r : Schedule, r.Valid ∧ r.WeaklyFair ∧ (r.state 0).schedPc ≠ .off ∧ ∀ m, (r.state m).dataFirst = false) := by
  have d := returning_fair (s := { ready with dataPc := .finish }) (i := .dataIrq) (by decide) (by rfl)
    (by decide +kernel)
  have e := returning_fair (s := { ready with schedPc := .extend }) (i := .schedIrq) (by decide) (by rfl)
    (by decide +kernel)
  refine ⟨⟨_, d.1, d.2, by decide⟩, _, e.1, e.2, by decide, fun m => ?_⟩
  by_cases hz : m = 0 <;> simp only [returning, hz] <;> decide +kernel

/-! Where rule R193's H2 does not hold as it is written (log entry 33): ACK held at a fresh start, and the extra cycle's
reset owed at a DMA_A_RESTART. A reset is taken, no request is lost, and no image is delivered. -/

theorem test_reset_before_copy_held_ack :
    let t := after .dmaBXfer (after .ackRelease { writing with ack := true })
    t.tcB = false ∧ t.bCnt = 3 ∧ t.aXfer = 0 ∧ t.aReq = false ∧ t.reqLost = false := by decide +kernel
theorem test_reset_before_copy_restart :
    let s := { writing with schedPc := .restart, bytesApp := 6, bCnt := 0, bReq := true, timPhase := .released }
    let t := after .dmaBXfer (after .schedIrq (after .schedIrq s))
    t.bCnt = 1 ∧ t.aXfer = 0 ∧ t.aReq = false ∧ t.reqLost = false := by decide +kernel

/-- The handler's entry after the first half-ring is delivered, with bytes still to translate. -/
theorem witness_DataHandlerStepsComposeToWhole :
    let s := { writing with htA := true, incompleteBuf := false, dmaIdx := 8, bytesApp := 12, bytesDma := 8,
                            scheduledDma := 12 }
    s.params.wf = true ∧ SessionInv s ∧ FillInv s ∧ s.engine = .writing ∧ s.dataEntryEnabled = true := by
  intro s
  refine ⟨writing_wf, ⟨by decide +kernel, by decide +kernel, fun _ => by decide +kernel, by decide +kernel,
    by decide +kernel, fun _ _ _ _ h => ?_⟩, ⟨fun _ _ _ => by decide +kernel, fun _ _ _ _ => by decide +kernel,
    fun _ _ h _ => absurd hostReady_writing.1 h⟩, by decide +kernel, by decide +kernel⟩
  have e : s.mainPc = .ready := hostReady_writing.3
  rw [e] at h; cases h

end Sys2Proof.Tests
end

section
/-! PROOFS. What REFILL leaves in the ring, slot by slot (rules R211, R214): each pass of the byte loop and the poison
guard write one slot that no earlier pass wrote. -/

namespace Sys2Proof.Safety

open Sys2Proof Sys2Proof.Machine

/-- Two cursors less than `n` apart lie in different slots. -/
theorem slots_distinct (start : Nat) {j k n : Nat} (hj : j < k) (hk : k < n) : (start + j) % n ≠ (start + k) % n := by
  intro h
  have hm : j ≡ k [MOD n] := Nat.ModEq.add_left_cancel' start h
  have := hm.eq_of_lt_of_lt (by omega) hk
  omega

variable {p : Params} {m : Memory} {src start k room : Nat} {old new : List Image}

/-- Where no byte is translated and no room is left, the ring is as it was. -/
theorem RingFilled.refl : RingFilled p m src start 0 0 old old where
  sameLength := rfl
  images := fun _ h => absurd h (Nat.not_lt_zero _)
  guard := fun h => absurd h (Nat.not_lt_zero _)
  others := fun _ _ _ => rfl

/-- One more byte's image in the next slot. -/
theorem RingFilled.translate_next (h : RingFilled p m src start k k old new) (hl : old.length = p.n) (hk : k < p.n) :
    RingFilled p m src start (k + 1) (k + 1) old
      (new.set ((start + k) % p.n) (p.translate (m.read (src + k)))) where
  sameLength := by rw [List.length_set, h.sameLength]
  images := by
    intro j hj
    have hs : (start + k) % p.n < new.length := by
      rw [h.sameLength, hl]; exact Nat.mod_lt _ (by omega)
    by_cases hjk : j = k
    · subst hjk; simp [hs]
    · have hlt : j < k := by omega
      have hne := slots_distinct start hlt hk
      simpa [List.getElem?_set_ne hne.symm] using h.images j hlt
  guard := fun hc => absurd hc (Nat.lt_irrefl _)
  others := by
    intro i hi _
    have hne : (start + k) % p.n ≠ i := hi k (Nat.lt_succ_self k)
    have hold := h.others i (fun j hj => hi j (by omega)) (fun hc => absurd hc (Nat.lt_irrefl _))
    simpa [List.getElem?_set_ne hne] using hold

/-- The poison image in the slot after the last byte's, where the bytes ran out (rule R214). -/
theorem RingFilled.poison_next (h : RingFilled p m src start k k old new) (hl : old.length = p.n) (hk : k < room)
    (hr : room ≤ p.n) : RingFilled p m src start k room old (new.set ((start + k) % p.n) p.poison) where
  sameLength := by rw [List.length_set, h.sameLength]
  images := by
    intro j hj
    have hne := slots_distinct start hj (Nat.lt_of_lt_of_le hk hr)
    simpa [List.getElem?_set_ne hne.symm] using h.images j hj
  guard := by
    intro _
    have hs : (start + k) % p.n < new.length := by
      rw [h.sameLength, hl]; exact Nat.mod_lt _ (by omega)
    simp [hs]
  others := by
    intro i hi hg
    have hold := h.others i hi (fun hc => absurd hc (Nat.lt_irrefl _))
    simpa [List.getElem?_set_ne (hg hk)] using hold

end Sys2Proof.Safety

namespace Sys2Proof.Machine

open Sys2Proof.Safety

/-- Flows in sequence associate. -/
theorem Flow.andThen_assoc (x : Flow) (f g : State → Flow) :
    (x.andThen f).andThen g = x.andThen fun s => (f s).andThen g := by
  cases x <;> rfl

/-- The byte loop's last pass, after the others. -/
theorem refillBytes_succ_last (k : Nat) (s : State) :
    refillBytes (k + 1) s = (refillBytes k s).andThen refillByte := by
  induction k generalizing s with
  | zero =>
    show (refillByte s).andThen Flow.go = refillByte s
    cases refillByte s <;> rfl
  | succ k ih =>
    calc refillBytes (k + 1 + 1) s
      _ = (refillByte s).andThen (refillBytes (k + 1)) := rfl
      _ = (refillByte s).andThen fun u => (refillBytes k u).andThen refillByte := by rw [funext ih]
      _ = (refillBytes (k + 1) s).andThen refillByte := by rw [refillBytes_succ, Flow.andThen_assoc]

/-- The slot of the cursor `k` after a given one. -/
theorem slot_add {s : State} (h : s.params.wf = true) (c : Word) (k : Nat) :
    s.slot (c + BitVec.ofNat 32 k) = (c.toNat + k) % s.params.n := by
  rw [slot_eq h, BitVec.toNat_add, BitVec.toNat_ofNat, Nat.add_mod_mod, Params.mod_n_of_mod h]

/-- A 32-bit counter after `k` counts, where it does not wrap. -/
theorem toNat_add_ofNat {c : Word} {k : Nat} (h : c.toNat + k < 2 ^ 32) :
    (c + BitVec.ofNat 32 k).toNat = c.toNat + k := by
  rw [BitVec.toNat_add, BitVec.toNat_ofNat, Nat.add_mod_mod, Nat.mod_eq_of_lt h]

/-- The pass of the byte loop after `k` passes. -/
theorem refillByte_filled {s : State} {k : Nat} {ring : List Image} (hp : s.params.wf = true)
    (hk : s.bytesDma.toNat + k < 2 ^ 32) (ha : s.appBuf.toNat + s.bytesDma.toNat + k < 2 ^ 32) :
    refillByte (s.filled k ring) = .go (s.filled (k + 1)
      (ring.set ((s.dmaIdx.toNat + k) % s.params.n)
        (s.params.translate (s.mem.read (s.appBuf.toNat + s.bytesDma.toNat + k))))) := by
  have haddr : (s.filled k ring).appBuf.toNat + (s.filled k ring).bytesDma.toNat =
      s.appBuf.toNat + s.bytesDma.toNat + k := by
    show s.appBuf.toNat + (s.bytesDma + BitVec.ofNat 32 k).toNat = _
    rw [toNat_add_ofNat hk, Nat.add_assoc]
  have hslot : (s.filled k ring).slot (s.filled k ring).dmaIdx = (s.dmaIdx.toNat + k) % s.params.n :=
    slot_add (s := s.filled k ring) hp s.dmaIdx k
  have hnext : ∀ w : Word, w + BitVec.ofNat 32 k + 1 = w + BitVec.ofNat 32 (k + 1) := by
    intro w; rw [BitVec.ofNat_add]; exact BitVec.add_assoc _ _ _
  rcases refillByte_cases (s.filled k ring) with ⟨-, he⟩ | ⟨hout, -⟩
  · rw [he, haddr, hslot]
    simp only [State.filled, hnext]
  · omega

/-- The byte loop, slot by slot (rules R211, R212). -/
theorem refillBytes_fills {s : State} (hp : s.params.wf = true) (hl : s.ring.length = s.params.n) {k : Nat}
    (hk : k ≤ s.params.n) (hb : s.bytesDma.toNat + k < 2 ^ 32)
    (ha : s.appBuf.toNat + s.bytesDma.toNat + k ≤ 2 ^ 32) :
    ∃ ring, RingFilled s.params s.mem (s.appBuf.toNat + s.bytesDma.toNat) s.dmaIdx.toNat k k s.ring ring ∧
      refillBytes k s = .go (s.filled k ring) := by
  induction k with
  | zero => exact ⟨s.ring, .refl, by simp [refillBytes, State.filled]⟩
  | succ k ih =>
    obtain ⟨ring, hring, hgo⟩ := ih (by omega) (by omega) (by omega)
    refine ⟨_, hring.translate_next hl hk, ?_⟩
    rw [refillBytes_succ_last, hgo, Flow.andThen_go]
    exact refillByte_filled hp (by omega) (by omega)

/-- The poison guard after a byte loop, slot by slot (rule R214). -/
theorem poisonGuard_fills {s : State} (hp : s.params.wf = true) (hl : s.ring.length = s.params.n)
    (hm : refillMisuse s = none) {src : Nat} {ring : List Image}
    (h : RingFilled s.params s.mem src s.dmaIdx.toNat (refillCount s) (refillCount s) s.ring ring) :
    ∃ ring', RingFilled s.params s.mem src s.dmaIdx.toNat (refillCount s) s.room s.ring ring' ∧
      poisonGuard (s.filled (refillCount s) ring) = s.filled (refillCount s) ring' := by
  have hroom : refillCount s ≤ s.room := Nat.min_le_right _ _
  have hleft := (refillCount_bounds hm).2
  by_cases he : s.dmaIdx + BitVec.ofNat 32 (refillCount s) = s.dmaFillto
  · have hfull : refillCount s = s.room := by
      rw [he] at hleft
      simp only [BitVec.sub_self, BitVec.toNat_zero] at hleft
      omega
    exact ⟨ring, hfull ▸ h, if_pos he⟩
  · have hpart : refillCount s < s.room := by
      refine Nat.lt_of_le_of_ne hroom fun hc => he ?_
      rw [hc, Nat.sub_self] at hleft
      rw [hc]
      bv_omega
    refine ⟨_, h.poison_next hl hpart ((refillMisuse_none_iff s).1 hm).2, ?_⟩
    rw [← slot_add hp]
    exact if_neg he

/-- REFILL where its checks pass and its buffer lies inside AM, slot by slot (rules R211, R214). -/
theorem refill_fills {s : State} (hp : s.params.wf = true) (hl : s.ring.length = s.params.n)
    (hm : refillMisuse s = none) (ha : s.appBuf.toNat + s.bytesApp.toNat ≤ 2 ^ 32) :
    ∃ ring, RingFilled s.params s.mem (s.appBuf.toNat + s.bytesDma.toNat) s.dmaIdx.toNat (refillCount s) s.room
        s.ring ring ∧
      refill s = .go (s.filled (refillCount s) ring) := by
  obtain ⟨htrans, hroom⟩ := (refillMisuse_none_iff s).1 hm
  have hcount : refillCount s ≤ s.bytesApp.toNat - s.bytesDma.toNat := Nat.min_le_left _ _
  have hcap : refillCount s ≤ s.room := Nat.min_le_right _ _
  have hlt := s.bytesApp.isLt
  obtain ⟨ring, hring, hgo⟩ := refillBytes_fills hp hl (k := refillCount s) (by omega) (by omega) (by omega)
  obtain ⟨ring', hring', hguard⟩ := poisonGuard_fills hp hl hm hring
  exact ⟨ring', hring', by rw [refill, hm]; simp only [hgo, Flow.andThen_go, hguard]⟩

end Sys2Proof.Machine
end

section
/-! PROOFS. The fresh start, whole (rule R144). -/

namespace Sys2Proof.Machine

open Sys2Proof.Safety

/-- The fresh start's REFILL has the whole ring as its room. -/
theorem freshHead_room {s : State} (ptr len : Word) (hp : s.params.wf = true) :
    (freshHead ptr len s).room = s.params.n := by
  simp [State.room, Params.nWord_toNat hp]

/-- The fresh start's REFILL translates the bytes the ring can hold. -/
theorem freshHead_refillCount {s : State} (ptr len : Word) (hp : s.params.wf = true) :
    refillCount (freshHead ptr len s) = min len.toNat s.params.n := by
  simp [refillCount, State.avail, freshHead_room ptr len hp]

/-- After `k` bytes the ring is filled to the end exactly where `k = N`. -/
theorem ofNat_bne_nWord {p : Params} (hp : p.wf = true) {k : Nat} (hk : k ≤ p.n) :
    (BitVec.ofNat 32 k != p.nWord) = decide (k ≠ p.n) := by
  have hn := Params.n_lt hp
  rw [Bool.eq_iff_iff, bne_iff_ne, decide_eq_true_eq, ne_eq, ← BitVec.toNat_inj, Params.nWord_toNat hp,
    BitVec.toNat_ofNat, Nat.mod_eq_of_lt (by omega)]

/-- The fresh start's last statements, after its REFILL has translated `k` bytes. -/
theorem freshTail_filled {s : State} (ptr len : Word) (hp : s.params.wf = true) {k : Nat} (hk : k ≤ s.params.n)
    (ring : List Image) :
    freshTail ((freshHead ptr len s).filled k ring) = freshSession s ptr len k ring := by
  simpa [freshTail, ctlStart, State.flagIncomplete, State.filled, freshHead, freshSession, Params.nWord]
    using ofNat_bne_nWord hp hk

/-- START_FRESH of a buffer inside AM (rules R144, R218). -/
theorem startFresh_fills {s : State} {ptr len : Word} (hp : s.params.wf = true) (hl : s.ring.length = s.params.n)
    (ha : ptr.toNat + len.toNat ≤ 2 ^ 32) :
    ∃ ring, RingFilled s.params s.mem ptr.toNat 0 (min len.toNat s.params.n) s.params.n s.ring ring ∧
      startFresh ptr len s = .go (freshSession s ptr len (min len.toNat s.params.n) ring) := by
  obtain ⟨ring, hring, hgo⟩ :=
    refill_fills (s := freshHead ptr len s) hp hl (freshHead_refillMisuse ptr len hp) ha
  rw [freshHead_refillCount ptr len hp] at hring hgo
  rw [freshHead_room ptr len hp] at hring
  refine ⟨ring, hring, ?_⟩
  rw [startFresh, hgo, Flow.andThen_go, freshTail_filled ptr len hp (Nat.min_le_right _ _)]

end Sys2Proof.Machine
end

section
/-! PROOFS. The command port where it is open (rule R140), and each host command's course behind it. -/

namespace Sys2Proof.Machine

open Sys2Proof.Safety

/-- A refusal, as the statements write it (rules R67, R274). -/
theorem refuse_eq_refusedWith (s : State) (reason : RefuseReason) : s.refuse reason = refusedWith s reason := rfl

/-- The masked stop, as the statements write it (rules R147, R219). -/
theorem maskedStop_eq_stopped (s : State) : maskedStop s = { stopped s with irqMask := false } := rfl

/-- The record and the error of a stall, as the statements write them (rules R66, R273). -/
theorem stall_recorded (s : State) : (s.logRecord .stall).raise .stallTimeout = recorded s .stall .stallTimeout := by
  simp [State.logRecord, State.raise, State.emit, recorded]

/-- The port is open exactly where a HOST command is enabled (rule R140). -/
theorem hostReady_iff (s : State) : HostReady s ↔ s.hostEnabled = true := by
  rw [hostEnabled_iff]
  exact ⟨fun h => ⟨h.dataOff, h.schedOff, h.running, h.mainReady⟩, fun ⟨hd, hs, hr, hm⟩ => ⟨hd, hs, hm, hr⟩⟩

/-- An open port runs the command's body. -/
theorem hostCommand_of_ready {s : State} (h : HostReady s) (body : Host.Outcome State Fault Refusal) :
    hostCommand s body = body := if_pos ((hostReady_iff s).1 h)

/-- Behind an open port, after INIT, a command runs its body. -/
theorem configuredCommand_of_ready {s : State} (h : CommandReady s) (body : Host.Outcome State Fault Refusal) :
    configuredCommand s body = body := by
  rw [configuredCommand, hostCommand_of_ready h.toHostReady, if_pos h.configured]

/-- Before INIT it is refused (rule R281). -/
theorem configuredCommand_of_unconfigured {s : State} (h : HostReady s) (hc : s.configured = false)
    (body : Host.Outcome State Fault Refusal) : configuredCommand s body = .next (refusedWith s .notConfigured) := by
  rw [configuredCommand, hostCommand_of_ready h, hc]
  rfl

/-- A WRITING engine is not IDLE: the tests of the model ask for IDLE. -/
theorem engine_ne_idle {s : State} (h : s.engine = .writing) : s.engine ≠ .idle := by
  rw [h]; exact EngineState.noConfusion

/-! ### START_WRITE -/

/-- START_WRITE of a buffer that wraps AM (rule R145). -/
theorem startWrite_wraps {s : State} {ptr len : Word} (h : CommandReady s) (hz : len ≠ 0)
    (hw : 2 ^ 32 < ptr.toNat + len.toNat) (cref : Word) :
    exec (.startWrite ptr len cref) s = .next (refusedWith s .bufferWraps) := by
  show execStartWrite ptr len cref s = _
  rw [execStartWrite, configuredCommand_of_ready h, if_neg hz, if_pos ((bufferWraps_iff _ _).2 hw)]
  rfl

/-- START_WRITE of a buffer inside AM on an IDLE engine is the fresh start (rule R144). -/
theorem startWrite_idle {s : State} {ptr len : Word} (h : CommandReady s) (hz : len ≠ 0)
    (hw : ptr.toNat + len.toNat ≤ 2 ^ 32) (he : s.engine = .idle) (cref : Word) :
    exec (.startWrite ptr len cref) s = (startFresh ptr len s).outcome := by
  show execStartWrite ptr len cref s = _
  rw [execStartWrite, configuredCommand_of_ready h, if_neg hz,
    if_neg (fun hc => absurd ((bufferWraps_iff _ _).1 hc) (by omega)), if_pos he]

/-- START_WRITE of a buffer inside AM while WRITING (rule R146). -/
theorem startWrite_writing {s : State} {ptr len : Word} (h : CommandReady s) (hz : len ≠ 0)
    (hw : ptr.toNat + len.toNat ≤ 2 ^ 32) (he : s.engine = .writing) (cref : Word) :
    exec (.startWrite ptr len cref) s = .next (startWriting ptr len cref s) := by
  show execStartWrite ptr len cref s = _
  rw [execStartWrite, configuredCommand_of_ready h, if_neg hz,
    if_neg (fun hc => absurd ((bufferWraps_iff _ _).1 hc) (by omega)), if_neg (engine_ne_idle he)]

/-- With a buffer queued, its three ways in exact integers (rules R145, R146). -/
theorem startWriting_queued {s : State} (ptr len cref : Word) (hv : s.nextValid = true) :
    startWriting ptr len cref s =
      if ptr.toNat = s.nextAppBuf.toNat + s.nextAppBytes.toNat then
        if 2 ^ 32 ≤ s.nextAppBytes.toNat + len.toNat then refusedWith { s with irqMask := false } .lengthOverflow
        else { s with irqMask := false, nextAppBytes := s.nextAppBytes + len }
      else { s with irqMask := false, mainPc := .waitStart ptr len cref s.nowMs } := by
  rw [startWriting, if_pos hv]
  simp only [startQueued, continues_iff, lengthOverflows_iff]
  rfl

/-- With nothing queued, its three ways in exact integers (rules R145, R146). -/
theorem startWriting_active {s : State} (ptr len cref : Word) (hv : s.nextValid = false) :
    startWriting ptr len cref s =
      if ptr.toNat = s.appBuf.toNat + s.bytesApp.toNat then
        if 2 ^ 32 ≤ s.bytesApp.toNat + len.toNat then refusedWith { s with irqMask := false } .lengthOverflow
        else { s with irqMask := false, bytesApp := s.bytesApp + len }
      else { s with irqMask := false, nextAppBuf := ptr, nextAppBytes := len, nextValid := true } := by
  rw [startWriting, if_neg (by rw [hv]; decide)]
  simp only [startActive, continues_iff, lengthOverflows_iff]
  rfl

/-! ### WAIT_POLL -/

/-- Where the poll is not enabled there is no step (rules R25, R149). -/
theorem waitPoll_notEnabled {s : State} (h : s.waitPollEnabled = false) :
    exec .waitPoll s = .fault (.notEnabled .main) := by
  show execWaitPoll s = _
  rw [execWaitPoll, h]
  rfl

/-- The poll of a wait is enabled where the main line may step (rule R149). -/
theorem waitPollEnabled_of_pollReady {s : State} {pc : MainPc} (h : PollReady s pc) (hpc : pc ≠ .ready) :
    s.waitPollEnabled = true :=
  (waitPollEnabled_iff s).2 ⟨h.dataOff, h.schedOff, h.running, h.waiting ▸ hpc⟩

/-- A poll of FINISH_WRITE's wait completes with the state as it is. -/
theorem exec_waitPoll_finish {s : State} {cref t0 : Word} (h : PollReady s (.waitFinish cref t0)) :
    exec .waitPoll s = (waitPoll cref t0 (.go s) s).outcome := by
  show execWaitPoll s = _
  rw [execWaitPoll, if_pos (waitPollEnabled_of_pollReady h MainPc.noConfusion), h.waiting]

/-- A poll of START_WRITE's wait completes with the fresh start of its buffer. -/
theorem exec_waitPoll_start {s : State} {ptr len cref t0 : Word} (h : PollReady s (.waitStart ptr len cref t0)) :
    exec .waitPoll s = (waitPoll cref t0 (startFresh ptr len s) s).outcome := by
  show execWaitPoll s = _
  rw [execWaitPoll, if_pos (waitPollEnabled_of_pollReady h MainPc.noConfusion), h.waiting]

/-- A poll of either wait, whatever its completion is. -/
theorem exec_waitPoll_of_waiting {s : State} {pc : MainPc} {cref t0 : Word} (h : PollReady s pc)
    (hpc : pc = .waitFinish cref t0 ∨ ∃ ptr len, pc = .waitStart ptr len cref t0) :
    ∃ done, exec .waitPoll s = (waitPoll cref t0 done s).outcome := by
  obtain rfl | ⟨ptr, len, rfl⟩ := hpc
  · exact ⟨_, exec_waitPoll_finish h⟩
  · exact ⟨_, exec_waitPoll_start h⟩

section
variable {s : State} {cref : Word}

/-- A poll whose cell is set (rule R149). -/
theorem waitPoll_of_cell (h : cref.toNat ∈ s.cells) (t0 : Word) (done : Flow) :
    waitPoll cref t0 done s = .go { stopped s with irqMask := false, mainPc := .ready } := by
  rw [waitPoll, if_pos ((cell_iff s cref).2 h), maskedStop_eq_stopped]

/-- A poll on an IDLE engine (rule R149). -/
theorem waitPoll_of_idle (hc : cref.toNat ∉ s.cells) (he : s.engine = .idle) (t0 : Word) (done : Flow) :
    waitPoll cref t0 done s = done.andThen fun s => .go { s with mainPc := .ready } := by
  rw [waitPoll, if_neg (mt (cell_iff s cref).1 hc), if_pos he]

/-- A poll of a wait that has lasted the timeout (rules R149, R273). -/
theorem waitPoll_of_stalled (hc : cref.toNat ∉ s.cells) (he : s.engine = .writing) {t0 : Word}
    (ht : s.params.stallTimeoutMs ≤ (s.nowMs - t0).toNat) (done : Flow) :
    waitPoll cref t0 done s = .go { stopped (recorded (s.setCell cref) .stall .stallTimeout) with
      irqMask := false, mainPc := .ready } := by
  rw [waitPoll, if_neg (mt (cell_iff s cref).1 hc), if_neg (engine_ne_idle he), if_pos ((stalled_iff s t0).2 ht),
    waitStall, stall_recorded, maskedStop_eq_stopped]

/-- A poll of a wait that goes on (rule R149). -/
theorem waitPoll_of_spinning (hc : cref.toNat ∉ s.cells) (he : s.engine = .writing) {t0 : Word}
    (ht : (s.nowMs - t0).toNat < s.params.stallTimeoutMs) (done : Flow) : waitPoll cref t0 done s = .go s := by
  rw [waitPoll, if_neg (mt (cell_iff s cref).1 hc), if_neg (engine_ne_idle he),
    if_neg (fun h => absurd ((stalled_iff s t0).1 h) (by omega))]

end

/-! ### IS_WRITE_FINISHED -/

/-- The answer of IS_WRITE_FINISHED in exact integers (rule R150). -/
theorem writeFinished_eq (s : State) (ptr : Word) : s.writeFinished ptr = decide (s.engine = .idle ∨
    (¬ (s.appBuf.toNat ≤ ptr.toNat ∧ ptr.toNat < s.appBuf.toNat + s.bytesApp.toNat) ∧
      ¬ (s.nextValid = true ∧ s.nextAppBuf.toNat ≤ ptr.toNat ∧
        ptr.toNat < s.nextAppBuf.toNat + s.nextAppBytes.toNat))) := by
  simp only [Bool.decide_or, Bool.decide_and, decide_not, Bool.decide_eq_true]
  rfl

end Sys2Proof.Machine
end

section
/-! PROOFS. The host commands' statements settled (40_host_commands.md). -/

namespace Sys2Proof

open Sys2Proof.Machine Sys2Proof.Safety

/-- Settles O15: the fresh start's REFILL, slot by slot, then its last statements. -/
theorem freshStartPrimesAndArms : Obligations.FreshStartPrimesAndArms := by
  intro s ptr len cref hp hl ha
  obtain ⟨ring, hring, hgo⟩ := startFresh_fills hp hl ha
  refine ⟨ring, hring, hgo, fun h he hz => ?_⟩
  rw [startWrite_idle h hz ha he, hgo, Flow.outcome_go]

/-- Settles O20: the poll's tests in their order; the completion of a blocked START_WRITE is the fresh start. -/
theorem waitPollExits : Obligations.WaitPollExits := by
  refine ⟨rfl, fun s hs => waitPoll_notEnabled ?_, fun s pc cref t0 h hpc => ?_⟩
  · rw [Bool.eq_false_iff, ne_eq, waitPollEnabled_iff]
    rintro ⟨hd, hsch, hr, hm⟩
    rcases hs with hs | hs | hs | hs
    · exact hm hs
    · exact hs hd
    · exact hs hsch
    · exact absurd (hr.symm.trans hs) Bool.false_ne_true
  obtain ⟨done, hpoll⟩ := exec_waitPoll_of_waiting h hpc
  refine ⟨fun hc => ?_, fun hc he hf => ?_, fun ptr len hc he hst hp hl ha => ?_, fun hc he ht => ?_,
    fun hc he ht => ?_⟩
  · rw [hpoll, waitPoll_of_cell hc, Flow.outcome_go]
  · rw [exec_waitPoll_finish (hf ▸ h), waitPoll_of_idle hc he, Flow.andThen_go, Flow.outcome_go]
  · obtain ⟨ring, hring, hgo⟩ := startFresh_fills hp hl ha
    refine ⟨ring, hring, ?_⟩
    rw [exec_waitPoll_start (hst ▸ h), waitPoll_of_idle hc he, hgo, Flow.andThen_go, Flow.outcome_go]
  · refine ⟨s.cells.set cref.toNat, fun n => Cells.mem_set _ _ _, ?_⟩
    rw [hpoll, waitPoll_of_stalled hc he ht, Flow.outcome_go]
    rfl
  · rw [hpoll, waitPoll_of_spinning hc he ht, Flow.outcome_go]

/-- INIT behind an open port (rule R141). -/
theorem init_of_ready {s : State} (h : HostReady s) : exec .init s =
    if s.configured then .next (refusedWith s .initTwice) else .next { ctlInit s with configured := true } := by
  show execInit s = _
  rw [execInit, hostCommand_of_ready h]
  rfl

/-- The command port is open after power-on reset (rule R311). -/
theorem reset_hostReady : HostReady State.reset := ⟨rfl, rfl, rfl, rfl⟩

/-- Settles O12: INIT behind an open port, and then on the reset state, whose lines, channels and timer it leaves as
they are. -/
theorem initConfiguresOnce : Obligations.InitConfiguresOnce := by
  have hreset : exec .init State.reset = .next { State.reset with
      configured := true, aHtie := true, aTcie := true, bTcie := true, dataEn := true, schedEn := true } := by
    rw [init_of_ready reset_hostReady]
    rfl
  refine ⟨rfl, fun s h => ⟨fun hc => ?_, fun hc => ?_⟩, hreset, fun t ht => ?_⟩
  · rw [init_of_ready h, hc]
    rfl
  · rw [init_of_ready h, if_pos hc]
  · rw [hreset, Host.Outcome.next.injEq] at ht
    subst ht
    exact ⟨rfl, rfl, rfl, rfl⟩

/-- Settles O14: the length is tested before the pointer, the cell and the engine state are looked at. -/
theorem startWriteZeroLength : Obligations.StartWriteZeroLength := by
  intro s ptr cref h
  show execStartWrite ptr 0 cref s = _
  rw [execStartWrite, configuredCommand_of_ready h, if_pos rfl]

/-- Settles O16: the two forms of a START_WRITE while WRITING, each with its pointer's test. -/
theorem startWriteMergesQueuesOrBlocks : Obligations.StartWriteMergesQueuesOrBlocks := by
  intro s ptr len cref h he hz ha
  rw [startWrite_writing h hz ha he]
  refine ⟨fun hv hp ho => ?_, fun hv hp => ?_, fun hv hp ho => ?_, fun hv hp => ?_⟩
  · rw [startWriting_queued _ _ _ hv, if_pos hp, if_neg (by omega)]
  · rw [startWriting_queued _ _ _ hv, if_neg hp]
  · rw [startWriting_active _ _ _ hv, if_pos hp, if_neg (by omega)]
  · rw [startWriting_active _ _ _ hv, if_neg hp]

/-- Settles O17: the wrap is refused before the engine state is looked at, an overflowing merge inside the masked
section. -/
theorem startWriteRefusals : Obligations.StartWriteRefusals := by
  intro s ptr len cref h hz
  refine ⟨fun hw => startWrite_wraps h hz hw cref, fun ha he hv hp ho => ?_, fun ha he hv hp ho => ?_⟩
  · rw [startWrite_writing h hz ha he, startWriting_queued _ _ _ hv, if_pos hp, if_pos ho]
  · rw [startWrite_writing h hz ha he, startWriting_active _ _ _ hv, if_pos hp, if_pos ho]

/-- Settles O18: the masked stop is CTL_STOP's state with the mask clear. -/
theorem stopWriteStops : Obligations.StopWriteStops := by
  refine ⟨rfl, fun s h => ⟨fun hc => configuredCommand_of_unconfigured h hc _, fun hc => ?_⟩⟩
  show execStopWrite s = _
  rw [execStopWrite, configuredCommand_of_ready ⟨h, hc⟩, maskedStop_eq_stopped]

/-- Settles O19: the engine state alone decides, the cell is not read. -/
theorem finishWriteWaits : Obligations.FinishWriteWaits := by
  intro s cref
  refine ⟨rfl, fun h hc => configuredCommand_of_unconfigured h hc _, fun h he => ?_, fun h he => ?_⟩
  · show execFinishWrite cref s = _
    rw [execFinishWrite, configuredCommand_of_ready h, if_pos he]
  · show execFinishWrite cref s = _
    rw [execFinishWrite, configuredCommand_of_ready h, if_neg (engine_ne_idle he)]

/-- Settles O21: the answer is taken in a masked section, whose mask it does not read. -/
theorem isWriteFinishedAnswers : Obligations.IsWriteFinishedAnswers := by
  intro s ptr
  refine ⟨rfl, fun h hc => configuredCommand_of_unconfigured h hc _, fun h => ?_⟩
  show execIsWriteFinished ptr s = _
  rw [execIsWriteFinished, configuredCommand_of_ready h]
  dsimp only
  rw [writeFinished_eq]
  rfl

/-- Settles O22: a cell's insertion adds its number and no other, and the clock is a 32-bit word. -/
theorem hostEnvironmentSteps : Obligations.HostEnvironmentSteps := by
  refine ⟨fun s cref => ⟨rfl, s.cells.set cref.toNat, rfl, Cells.mem_set _ _⟩,
    fun s ms => ⟨rfl, _, rfl, rfl, BitVec.toNat_add _ _⟩, fun s => ?_⟩
  show Host.Outcome.next { s with nowMs := s.nowMs + 0#32 } = _
  rw [BitVec.add_zero]

end Sys2Proof
end

section
/-! PROOFS. The hardware agents' steps where they are enabled and where they are not (rule R25), and the two responses
of the timer to the PEER's edges, written out (41_handshake.md). -/

namespace Sys2Proof.Machine

/-- A body behind an enabling condition that holds. -/
theorem guarded_of_enabled {c : Bool} {P : Prop} (hc : c = true ↔ P) (h : P) (who : Agent)
    (body : Host.Outcome State Fault Refusal) : (if c then body else notEnabled who) = body :=
  if_pos (hc.2 h)

/-- A body behind an enabling condition that fails: there is no step (rule R25). -/
theorem guarded_of_disabled {c : Bool} {P : Prop} (hc : c = true ↔ P) (h : ¬ P) (who : Agent)
    (body : Host.Outcome State Fault Refusal) : (if c then body else notEnabled who) = .fault (.notEnabled who) :=
  if_neg (mt hc.1 h)

/-! ### The PEER's edges -/

/-- An edge that the timer does not hear: the block is halted or the timer is disabled (rules R180, R184). -/
theorem edge_unheard {halted timEn : Bool} (h : halted = true ∨ timEn = false)
    (heard unheard : Host.Outcome State Fault Refusal) :
    (if halted then unheard else if timEn then heard else unheard) = unheard := by
  rcases h with rfl | rfl
  · rfl
  · exact ite_self _

/-- An edge that the timer hears. -/
theorem edge_heard {halted timEn : Bool} (hr : halted = false) (ht : timEn = true)
    (heard unheard : Host.Outcome State Fault Refusal) :
    (if halted then unheard else if timEn then heard else unheard) = heard := by
  rw [hr, ht]; rfl

/-- ACK asserting on a line that is low (rules R181, R183). -/
theorem ackAssert_of_low {s : State} (h : s.ack = false) : exec .ackAssert s =
    if s.halted then .next { s with ack := true }
    else if s.timEn then .next (ackAsserted { s with ack := true }) else .next { s with ack := true } :=
  if_neg (ne_true_of_eq_false h)

/-- ACK releasing on a line that is high (rules R181, R187). -/
theorem ackRelease_of_high {s : State} (h : s.ack = true) : exec .ackRelease s =
    if s.halted then .next { s with ack := false }
    else if s.timEn then .next (ackReleased { s with ack := false }) else .next { s with ack := false } :=
  if_pos h

/-- The timer's response to ACK asserting, written out (rules R183, R186). -/
theorem ackAsserted_eq (s : State) : ackAsserted s = { s with
    req := false
    aReq := true
    timPhase := .acked
    reqLost := s.reqLost || s.aReq
    trace := s.trace ++ (if s.req then [.req false] else []) ++ if s.aReq then [.err (.reqLost .a)] else [] } := by
  rw [ackAsserted, requestA_eq, releaseReq_eq]

/-- The timer's response to ACK releasing, written out (rules R187, R188). -/
theorem ackReleased_eq (s : State) : ackReleased s = { s with
    bReq := true
    timPhase := .released
    reqLost := s.reqLost || s.bReq
    trace := s.trace ++ if s.bReq then [.err (.reqLost .b)] else [] } := by
  rw [ackReleased, requestB_eq]

/-! ### DMA-A -/

section
variable {s : State} {img : Image} {queue : List Image}

/-- A queued image is delivered, and the fetch cursor stays (rule R190). -/
theorem deliver_queued (h : s.pfq = img :: queue) :
    s.nextImage = img ∧ takeImage s = { s with pfq := queue } := by
  refine ⟨by rw [State.nextImage, h], ?_⟩
  rw [takeImage_eq, h, if_neg (List.cons_ne_nil _ _), List.tail_cons]

/-- With an empty queue the ring's image at the fetch cursor is delivered, and the cursor advances (rule R190). -/
theorem deliver_from_ring (hp : s.params.wf = true) (h : s.pfq = []) :
    s.nextImage = s.ring.getD (s.aFetch.toNat % s.params.n) 0 ∧
      takeImage s = { s with pfq := [], aFetch := s.aFetch + 1 } := by
  refine ⟨by rw [State.nextImage, h, State.ringRead, slot_eq hp], ?_⟩
  rw [takeImage_eq, if_pos h, h, List.tail_nil]

end

/-- The count of DMA_A_XFER with its events in exact integers (rules R46, R190). -/
theorem countXfer_eq {s : State} (hp : s.params.wf = true) : countXfer s = { s with
    aReq := false
    aXfer := s.aXfer + 1
    htA := s.htA || decide ((s.aXfer + 1).toNat % s.params.n = s.params.half)
    tcA := s.tcA || decide ((s.aXfer + 1).toNat % s.params.n = 0) } := by
  rw [countXfer, halfEvent_iff hp, fullEvent_iff hp]

/-! ### DMA-B -/

/-- A count becomes 0 exactly where it was 1. -/
theorem count_exhausted_iff (c : Word) : (c - 1 == 0) = decide (c.toNat = 1) := by
  rw [Bool.eq_iff_iff, beq_iff_eq, decide_eq_true_iff]
  bv_omega

/-- The effect of DMA_B_XFER: TIMER_UPDATE, then the count (rules R191, R192). -/
theorem countReset_egrWrite_eq (s : State) : countReset (s.egrWrite s.params.timerEgrUpdate) = { s with
    timPhase := if s.timEn then .primed else s.timPhase
    bReq := false
    bCnt := s.bCnt - 1
    tcB := s.tcB || decide (s.bCnt.toNat = 1) } := by
  rw [egrWrite_update, timerUpdate_eq, countReset, count_exhausted_iff]

end Sys2Proof.Machine
end

section
/-! PROOFS. The handshake's statements settled (41_handshake.md). -/

namespace Sys2Proof

open Sys2Proof.Machine

/-- Settles O23: the enabling condition alone decides. -/
theorem timerAssertsRequest : Obligations.TimerAssertsRequest :=
  ⟨rfl, fun s => ⟨fun he hp hr => guarded_of_enabled (timerReqEnabled_iff s) ⟨he, hp, hr⟩ _ _,
    fun h => guarded_of_disabled (timerReqEnabled_iff s) h _ _⟩⟩

/-- Settles O24: an edge on a high line, an unheard edge, and a heard one with DMA-A's request free or latched. -/
theorem ackAssertLatchesRequestA : Obligations.AckAssertLatchesRequestA := by
  refine ⟨rfl, fun s => ⟨fun h => if_pos h, fun h hu => ?_, fun h hr ht ha => ?_, fun h hr ht ha => ?_⟩⟩
  · rw [ackAssert_of_low h, edge_unheard hu]
  · rw [ackAssert_of_low h, edge_heard hr ht, ackAsserted_eq]
    simp [ha]
  · rw [ackAssert_of_low h, edge_heard hr ht, ackAsserted_eq]
    simp [ha]

/-- Settles O25: an edge on a low line, an unheard edge, and a heard one with DMA-B's request free or latched. -/
theorem ackReleaseLatchesRequestB : Obligations.AckReleaseLatchesRequestB := by
  refine ⟨rfl, fun s => ⟨fun h => if_neg (ne_true_of_eq_false h), fun h hu => ?_, fun h hr ht hb => ?_,
    fun h hr ht hb => ?_⟩⟩
  · rw [ackRelease_of_high h, edge_unheard hu]
  · rw [ackRelease_of_high h, edge_heard hr ht, ackReleased_eq]
    simp [hb]
  · rw [ackRelease_of_high h, edge_heard hr ht, ackReleased_eq]
    simp [hb]

/-- Settles O26: the slot of the fetch cursor is the cursor modulo `N`. -/
theorem dmaAFetchPrefetches : Obligations.DmaAFetchPrefetches := by
  refine ⟨rfl, fun s hp => ⟨fun he hq hr => ?_, fun h => guarded_of_disabled (fetchEnabled_iff s) h _ _⟩⟩
  show execDmaAFetch s = _
  rw [execDmaAFetch, guarded_of_enabled (fetchEnabled_iff s) ⟨he, hq, hr⟩, State.ringRead, slot_eq hp]

/-- Settles O27: the image comes from the queue or from the ring; its delivery and its count are the same. -/
theorem dmaAXferDelivers : Obligations.DmaAXferDelivers := by
  refine ⟨rfl, fun s img queue fetched hp ha he hr hsrc => ?_,
    fun s h => guarded_of_disabled (aXferEnabled_iff s) h _ _⟩
  have delivered : s.nextImage = img ∧ takeImage s = { s with pfq := queue, aFetch := fetched } := by
    rcases hsrc with ⟨hq, rfl⟩ | ⟨hq, rfl, rfl, rfl⟩
    · exact deliver_queued hq
    · exact deliver_from_ring hp hq
  obtain ⟨himg, htake⟩ := delivered
  show execDmaAXfer s = _
  rw [execDmaAXfer, guarded_of_enabled (aXferEnabled_iff s) ⟨ha, he, hr⟩, himg, htake]
  exact congrArg Host.Outcome.next (countXfer_eq hp)

/-- Settles O28: the force-update word resets the timer inside the step, and the last count raises the event. -/
theorem dmaBXferResetsTimer : Obligations.DmaBXferResetsTimer := by
  refine ⟨rfl, fun s => ⟨fun hb he hc ha hr => ?_, fun h => guarded_of_disabled (bXferEnabled_iff s) h _ _⟩⟩
  show execDmaBXfer s = _
  rw [execDmaBXfer, guarded_of_enabled (bXferEnabled_iff s) ⟨hb, he, hc, ha, hr⟩, countReset_egrWrite_eq]

/-- Settles O44: each is its procedure, whole; only TIMER_UPDATE tests anything. -/
theorem masksAndTimerUpdate : Obligations.MasksAndTimerUpdate :=
  ⟨rfl, rfl, rfl, fun s => ⟨rfl, rfl, congrArg Host.Outcome.next (timerUpdate_eq s)⟩⟩

end Sys2Proof
end

section
/-! PROOFS. The checks of REFILL, the splice test with the splice's REFILL, a stop at rest and CTL_EXTEND, in the form
the statements write (42_refill_control.md). -/

namespace Sys2Proof.Machine

open Sys2Proof.Safety

/-- `raise Misuse(site)`, as the statements write it (rule R272). -/
theorem raise_misuse_eq_haltedAt (s : State) (site : MisuseSite) : s.raise (.misuse site) = haltedAt s site := rfl

/-! ### REFILL and the splice -/

/-- The first accounting check fails (rule R213). -/
theorem refillMisuse_avail {s : State} (h : s.bytesApp.toNat < s.bytesDma.toNat) :
    refillMisuse s = some .refillAvail := if_pos h

/-- The first accounting check passes and the second fails (rule R213). -/
theorem refillMisuse_room {s : State} (ha : s.bytesDma.toNat ≤ s.bytesApp.toNat) (hr : s.params.n < s.room) :
    refillMisuse s = some .refillRoom := by
  rw [refillMisuse, if_neg (Nat.not_lt.2 ha), if_pos hr]

/-- REFILL, by itself, where an accounting check fails: the block halts with nothing written. -/
theorem exec_refill_misuse {s : State} {site : MisuseSite} (h : refillMisuse s = some site) :
    exec .refill s = .next (haltedAt s site) := by
  show (refill s).outcome = _
  rw [refill_misuse h, misuse, Flow.outcome_stop, raise_misuse_eq_haltedAt]

/-- Nothing to splice: bytes left to translate, nothing queued, or translated bytes not yet scheduled (rules R215,
R216). -/
theorem spliceVerdict_stay {s : State}
    (h : s.bytesDma ≠ s.bytesApp ∨ s.nextValid = false ∨ s.scheduledDma.toNat < s.bytesDma.toNat) :
    spliceVerdict s = .stay := by
  rw [spliceVerdict]
  rcases h with hb | hv | hlt
  · exact if_neg fun hc => hb hc.1
  · exact if_neg fun hc => absurd (hv.symm.trans hc.2) Bool.false_ne_true
  · have hne : s.scheduledDma ≠ s.bytesDma := fun heq => absurd hlt (by rw [heq]; exact Nat.lt_irrefl _)
    rw [if_neg (Nat.lt_asymm hlt), if_neg hne, ite_self]

/-- A count that is ahead of the translated bytes is a Misuse (rule R216). -/
theorem spliceVerdict_misuse {s : State} (hb : s.bytesDma = s.bytesApp) (hv : s.nextValid = true)
    (hlt : s.bytesDma.toNat < s.scheduledDma.toNat) : spliceVerdict s = .misuse := by
  rw [spliceVerdict, if_pos ⟨hb, hv⟩, if_pos hlt]

/-- The splice where every translated byte is scheduled (rule R216). -/
theorem spliceVerdict_swap {s : State} (hb : s.bytesDma = s.bytesApp) (hv : s.nextValid = true)
    (heq : s.scheduledDma = s.bytesDma) : spliceVerdict s = .swap := by
  rw [spliceVerdict, if_pos ⟨hb, hv⟩, if_neg (by rw [heq]; exact Nat.lt_irrefl _), if_pos heq]

/-- The REFILL of a splice starts at the queued buffer's first byte, with the room of the ring as it stands
(rule R215). -/
theorem refill_splice_fills {s : State} (hp : s.params.wf = true) (hl : s.ring.length = s.params.n)
    (hr : s.room ≤ s.params.n) (ha : s.nextAppBuf.toNat + s.nextAppBytes.toNat ≤ 2 ^ 32) :
    ∃ ring, RingFilled s.params s.mem s.nextAppBuf.toNat s.dmaIdx.toNat (min s.nextAppBytes.toNat s.room) s.room
        s.ring ring ∧
      refill (splice s) = .go ((splice s).filled (min s.nextAppBytes.toNat s.room) ring) := by
  have hchecks : refillMisuse (splice s) = none := (refillMisuse_none_iff _).2 ⟨Nat.zero_le _, hr⟩
  exact refill_fills (s := splice s) hp hl hchecks ha

/-- What that REFILL leaves of the spliced state: its count starts at 0, the ring's cursor goes on (rule R215). -/
theorem splice_filled (s : State) (k : Nat) (ring : List Image) : (splice s).filled k ring = { splice s with
    ring := ring
    dmaIdx := s.dmaIdx + BitVec.ofNat 32 k
    bytesDma := BitVec.ofNat 32 k } := by
  have hcount : (0 : Word) + BitVec.ofNat 32 k = BitVec.ofNat 32 k := BitVec.zero_add _
  rw [State.filled, splice_bytesDma, splice_dmaIdx, hcount]

/-! ### The controller -/

/-- CTL_STOP, as the statements write it (rule R219). -/
theorem ctlStop_eq_stopped (s : State) : ctlStop s = stopped s := rfl

/-- No line and no mode changes at rest (rule R220). -/
theorem releaseEvents_of_idleRest {s : State} (h : IdleRest s) : releaseEvents s = [] := by
  obtain ⟨hmode, hreq, -⟩ := h.lines
  simp [releaseEvents, hmode, hreq]

/-- At rest every field has the value that CTL_STOP gives it (rule R220). -/
theorem stopped_of_idleRest {s : State} (he : s.engine = .idle) (h : IdleRest s) : stopped s = s := by
  have hquiet := releaseEvents_of_idleRest h
  obtain ⟨timer, channelA, positionA, channelB, lines, queue, filled, -⟩ := h
  rw [stopped, hquiet, List.append_nil]
  cases s
  simp_all only

/-- CTL_EXTEND of an exhausted count (rule R221). -/
theorem ctlExtend_exhausted {s : State} (h : s.bCnt = 0) (k : Word) :
    ctlExtend k s = .go { s with bCnt := k, tcB := false, bEn := true } := if_pos h

/-- CTL_EXTEND of a count that still runs halts the block (rule R221). -/
theorem ctlExtend_busy {s : State} (h : s.bCnt ≠ 0) (k : Word) : ctlExtend k s = .stop (haltedAt s .extendBusy) :=
  if_neg h

end Sys2Proof.Machine
end

section
/-! PROOFS. The statements of the procedures settled (42_refill_control.md). -/

namespace Sys2Proof

open Sys2Proof.Machine Sys2Proof.Safety

/-- Settles O38: each check by itself, and behind both the ring's slots as REFILL leaves them. -/
theorem refillTranslatesAndGuards : Obligations.RefillTranslatesAndGuards := by
  refine ⟨rfl, fun s => ⟨fun ha => exec_refill_misuse (refillMisuse_avail ha),
    fun ha hr => exec_refill_misuse (refillMisuse_room ha hr)⟩, ?_⟩
  intro s hp hl ha hr hbuf
  obtain ⟨ring, hring, hgo⟩ := refill_fills hp hl ((refillMisuse_none_iff s).2 ⟨ha, hr⟩) hbuf
  refine ⟨ring, hring, ?_⟩
  show (refill s).outcome = _
  rw [hgo, Flow.outcome_go]
  rfl

/-- Settles O39: the splice test's three answers, and the REFILL of the queued buffer that has become the active one. -/
theorem checkNextBufferSplices : Obligations.CheckNextBufferSplices := by
  refine ⟨rfl, fun s => ⟨fun hb hv hlt => ?_, fun h => ?_, fun hb hv heq hp hl hr ha => ?_⟩⟩
  · show (checkNextBuffer s).outcome = _
    rw [checkNextBuffer, spliceVerdict_misuse hb hv hlt]
    rfl
  · show (checkNextBuffer s).outcome = _
    rw [checkNextBuffer, spliceVerdict_stay h]
    rfl
  · obtain ⟨ring, hring, hgo⟩ := refill_splice_fills hp hl hr ha
    refine ⟨ring, hring, ?_⟩
    show (checkNextBuffer s).outcome = _
    rw [checkNextBuffer, spliceVerdict_swap hb hv heq]
    dsimp only
    rw [hgo, Flow.outcome_go, splice_filled]
    rfl

/-- Settles O41: CTL_STOP's state is the state at rest itself, and a masked stop leaves a clear mask clear. -/
theorem stopOnIdleChangesNothing : Obligations.StopOnIdleChangesNothing := by
  intro s he hinv
  have hrest : stopped s = s := stopped_of_idleRest he (hinv he)
  refine ⟨congrArg Host.Outcome.next hrest, fun h hm => ?_⟩
  have hstop := (stopWriteStops.2 s h.toHostReady).2 h.configured
  rw [hstop, hrest, ← hm]

/-- Settles O40: the three procedures are field assignments, with no test but the one of CTL_STOP's events. -/
theorem controllerConfiguration : Obligations.ControllerConfiguration :=
  ⟨rfl, rfl, rfl, fun s => ⟨rfl, fun _ => rfl, rfl, congrArg Host.Outcome.next (ctlStop_eq_stopped s)⟩⟩

/-- Settles O42: the count is tested first; the caller's difference does not wrap. -/
theorem ctlExtendSetsCount : Obligations.CtlExtendSetsCount := by
  refine ⟨rfl, fun s k => ⟨fun hc => ctlExtend_exhausted hc k, fun hc => ctlExtend_busy hc k⟩,
    fun s hlt => ⟨fun hc => ?_, fun hc => ?_⟩⟩
  · refine ⟨{ s with bCnt := s.bytesApp - s.scheduledDma, tcB := false, bEn := true }, ?_, rfl,
      BitVec.toNat_sub_of_le (BitVec.le_def.2 hlt.le)⟩
    show (ctlExtend _ s).outcome = _
    rw [ctlExtend_exhausted hc, Flow.outcome_go]
  · show (ctlExtend _ s).outcome = _
    rw [ctlExtend_busy hc, Flow.outcome_stop]

end Sys2Proof
end

section
/-! PROOFS. The course of DMA_A_RESTART under the session's invariants, and that the mask is neither read nor written by
it (rules R222, R223, R236, R237). -/

namespace Sys2Proof.Machine

open Sys2Proof.Safety

/-! ### The restart goes through -/

/-- REFILL goes on where its checks pass and its buffer lies inside AM, whatever the ring holds (rules R211, R213). -/
theorem refill_goes {s : State} (hm : refillMisuse s = none) (ha : s.appBuf.toNat + s.bytesApp.toNat ≤ 2 ^ 32) :
    ∃ ring, refill s = .go (s.filled (refillCount s) ring) := by
  rcases refill_cases s with ⟨site, hsite, -⟩ | ⟨-, ring, -, hgo⟩ | ⟨-, hout, -⟩
  · exact absurd (hm.symm.trans hsite) nofun
  · exact ⟨ring, hgo⟩
  · exact absurd ha (Nat.not_le.2 hout)

/-- CHECK_NEXT_BUFFER goes on where the count is not ahead of the translated bytes and the queued buffer lies inside AM;
the block keeps running (rules R215, R216). -/
theorem checkNextBuffer_goes {s : State} (hs : s.scheduledDma.toNat ≤ s.bytesDma.toNat) (hr : s.room ≤ s.params.n)
    (ha : s.nextAppBuf.toNat + s.nextAppBytes.toNat ≤ 2 ^ 32) :
    ∃ t, checkNextBuffer s = .go t ∧ t.halted = s.halted := by
  rcases checkNextBuffer_cases s with ⟨-, hstay⟩ | ⟨hverdict, -⟩ | ⟨-, hswap⟩
  · exact ⟨s, hstay, rfl⟩
  · rcases spliceVerdict_cases s with ⟨-, -, hlt, -⟩ | ⟨-, -, -, hv⟩ | ⟨-, hv⟩
    · exact absurd hs (Nat.not_le.2 hlt)
    · exact absurd (hv.symm.trans hverdict) nofun
    · exact absurd (hv.symm.trans hverdict) nofun
  · obtain ⟨ring, hgo⟩ := refill_goes (s := splice s) ((refillMisuse_none_iff _).2 ⟨Nat.zero_le _, hr⟩) ha
    exact ⟨_, hswap.trans hgo, rfl⟩

/-- The restart's REFILL passes its accounting checks: no more is scheduled than the buffer holds (rule R213). -/
theorem restartHead_refillMisuse {s : State} (hp : s.params.wf = true)
    (hs : s.scheduledDma.toNat ≤ s.bytesApp.toNat) : refillMisuse (restartHead s) = none := by
  refine (refillMisuse_none_iff _).2 ⟨hs, ?_⟩
  simp [State.room, Params.nWord_toNat hp]

/-- DMA_A_RESTART ends without a Misuse and without a fault (rules R222, R223): the counter restarts at the scheduled
bytes, so the count cannot be ahead of it. -/
theorem dmaARestart_goes {s : State} (hp : s.params.wf = true) (hinv : SessionInv s) :
    ∃ t, dmaARestart s = .go t ∧ t.halted = s.halted := by
  have hchecks := restartHead_refillMisuse hp hinv.scheduled
  have hroom := ((refillMisuse_none_iff _).1 hchecks).2
  obtain ⟨htranslated, hleft⟩ := refillCount_bounds hchecks
  obtain ⟨ring, hrefill⟩ := refill_goes hchecks hinv.activeFits
  obtain ⟨v, hsplice, hhalted⟩ :=
    checkNextBuffer_goes (s := (restartHead s).filled (refillCount (restartHead s)) ring)
      (htranslated.symm ▸ Nat.le_add_right _ _) (hleft.trans_le ((Nat.sub_le _ _).trans hroom)) hinv.queuedFits
  refine ⟨restartTail v, ?_, hhalted⟩
  rw [dmaARestart, hrefill, Flow.andThen_go, hsplice, Flow.andThen_go]

/-! ### The restart and the mask -/

/-- The flow with its state updated, wherever it leaves the step. -/
def Flow.map (f : State → State) : Flow → Flow
  | .go s => .go (f s)
  | .stop s => .stop (f s)
  | .fault e => .fault e

/-- An update that passes through the second flow passes through the two in sequence. -/
theorem Flow.map_andThen {f : State → State} {k : State → Flow} (hk : ∀ s, k (f s) = (k s).map f) (x : Flow) :
    (x.map f).andThen k = (x.andThen k).map f := by
  cases x with
  | go s => exact hk s
  | stop s => rfl
  | fault e => rfl

/-- A pass of the byte loop commutes with setting the mask. -/
theorem refillByte_irqMask (s : State) : refillByte (irqMask s) = (refillByte s).map irqMask := by
  have hread : (irqMask s).memRead (s.appBuf.toNat + s.bytesDma.toNat) =
      s.memRead (s.appBuf.toNat + s.bytesDma.toNat) := rfl
  rw [refillByte, refillByte, irqMask_appBuf, irqMask_bytesDma, hread]
  cases s.memRead (s.appBuf.toNat + s.bytesDma.toNat) with
  | none => rfl
  | some b => rfl

/-- The byte loop commutes with setting the mask. -/
theorem refillBytes_irqMask (k : Nat) (s : State) : refillBytes k (irqMask s) = (refillBytes k s).map irqMask := by
  induction k generalizing s with
  | zero => rfl
  | succ k ih => rw [refillBytes_succ, refillBytes_succ, refillByte_irqMask, Flow.map_andThen ih]

/-- The poison guard commutes with setting the mask. -/
theorem poisonGuard_irqMask (s : State) : poisonGuard (irqMask s) = irqMask (poisonGuard s) := by
  rw [poisonGuard_eq, poisonGuard_eq]
  rfl

/-- REFILL commutes with setting the mask: its checks and its count do not read it. -/
theorem refill_irqMask (s : State) : refill (irqMask s) = (refill s).map irqMask := by
  have hchecks : refillMisuse (irqMask s) = refillMisuse s := rfl
  have hcount : refillCount (irqMask s) = refillCount s := rfl
  cases hm : refillMisuse s with
  | some site =>
    rw [refill_misuse hm, refill_misuse (hchecks.trans hm)]
    rfl
  | none =>
    rw [refill, refill, hchecks, hm, hcount, refillBytes_irqMask]
    refine Flow.map_andThen (fun u => ?_) _
    rw [poisonGuard_irqMask]
    rfl

/-- CHECK_NEXT_BUFFER commutes with setting the mask: its test does not read it. -/
theorem checkNextBuffer_irqMask (s : State) : checkNextBuffer (irqMask s) = (checkNextBuffer s).map irqMask := by
  have hverdict : spliceVerdict (irqMask s) = spliceVerdict s := rfl
  rw [checkNextBuffer, checkNextBuffer, hverdict]
  cases spliceVerdict s with
  | misuse => rfl
  | swap => exact refill_irqMask (splice s)
  | stay => rfl

/-- DMA_A_RESTART commutes with setting the mask, so the masked restart is the restart with the mask set. -/
theorem dmaARestart_irqMask (s : State) : dmaARestart (irqMask s) = (dmaARestart s).map irqMask := by
  have hhead : restartHead (irqMask s) = irqMask (restartHead s) := rfl
  rw [dmaARestart, dmaARestart, hhead, refill_irqMask, Flow.map_andThen checkNextBuffer_irqMask]
  exact Flow.map_andThen (fun _ => rfl) _

end Sys2Proof.Machine
end

section
/-! PROOFS. The handlers' steps where they are enabled: the entries, the steps their labels name, and the entries'
decisions in the form the statements write (43_interrupts.md). -/

namespace Sys2Proof.Machine

open Sys2Proof.Safety

/-! ### The data handler -/

/-- The data handler's entry step (rules R241, R242). -/
theorem exec_dataIrq_entry {s : State} (h : s.dataEntryEnabled = true) : exec .dataIrq s = .next (dataEntry s) := by
  obtain ⟨hpc, -⟩ := (dataEntryEnabled_iff s).1 h
  show execDataIrq s = _
  rw [execDataIrq, guarded_of_enabled (dataIrqEnabled_iff s) (.inl h), dataStep, hpc]
  rfl

/-- The step that the data handler's label names (rule R241). -/
theorem exec_dataIrq_active {s : State} (hpc : s.dataPc ≠ .off) (hr : s.halted = false) :
    exec .dataIrq s = (dataStep s).outcome :=
  guarded_of_enabled (dataIrqEnabled_iff s) (.inr ⟨hpc, hr⟩) _ _

/-- The step D_CNB (rule R244). -/
theorem exec_dataIrq_cnb {s : State} (hpc : s.dataPc = .cnb) (hr : s.halted = false) :
    exec .dataIrq s = (dataSpliceStep s).outcome := by
  rw [exec_dataIrq_active (by rw [hpc]; exact nofun) hr, dataStep, hpc]

/-- The record, the error and the stop of an overrun, as the statements write them (rules R66, R242, R271). -/
theorem dataOverrun_eq (s : State) : dataOverrun s = stopped (recorded s .overrun .overrun) := by
  have hrecorded : (s.logRecord .overrun).raise .overrun = recorded s .overrun .overrun := by
    simp [State.logRecord, State.raise, State.emit, recorded]
  rw [dataOverrun, hrecorded, ctlStop_eq_stopped]

/-- Both events pending is an overrun (rule R242). -/
theorem dataEntry_both {s : State} (hh : s.htA = true) (ht : s.tcA = true) : dataEntry s = dataOverrun s := by
  rw [dataEntry, hh, ht]
  rfl

/-- One event pending is consumed (rule R242). -/
theorem dataEntry_one {s : State} (h : s.htA ≠ s.tcA) : dataEntry s = dataAdvance s := by
  refine if_neg fun hboth => ?_
  obtain ⟨hh, ht⟩ := Bool.and_eq_true_iff.1 hboth
  exact h (hh.trans ht.symm)

/-! ### The schedule handler -/

/-- No data source comes before the schedule handler where no data handler is active and no event of DMA-A is pending
(rule R250). -/
theorem dataFirst_of_quiet {s : State} (hd : s.dataPc = .off) (hh : s.htA = false) (ht : s.tcA = false) :
    s.dataFirst = false := by
  rw [Bool.eq_false_iff, ne_eq, dataFirst_iff, dataPending_iff]
  simp [hd, hh, ht]

/-- The schedule handler's entry step (rules R250, R251). -/
theorem exec_schedIrq_entry {s : State} (h : s.schedEntryEnabled = true) :
    exec .schedIrq s = .next (schedEntry s) := by
  obtain ⟨hpc, -⟩ := (schedEntryEnabled_iff s).1 h
  show execSchedIrq s = _
  rw [execSchedIrq, guarded_of_enabled (schedIrqEnabled_iff s) (.inl h), schedStep, hpc]
  rfl

/-- The step that the schedule handler's label names (rule R250). -/
theorem exec_schedIrq_active {s : State} (hpc : s.schedPc ≠ .off) (hq : s.dataFirst = false)
    (hr : s.halted = false) : exec .schedIrq s = (schedStep s).outcome :=
  guarded_of_enabled (schedIrqEnabled_iff s) (.inr ⟨hpc, hq, hr⟩) _ _

/-- The step S_RESTART (rule R252). -/
theorem exec_schedIrq_restart {s : State} (hpc : s.schedPc = .restart) (hq : s.dataFirst = false)
    (hr : s.halted = false) : exec .schedIrq s = (schedRestartStep s).outcome := by
  rw [exec_schedIrq_active (by rw [hpc]; exact nofun) hq hr, schedStep, hpc]

/-- The step S_EXTEND (rule R254). -/
theorem exec_schedIrq_extend {s : State} (hpc : s.schedPc = .extend) (hq : s.dataFirst = false)
    (hr : s.halted = false) : exec .schedIrq s = (schedExtendStep s).outcome := by
  rw [exec_schedIrq_active (by rw [hpc]; exact nofun) hq hr, schedStep, hpc]

/-- There is new data where bytes lie beyond the count or a buffer is queued (rule R251; decision D17). -/
theorem newData_iff (s : State) :
    s.newData = true ↔ s.scheduledDma.toNat < s.bytesApp.toNat ∨ s.nextValid = true := by
  rw [State.newData, Bool.or_eq_true, decide_eq_true_eq]

/-- The entry without new data stops the engine, whose stop clears the event as well (rules R219, R251). -/
theorem schedEntry_nothing_new {s : State} (h : s.newData = false) : schedEntry s = stopped s :=
  if_neg (ne_true_of_eq_false h)

/-- The entry with new data consumes the event and goes on (rule R251). -/
theorem schedEntry_new {s : State} (h : s.newData = true) : schedEntry s =
    { s with tcB := false, schedPc := if s.incompleteBuf = true then .restart else .extend } := if_pos h

/-- S_EXTEND of a WRITING session with bytes beyond the count is CTL_EXTEND, then the return (rule R254). -/
theorem schedExtendStep_beyond {s : State} (he : s.engine = .writing)
    (hlt : s.scheduledDma.toNat < s.bytesApp.toNat) :
    schedExtendStep s = (ctlExtend (s.bytesApp - s.scheduledDma) s).andThen fun t =>
      .go { t with scheduledDma := t.bytesApp, schedPc := .off } := by
  have hne : s.bytesApp ≠ s.scheduledDma := fun heq => absurd hlt (by rw [heq]; exact Nat.lt_irrefl _)
  rw [schedExtendStep, if_neg (engine_ne_idle he), if_neg hne]

end Sys2Proof.Machine
end

section
/-! PROOFS. The statements of the interrupt handlers settled (43_interrupts.md). -/

namespace Sys2Proof

open Sys2Proof.Machine Sys2Proof.Safety

/-- Settles O35: the invariants carry the restart to its end, and the mask set around it changes nothing in it. -/
theorem schedRestartStep : Obligations.SchedRestartStep := by
  intro s hd hpc hr hh ht
  have hstep := exec_schedIrq_restart hpc (dataFirst_of_quiet hd hh ht) hr
  refine ⟨fun he => ?_, fun he hp hinv => ?_⟩
  · rw [hstep, Machine.schedRestartStep, if_pos he, Flow.outcome_go]
  · obtain ⟨t, hgo, hhalted⟩ := dmaARestart_goes hp hinv
    refine ⟨t, congrArg Flow.outcome hgo, hhalted.trans hr, ?_⟩
    rw [hstep, Machine.schedRestartStep, if_neg (engine_ne_idle he), dmaARestart_irqMask, hgo]
    rfl

/-- Settles O30: the two flags alone decide between the overrun and the advance. -/
theorem dataEntryStep : Obligations.DataEntryStep := by
  intro s hpc hr hm hen hhtie htcie
  have hentry (hp : s.htA = true ∨ s.tcA = true) : exec .dataIrq s = .next (dataEntry s) := by
    refine exec_dataIrq_entry ((dataEntryEnabled_iff s).2 ⟨hpc, (dataPending_iff s).2 ?_, hen, hm, hr⟩)
    exact hp.imp (⟨·, hhtie⟩) (⟨·, htcie⟩)
  refine ⟨fun hh ht => ?_, fun hne => ?_⟩
  · rw [hentry (.inl hh), dataEntry_both hh ht, dataOverrun_eq]
  · have hone : s.htA = true ∨ s.tcA = true := by
      cases hh : s.htA with
      | true => exact .inl rfl
      | false => exact .inr (Bool.eq_true_of_not_eq_false fun ht => hne (hh.trans ht.symm))
    rw [hentry hone, dataEntry_one hne]
    rfl

/-- Settles O32: the splice test's three answers. -/
theorem dataSpliceStep : Obligations.DataSpliceStep := by
  intro s hpc hr
  have hstep := exec_dataIrq_cnb hpc hr
  refine ⟨fun hb hv hlt => ?_, fun hb hv heq => ?_, fun h => ?_⟩
  · rw [hstep, Machine.dataSpliceStep, spliceVerdict_misuse hb hv hlt]
    rfl
  · rw [hstep, Machine.dataSpliceStep, spliceVerdict_swap hb hv heq]
    rfl
  · rw [hstep, Machine.dataSpliceStep, spliceVerdict_stay h]
    rfl

/-- Settles O33: the flag is only ever set, by the test that the cursor has not reached the boundary. -/
theorem dataEndStep : Obligations.DataEndStep := by
  intro s hpc hr
  have hflag : (s.dmaIdx != s.dmaFillto) = decide (s.dmaIdx ≠ s.dmaFillto) := by
    rw [Bool.eq_iff_iff, bne_iff_ne, decide_eq_true_eq]
  rw [exec_dataIrq_active (by rw [hpc]; exact nofun) hr, dataStep, hpc]
  dsimp only
  rw [Flow.outcome_go, Machine.dataEndStep, State.flagIncomplete, hflag]

/-- Settles O34: new data alone decides between the stop and the two labels. -/
theorem schedEntryDecides : Obligations.SchedEntryDecides := by
  intro s hd hpc hr hm hen htcie htc hh ht
  have hentry : exec .schedIrq s = .next (schedEntry s) := exec_schedIrq_entry <| (schedEntryEnabled_iff s).2
    ⟨hpc, (schedPending_iff s).2 ⟨htc, htcie⟩, hen, hm, dataFirst_of_quiet hd hh ht, hr⟩
  refine ⟨fun hle hv => ?_, fun hnew => ?_⟩
  · have hnothing : s.newData = false := by
      rw [Bool.eq_false_iff, ne_eq, newData_iff]
      rintro (hlt | hv')
      · exact absurd hle (Nat.not_le.2 hlt)
      · exact absurd (hv.symm.trans hv') Bool.false_ne_true
    rw [hentry, schedEntry_nothing_new hnothing]
  · rw [hentry, schedEntry_new ((newData_iff s).2 hnew)]

/-- Settles O36: the engine state, the zero extension and the running count, tested in this order. -/
theorem schedExtendStep : Obligations.SchedExtendStep := by
  intro s hd hpc hr hh ht
  have hstep := exec_schedIrq_extend hpc (dataFirst_of_quiet hd hh ht) hr
  refine ⟨fun he => ?_, fun he hlt hc => ?_, fun he hz => ?_, fun he hlt hc => ?_⟩
  · rw [hstep, Machine.schedExtendStep, if_pos he, Flow.outcome_go]
  · rw [hstep, schedExtendStep_beyond he hlt, ctlExtend_exhausted hc, Flow.andThen_go, Flow.outcome_go]
  · rw [hstep, Machine.schedExtendStep, if_neg (engine_ne_idle he), if_pos hz.symm]
    rfl
  · rw [hstep, schedExtendStep_beyond he hlt, ctlExtend_busy hc, Flow.andThen_stop, Flow.outcome_stop]

end Sys2Proof
end

section
/-! PROOFS. Everything an operation that gives a next state can do, said once: one constructor of `Move` for each way its
pseudocode can go, with the guards that way has passed. Every invariant below is a case split over `Move`. -/

namespace Sys2Proof.Machine

open Sys2Proof.Safety

/-! ### REFILL inside its callers -/

/-- What REFILL leaves in the ring of `s`, image by image: each slot holds an image that the ring held before, the
poison image, or the image of a byte (rules R211, R214). -/
structure Refilled (s : State) (ring : List Image) : Prop where
  sameLength : ring.length = s.ring.length
  images : ∀ v ∈ ring, v ∈ s.ring ∨ v = s.params.poison ∨ ∃ b, v = s.params.translate b

/-- A pass of the byte loop that goes on (rules R211, R212). -/
theorem refillByte_go {s t : State} (h : refillByte s = .go t) :
    s.appBuf.toNat + s.bytesDma.toNat < 2 ^ 32 ∧ t = { s with
      ring := s.ring.set (s.slot s.dmaIdx) (s.params.translate (s.mem.read (s.appBuf.toNat + s.bytesDma.toNat)))
      dmaIdx := s.dmaIdx + 1
      bytesDma := s.bytesDma + 1 } := by
  rcases refillByte_cases s with ⟨ha, he⟩ | ⟨-, he⟩
  · rw [he, Flow.go.injEq] at h
    exact ⟨ha, h.symm⟩
  · rw [he] at h
    cases h

/-- The byte loop puts only images of bytes into the ring. -/
theorem refillBytes_images {k : Nat} {s t : State} (h : refillBytes k s = .go t) :
    ∀ v ∈ t.ring, v ∈ s.ring ∨ ∃ b, v = s.params.translate b := by
  induction k generalizing s with
  | zero =>
    cases h
    exact fun v hv => .inl hv
  | succ k ih =>
    obtain ⟨u, hu, ht⟩ := Flow.andThen_eq_go h
    obtain ⟨-, rfl⟩ := refillByte_go hu
    intro v hv
    rcases ih ht v hv with hold | hnew
    · rcases List.mem_or_eq_of_mem_set hold with hold | rfl
      · exact .inl hold
      · exact .inr ⟨_, rfl⟩
    · exact .inr hnew

/-- The poison guard puts only the poison image into the ring (rule R214). -/
theorem poisonGuard_images (s : State) : ∀ v ∈ (poisonGuard s).ring, v ∈ s.ring ∨ v = s.params.poison := by
  intro v hv
  rw [poisonGuard_eq] at hv
  dsimp only at hv
  split at hv
  · exact .inl hv
  · exact List.mem_or_eq_of_mem_set hv

/-- REFILL goes on with its counters moved by its count. -/
theorem refill_go {s t : State} (h : refill s = .go t) :
    refillMisuse s = none ∧ ∃ ring, Refilled s ring ∧ t = s.filled (refillCount s) ring := by
  rcases refill_cases s with ⟨site, -, he⟩ | ⟨hm, ring, hl, he⟩ | ⟨-, -, f, he⟩
  · cases he.symm.trans h
  · cases he.symm.trans h
    refine ⟨hm, ring, ⟨hl, fun v hv => ?_⟩, rfl⟩
    rw [refill, hm] at h
    obtain ⟨u, hu, hg⟩ := Flow.andThen_eq_go h
    have hring : ring = (poisonGuard u).ring := congrArg State.ring (Flow.go.inj hg).symm
    obtain ⟨_, -, hfilled⟩ := refillBytes_go hu
    rcases poisonGuard_images u v (hring ▸ hv) with hmem | hpoison
    · exact (refillBytes_images hu v hmem).imp_right .inr
    · exact .inr (.inl (hpoison.trans (by rw [hfilled]; rfl)))
  · cases he.symm.trans h

/-- REFILL stops only at an accounting check. -/
theorem refill_stop {s t : State} (h : refill s = .stop t) :
    ∃ site, refillMisuse s = some site ∧ t = s.raise (.misuse site) := by
  rcases refill_cases s with ⟨site, hm, he⟩ | ⟨-, ring, -, he⟩ | ⟨-, -, f, he⟩
  · cases he.symm.trans h
    exact ⟨site, hm, rfl⟩
  · cases he.symm.trans h
  · cases he.symm.trans h

/-- `N` as a cursor is never beyond `N`, whatever the parameters are. -/
theorem nWord_le (p : Params) : p.nWord.toNat ≤ p.n := by
  rw [Params.nWord, BitVec.toNat_ofNat]
  exact Nat.mod_le _ _

/-- A fresh start's accounting checks pass, whatever the parameters are (rule R144). -/
theorem freshHead_checks (ptr len : Word) (s : State) : refillMisuse (freshHead ptr len s) = none := by
  refine (refillMisuse_none_iff _).2 ⟨Nat.zero_le _, ?_⟩
  simpa [State.room] using nWord_le s.params

/-- A fresh start translates no more bytes than the buffer holds and the ring has room for (rule R144). -/
theorem freshHead_count (ptr len : Word) (s : State) :
    refillCount (freshHead ptr len s) ≤ len.toNat ∧ refillCount (freshHead ptr len s) ≤ s.params.nWord.toNat := by
  simp [refillCount, State.avail, State.room]

/-- A restart's checks pass exactly where no more is scheduled than the buffer holds (rule R222). -/
theorem restartHead_checks_iff (s : State) :
    refillMisuse (restartHead s) = none ↔ s.scheduledDma.toNat ≤ s.bytesApp.toNat := by
  rw [refillMisuse_none_iff]
  exact and_iff_left (by simpa [State.room] using nWord_le s.params)

/-- A restart translates the bytes beyond the count, as many as the ring has room for (rule R222). -/
theorem restartHead_count (s : State) : refillCount (restartHead s) =
    min (s.bytesApp.toNat - s.scheduledDma.toNat) s.params.nWord.toNat := by
  simp [refillCount, State.avail, State.room]

/-- The state a restart leaves without a splice, `k` bytes translated (rules R222, R223). -/
def restarted (s : State) (k : Nat) (ring : List Image) : State :=
  { s with
    ring := ring
    bytesDma := s.scheduledDma + BitVec.ofNat 32 k
    dmaIdx := BitVec.ofNat 32 k
    dmaFillto := s.params.nWord
    incompleteBuf := BitVec.ofNat 32 k != s.params.nWord
    pfq := []
    aFetch := 0
    aXfer := 0
    htA := false
    tcA := false
    aEn := true }

/-- The state a restart leaves with the queued buffer spliced in, `k` bytes of it translated (rules R222, R223). -/
def restartedSpliced (s : State) (k : Nat) (ring : List Image) : State :=
  { s with
    ring := ring
    appBuf := s.nextAppBuf
    bytesApp := s.nextAppBytes
    bytesDma := BitVec.ofNat 32 k
    scheduledDma := 0
    nextValid := false
    nextAppBuf := 0
    nextAppBytes := 0
    dmaIdx := BitVec.ofNat 32 k
    dmaFillto := s.params.nWord
    incompleteBuf := BitVec.ofNat 32 k != s.params.nWord
    pfq := []
    aFetch := 0
    aXfer := 0
    htA := false
    tcA := false
    aEn := true }

/-- The state of a restart between its REFILL and its splice (rule R222). -/
def restartFilled (s : State) (ring : List Image) : State :=
  (restartHead s).filled (refillCount (restartHead s)) ring

/-- The last statements of a restart that has not spliced. -/
theorem restartTail_filled (s : State) (ring : List Image) :
    restartTail (restartFilled s ring) = restarted s (refillCount (restartHead s)) ring := by
  simp [restartTail, State.flagIncomplete, restartFilled, State.filled, restarted, restartHead]

/-- The restart's splice never finds the count ahead of the translated bytes: these start at the count. -/
theorem restartFilled_verdict {s : State} (h : refillMisuse (restartHead s) = none) (ring : List Image) :
    spliceVerdict (restartFilled s ring) ≠ .misuse := by
  have hcount : s.scheduledDma.toNat ≤ (restartFilled s ring).bytesDma.toNat :=
    (refillCount_bounds h).1.symm ▸ Nat.le_add_right _ _
  rcases spliceVerdict_cases (restartFilled s ring) with ⟨-, -, hlt, -⟩ | ⟨-, -, -, hv⟩ | ⟨-, hv⟩
  · exact absurd hcount (Nat.not_le.2 hlt)
  · rw [hv]; exact nofun
  · rw [hv]; exact nofun

/-- A restart that splices has found the buffer scheduled whole, so that its first REFILL had no byte to translate. -/
theorem restartFilled_swap {s : State} {ring : List Image}
    (hv : spliceVerdict (restartFilled s ring) = .swap) :
    s.scheduledDma = s.bytesApp ∧ s.nextValid = true ∧ refillCount (restartHead s) = 0 := by
  rcases spliceVerdict_cases (restartFilled s ring) with ⟨-, -, -, hm⟩ | ⟨hb, hn, hs, -⟩ | ⟨-, hm⟩
  · cases hm.symm.trans hv
  · have hall : s.scheduledDma = s.bytesApp := hs.trans hb
    refine ⟨hall, hn, ?_⟩
    rw [restartHead_count, hall, Nat.sub_self, Nat.zero_min]
  · cases hm.symm.trans hv

/-- The restart's second REFILL passes its checks: nothing of the queued buffer is translated, and the first REFILL has
only taken from the room. -/
theorem splice_restartFilled_checks {s : State} (h : refillMisuse (restartHead s) = none) (ring : List Image) :
    refillMisuse (splice (restartFilled s ring)) = none := by
  have hroom := ((refillMisuse_none_iff _).1 h).2
  refine (refillMisuse_none_iff _).2 ⟨Nat.zero_le _, ?_⟩
  exact (refillCount_bounds h).2.trans_le ((Nat.sub_le _ _).trans hroom)

/-- After a REFILL of no bytes the restart's cursors are as they were. -/
theorem restartFilled_of_none {s : State} (h : refillCount (restartHead s) = 0) (ring : List Image) :
    restartFilled s ring = { restartHead s with ring := ring } := by
  rw [restartFilled, h, State.filled]
  simp

/-- So its second REFILL starts at slot 0 with the whole ring as its room. -/
theorem splice_restartFilled_count {s : State} (h : refillCount (restartHead s) = 0) (ring : List Image) :
    refillCount (splice (restartFilled s ring)) = min s.nextAppBytes.toNat s.params.nWord.toNat := by
  simp [refillCount, State.avail, State.room, restartFilled_of_none h]

/-- The last statements of a restart that has spliced. -/
theorem restartTail_splice_filled {s : State} (h : refillCount (restartHead s) = 0) (ring ring' : List Image)
    (k : Nat) : restartTail ((splice (restartFilled s ring)).filled k ring') = restartedSpliced s k ring' := by
  simp [restartFilled_of_none h, restartTail, State.flagIncomplete, State.filled, restartedSpliced, restartHead, splice]

/-- The two ways DMA_A_RESTART goes on: without a splice and with one (rules R222, R223). -/
theorem dmaARestart_go_cases {s t : State} (h : dmaARestart s = .go t) :
    ∃ ring k, Refilled s ring ∧ k ≤ s.params.nWord.toNat ∧
      ((s.scheduledDma.toNat + k ≤ s.bytesApp.toNat ∧ t = restarted s k ring) ∨
        (s.scheduledDma = s.bytesApp ∧ s.nextValid = true ∧ k ≤ s.nextAppBytes.toNat ∧
          t = restartedSpliced s k ring)) := by
  obtain ⟨u, v, hu, hv, rfl⟩ := dmaARestart_go h
  obtain ⟨hm, ring, hring, rfl⟩ := refill_go hu
  have hle := (restartHead_checks_iff s).1 hm
  rcases checkNextBuffer_cases (restartFilled s ring) with ⟨-, he⟩ | ⟨-, he⟩ | ⟨hs, he⟩
  · cases he.symm.trans hv
    have hcount := restartHead_count s
    exact ⟨ring, _, ⟨hring.sameLength, hring.images⟩, by omega, .inl ⟨by omega, restartTail_filled s ring⟩⟩
  · cases he.symm.trans hv
  · obtain ⟨-, ring', hring', rfl⟩ := refill_go (he.symm.trans hv)
    obtain ⟨hall, hn, hzero⟩ := restartFilled_swap hs
    have hcount := splice_restartFilled_count hzero ring
    refine ⟨ring', _, ⟨hring'.sameLength.trans hring.sameLength, fun v hv => ?_⟩, by omega,
      .inr ⟨hall, hn, by omega, restartTail_splice_filled hzero ring ring' _⟩⟩
    rcases hring'.images v hv with hmem | hnew
    · exact hring.images v hmem
    · exact .inr hnew

/-- DMA_A_RESTART stops only at its first accounting check. -/
theorem dmaARestart_stop_cases {s t : State} (h : dmaARestart s = .stop t) :
    ∃ site, s.bytesApp.toNat < s.scheduledDma.toNat ∧ t = haltedAt (restartHead s) site := by
  rcases dmaARestart_stop h with hhead | ⟨u, hu, hv⟩
  · obtain ⟨site, hsite, rfl⟩ := refill_stop hhead
    refine ⟨site, Nat.lt_of_not_le fun hle => ?_, rfl⟩
    cases hsite.symm.trans ((restartHead_checks_iff s).2 hle)
  · obtain ⟨hm, ring, -, rfl⟩ := refill_go hu
    rcases checkNextBuffer_cases (restartFilled s ring) with ⟨-, he⟩ | ⟨hs, -⟩ | ⟨-, he⟩
    · cases he.symm.trans hv
    · exact absurd hs (restartFilled_verdict hm ring)
    · obtain ⟨site, hsite, -⟩ := refill_stop (he.symm.trans hv)
      cases hsite.symm.trans (splice_restartFilled_checks hm ring)

/-- The last statements of a fresh start, `k` bytes translated (rules R144, R218). -/
theorem freshTail_freshHead (ptr len : Word) (s : State) (k : Nat) (ring : List Image) :
    freshTail ((freshHead ptr len s).filled k ring) =
      { freshSession s ptr len k ring with incompleteBuf := BitVec.ofNat 32 k != s.params.nWord } := by
  simp [freshTail, ctlStart, State.flagIncomplete, State.filled, freshHead, freshSession, Params.nWord]

/-- A fresh start that gives a next state went through its REFILL. -/
theorem startFresh_outcome {ptr len : Word} {s t : State} (h : (startFresh ptr len s).outcome = .next t) :
    startFresh ptr len s = .go t ∧ ∃ ring k, Refilled s ring ∧ k ≤ len.toNat ∧ k ≤ s.params.nWord.toNat ∧
      t = { freshSession s ptr len k ring with incompleteBuf := BitVec.ofNat 32 k != s.params.nWord } := by
  rcases Flow.outcome_next h with hgo | hstop
  · obtain ⟨u, hu, rfl⟩ := startFresh_go hgo
    obtain ⟨-, ring, hring, rfl⟩ := refill_go hu
    obtain ⟨hlen, hroom⟩ := freshHead_count ptr len s
    exact ⟨hgo, ring, _, ⟨hring.sameLength, hring.images⟩, hlen, hroom, freshTail_freshHead ptr len s _ ring⟩
  · obtain ⟨site, hsite, -⟩ := refill_stop (startFresh_stop hstop)
    cases hsite.symm.trans (freshHead_checks ptr len s)

/-- The state CTL_STOP leaves after a diagnostic record of `kind` and its error (rules R66, R219, R271, R273). -/
def stoppedRecorded (s : State) (kind : LogKind) (e : Err) : State :=
  { stopped s with
    log := s.log ++ [⟨kind, s.snap⟩]
    trace := s.trace ++ [.log ⟨kind, s.snap⟩, .err e] ++ releaseEvents s
    overrunSeen := s.overrunSeen || decide (kind = .overrun)
    stallSeen := s.stallSeen || decide (kind = .stall) }

/-- The overrun of the data handler's entry. -/
theorem dataOverrun_eq_stoppedRecorded (s : State) : dataOverrun s = stoppedRecorded s .overrun .overrun :=
  dataOverrun_eq s

/-- The stall exit of a wait. -/
theorem ctlStop_stall (s : State) (cref : Word) :
    ctlStop (((s.setCell cref).logRecord .stall).raise .stallTimeout) =
      { stoppedRecorded s .stall .stallTimeout with cells := s.cells.set cref.toNat } := by
  rw [stall_recorded]
  rfl

/-! ### The ways an operation can go -/

/-- No handler is active and the block runs: the main line steps (rules R56, R278). -/
structure MainSteps (s : State) : Prop where
  dataOff : s.dataPc = .off
  schedOff : s.schedPc = .off
  running : s.halted = false

/-- The guards a fresh start of a buffer has passed: START_WRITE on an IDLE engine, or the completion of a START_WRITE
that was blocked (rules R144, R149). -/
structure StartsFresh (s : State) (i : Instr) (ptr len : Word) : Prop extends MainSteps s where
  idle : s.engine = .idle
  allowed : (∃ cref, i = .startWrite ptr len cref ∧ s.configured = true ∧ ptr.toNat + len.toNat ≤ 2 ^ 32) ∨
    (∃ cref t0, i = .waitPoll ∧ s.mainPc = .waitStart ptr len cref t0)

/-- The guards a START_WRITE has passed that finds the engine WRITING (rule R146). -/
structure JoinsSession (s : State) (ptr len : Word) : Prop extends MainSteps s where
  writing : s.engine = .writing
  configured : s.configured = true
  fits : ptr.toNat + len.toNat ≤ 2 ^ 32

/-- The labels of the data handler's two REFILLs and what each leads to (rules R243, R245). -/
inductive RefillLabel : DataPc → DataPc → Prop where
  | first : RefillLabel .refill1 .poison1
  | second : RefillLabel .refill2 .poison2

/-- The labels of the data handler's two poison guards and what each leads to (rules R243, R245). -/
inductive PoisonLabel : DataPc → DataPc → Prop where
  | first : PoisonLabel .poison1 .cnb
  | second : PoisonLabel .poison2 .finish

/-- The ways an operation from `s` can go that gives a next state. -/
inductive Move (s : State) : Instr → State → Prop where
  -- host commands and the wait (40_host_commands.md)
  | unchanged {i : Instr} (main : isHostCommand i = true ∨ i = .waitPoll) : Move s i s
  | refused {i : Instr} (host : isHostCommand i = true) (reason : RefuseReason) : Move s i (refusedWith s reason)
  | initialised (main : MainSteps s) (fresh : s.configured = false) :
      Move s .init { ctlInit s with configured := true }
  | freshStarted {i : Instr} {ptr len : Word} {k : Nat} {ring : List Image} (start : StartsFresh s i ptr len)
      (refilled : Refilled s ring) (bytes : k ≤ len.toNat) (room : k ≤ s.params.nWord.toNat) :
      Move s i { freshSession s ptr len k ring with
        mainPc := .ready, incompleteBuf := BitVec.ofNat 32 k != s.params.nWord }
  | mergedQueued {ptr len cref : Word} (join : JoinsSession s ptr len) (queued : s.nextValid = true)
      (room : s.nextAppBytes.toNat + len.toNat < 2 ^ 32)
      (continued : ptr.toNat = s.nextAppBuf.toNat + s.nextAppBytes.toNat) :
      Move s (.startWrite ptr len cref) { s with irqMask := false, nextAppBytes := s.nextAppBytes + len }
  | blocked {ptr len cref : Word} (join : JoinsSession s ptr len) (queued : s.nextValid = true) :
      Move s (.startWrite ptr len cref) { s with irqMask := false, mainPc := .waitStart ptr len cref s.nowMs }
  | mergedActive {ptr len cref : Word} (join : JoinsSession s ptr len) (free : s.nextValid = false)
      (room : s.bytesApp.toNat + len.toNat < 2 ^ 32) (continued : ptr.toNat = s.appBuf.toNat + s.bytesApp.toNat) :
      Move s (.startWrite ptr len cref) { s with irqMask := false, bytesApp := s.bytesApp + len }
  | enqueued {ptr len cref : Word} (join : JoinsSession s ptr len) (free : s.nextValid = false) :
      Move s (.startWrite ptr len cref)
        { s with irqMask := false, nextAppBuf := ptr, nextAppBytes := len, nextValid := true }
  | overflowRefused {ptr len cref : Word} (join : JoinsSession s ptr len) :
      Move s (.startWrite ptr len cref) (refusedWith { s with irqMask := false } .lengthOverflow)
  | hostStopped {i : Instr} (main : MainSteps s) (command : i = .stopWrite ∨ i = .waitPoll) :
      Move s i { stopped s with irqMask := false, mainPc := .ready }
  | waits {cref : Word} (main : MainSteps s) (writing : s.engine = .writing) :
      Move s (.finishWrite cref) { s with mainPc := .waitFinish cref s.nowMs }
  | answered {ptr : Word} (main : MainSteps s) (b : Bool) :
      Move s (.isWriteFinished ptr) { s with irqMask := false, trace := s.trace ++ [.result b] }
  | waitCompleted (main : MainSteps s) (idle : s.engine = .idle) : Move s .waitPoll { s with mainPc := .ready }
  | stallStopped (main : MainSteps s) (writing : s.engine = .writing) (cref : Word) :
      Move s .waitPoll { stoppedRecorded s .stall .stallTimeout with
        cells := s.cells.set cref.toNat, irqMask := false, mainPc := .ready }
  | cancelSet {cref : Word} : Move s (.setCancel cref) { s with cells := s.cells.set cref.toNat }
  | ticked {ms : Word} : Move s (.clockTick ms) { s with nowMs := s.nowMs + ms }
  -- handshake hardware (41_handshake.md)
  | assertUnheard (low : s.ack = false) (unheard : s.halted = true ∨ s.timEn = false) :
      Move s .ackAssert { s with ack := true }
  | assertHeard (low : s.ack = false) (running : s.halted = false) (timer : s.timEn = true) :
      Move s .ackAssert { s with
        ack := true
        req := false
        aReq := true
        timPhase := .acked
        reqLost := s.reqLost || s.aReq
        trace := s.trace ++ (if s.req then [.req false] else []) ++ if s.aReq then [.err (.reqLost .a)] else [] }
  | releaseUnheard (high : s.ack = true) (unheard : s.halted = true ∨ s.timEn = false) :
      Move s .ackRelease { s with ack := false }
  | releaseHeard (high : s.ack = true) (running : s.halted = false) (timer : s.timEn = true) :
      Move s .ackRelease { s with
        ack := false
        bReq := true
        timPhase := .released
        reqLost := s.reqLost || s.bReq
        trace := s.trace ++ if s.bReq then [.err (.reqLost .b)] else [] }
  | requested (timer : s.timEn = true) (primed : s.timPhase = .primed) (running : s.halted = false) :
      Move s .timerReqAssert { s with trace := s.trace ++ [.req true], req := true, timPhase := .reqOn }
  | prefetched (channel : s.aEn = true) (space : s.pfq.length < s.params.prefetchDepth) (running : s.halted = false) :
      Move s .dmaAFetch { s with pfq := s.pfq ++ [s.ringRead (s.slot s.aFetch)], aFetch := s.aFetch + 1 }
  | delivered (latched : s.aReq = true) (channel : s.aEn = true) (running : s.halted = false) :
      Move s .dmaAXfer { s with
        out := s.nextImage
        trace := s.trace ++ [.outw s.nextImage]
        poisonOut := if s.nextImage = s.params.poison then s.poisonOut + 1 else s.poisonOut
        pfq := s.pfq.tail
        aFetch := if s.pfq = [] then s.aFetch + 1 else s.aFetch
        aReq := false
        aXfer := s.aXfer + 1
        htA := s.htA || halfEvent s.params (s.aXfer + 1)
        tcA := s.tcA || fullEvent s.params (s.aXfer + 1) }
  | timerReset (latched : s.bReq = true) (channel : s.bEn = true) (left : s.bCnt ≠ 0) (copied : s.aReq = false)
      (running : s.halted = false) :
      Move s .dmaBXfer { s with
        timPhase := if s.timEn then .primed else s.timPhase
        bReq := false
        bCnt := s.bCnt - 1
        tcB := s.tcB || s.bCnt - 1 == 0 }
  -- the data handler (43_interrupts.md section 2)
  | overran (running : s.halted = false) (entry : s.dataPc = .off) (half : s.htA = true) (full : s.tcA = true) :
      Move s .dataIrq (stoppedRecorded s .overrun .overrun)
  | advanced (running : s.halted = false) (entry : s.dataPc = .off) (event : s.htA ≠ s.tcA) :
      Move s .dataIrq (dataAdvance s)
  | refillHalted {next : DataPc} {site : MisuseSite} (running : s.halted = false) (label : RefillLabel s.dataPc next)
      (fails : refillMisuse s = some site) : Move s .dataIrq (haltedAt s site)
  | refillDone {next : DataPc} (running : s.halted = false) (label : RefillLabel s.dataPc next)
      (checks : refillMisuse s = none) (none_left : refillCount s = 0) : Move s .dataIrq { s with dataPc := next }
  | refillStepped {next : DataPc} (running : s.halted = false) (label : RefillLabel s.dataPc next)
      (checks : refillMisuse s = none) (left : refillCount s ≠ 0) :
      Move s .dataIrq { s with
        ring := s.ring.set (s.slot s.dmaIdx) (s.params.translate (s.mem.read (s.appBuf.toNat + s.bytesDma.toNat)))
        dmaIdx := s.dmaIdx + 1
        bytesDma := s.bytesDma + 1 }
  | poisoned {next : DataPc} (running : s.halted = false) (label : PoisonLabel s.dataPc next) :
      Move s .dataIrq { s with
        ring := if s.dmaIdx = s.dmaFillto then s.ring else s.ring.set (s.slot s.dmaIdx) s.params.poison
        dataPc := next }
  | spliceHalted (running : s.halted = false) (label : s.dataPc = .cnb) (verdict : spliceVerdict s = .misuse) :
      Move s .dataIrq (haltedAt s .spliceSched)
  | spliced (running : s.halted = false) (label : s.dataPc = .cnb) (verdict : spliceVerdict s = .swap) :
      Move s .dataIrq { splice s with dataPc := .refill2 }
  | notSpliced (running : s.halted = false) (label : s.dataPc = .cnb) (verdict : spliceVerdict s = .stay) :
      Move s .dataIrq { s with dataPc := .finish }
  | dataReturned (running : s.halted = false) (label : s.dataPc = .finish) :
      Move s .dataIrq { s with incompleteBuf := s.incompleteBuf || s.dmaIdx != s.dmaFillto, dataPc := .off }
  -- the schedule handler (43_interrupts.md section 3)
  | sessionEnded (running : s.halted = false) (quiet : s.dataPc = .off) (entry : s.schedPc = .off)
      (event : s.tcB = true) : Move s .schedIrq (stopped s)
  | newDataTaken (running : s.halted = false) (quiet : s.dataPc = .off) (entry : s.schedPc = .off)
      (event : s.tcB = true) :
      Move s .schedIrq { s with tcB := false, schedPc := if s.incompleteBuf then .restart else .extend }
  | schedReturned (running : s.halted = false) (quiet : s.dataPc = .off) (label : s.schedPc ≠ .off)
      (idle : s.engine = .idle) : Move s .schedIrq { s with schedPc := .off }
  | restartHalted {site : MisuseSite} (running : s.halted = false) (quiet : s.dataPc = .off)
      (label : s.schedPc = .restart) (writing : s.engine = .writing)
      (ahead : s.bytesApp.toNat < s.scheduledDma.toNat) :
      Move s .schedIrq { haltedAt (restartHead s) site with irqMask := true }
  | restarted {k : Nat} {ring : List Image} (running : s.halted = false) (quiet : s.dataPc = .off)
      (label : s.schedPc = .restart) (writing : s.engine = .writing) (refilled : Refilled s ring)
      (room : k ≤ s.params.nWord.toNat) (bytes : s.scheduledDma.toNat + k ≤ s.bytesApp.toNat) :
      Move s .schedIrq { restarted s k ring with irqMask := false, schedPc := .extend }
  | restartedSpliced {k : Nat} {ring : List Image} (running : s.halted = false) (quiet : s.dataPc = .off)
      (label : s.schedPc = .restart) (writing : s.engine = .writing) (refilled : Refilled s ring)
      (room : k ≤ s.params.nWord.toNat) (scheduled : s.scheduledDma = s.bytesApp) (queued : s.nextValid = true)
      (bytes : k ≤ s.nextAppBytes.toNat) :
      Move s .schedIrq { restartedSpliced s k ring with irqMask := false, schedPc := .extend }
  | extendZero (running : s.halted = false) (quiet : s.dataPc = .off) (label : s.schedPc = .extend)
      (writing : s.engine = .writing) (zero : s.bytesApp = s.scheduledDma) :
      Move s .schedIrq (haltedAt s .extendZero)
  | extendBusy (running : s.halted = false) (quiet : s.dataPc = .off) (label : s.schedPc = .extend)
      (writing : s.engine = .writing) (busy : s.bCnt ≠ 0) : Move s .schedIrq (haltedAt s .extendBusy)
  | extended (running : s.halted = false) (quiet : s.dataPc = .off) (label : s.schedPc = .extend)
      (writing : s.engine = .writing) (exhausted : s.bCnt = 0) :
      Move s .schedIrq { s with
        bCnt := s.bytesApp - s.scheduledDma
        tcB := false
        bEn := true
        scheduledDma := s.bytesApp
        schedPc := .off }

/-! ### Every next state is reached by one of them -/

/-- An engine that is not IDLE is WRITING. -/
theorem engine_writing_of_ne_idle {s : State} (h : s.engine ≠ .idle) : s.engine = .writing := by
  cases he : s.engine with
  | idle => exact absurd he h
  | writing => rfl

theorem mainSteps_of_hostEnabled {s : State} (h : s.hostEnabled = true) : MainSteps s ∧ s.mainPc = .ready := by
  obtain ⟨hd, hs, hr, hm⟩ := (hostEnabled_iff s).1 h
  exact ⟨⟨hd, hs, hr⟩, hm⟩

theorem mainSteps_of_waitPollEnabled {s : State} (h : s.waitPollEnabled = true) : MainSteps s := by
  obtain ⟨hd, hs, hr, -⟩ := (waitPollEnabled_iff s).1 h
  exact ⟨hd, hs, hr⟩

/-- Writing `READY` where the main line is ready changes nothing. -/
theorem with_mainPc_ready {s : State} (h : s.mainPc = .ready) : { s with mainPc := .ready } = s := by
  rw [← h]

theorem Move.of_startWrite {ptr len cref : Word} {s t : State} (h : exec (.startWrite ptr len cref) s = .next t) :
    Move s (.startWrite ptr len cref) t := by
  rcases startWrite_next h with rfl | ⟨reason, rfl⟩ | ⟨hen, hc, hfits, ⟨hidle, hstart⟩ | ⟨hw, rfl⟩⟩
  · exact .unchanged (.inl rfl)
  · exact .refused rfl reason
  · obtain ⟨hmain, hready⟩ := mainSteps_of_hostEnabled hen
    obtain ⟨-, ring, k, hring, hbytes, hroom, rfl⟩ := startFresh_outcome hstart
    rw [← with_mainPc_ready (s := { freshSession s ptr len k ring with
      incompleteBuf := BitVec.ofNat 32 k != s.params.nWord }) hready]
    exact .freshStarted ⟨hmain, hidle, .inl ⟨cref, rfl, hc, hfits⟩⟩ hring hbytes hroom
  · have hjoin : JoinsSession s ptr len := ⟨(mainSteps_of_hostEnabled hen).1, hw, hc, hfits⟩
    rcases startWriting_cases ptr len cref s with
      ⟨hv, hroom, hp, he⟩ | ⟨hv, he⟩ | ⟨hv, hroom, hp, he⟩ | ⟨hv, he⟩ | he
    · rw [he]; exact .mergedQueued hjoin hv hroom hp
    · rw [he]; exact .blocked hjoin hv
    · rw [he]; exact .mergedActive hjoin hv hroom hp
    · rw [he]; exact .enqueued hjoin hv
    · rw [he]; exact .overflowRefused hjoin

theorem Move.of_waitPoll {s t : State} (h : exec .waitPoll s = .next t) : Move s .waitPoll t := by
  obtain ⟨hen, hwait⟩ := execWaitPoll_next h
  have hmain := mainSteps_of_waitPollEnabled hen
  rcases hwait with ⟨cref, t0, -, hpoll⟩ | ⟨ptr, len, cref, t0, hpc, hpoll⟩
  · rcases waitPoll_next hpoll with rfl | rfl | ⟨hw, rfl⟩ | ⟨hidle, ⟨u, hu, rfl⟩ | hstop⟩
    · exact .unchanged (.inr rfl)
    · exact .hostStopped hmain (.inr rfl)
    · rw [ctlStop_stall]
      exact .stallStopped hmain hw cref
    · cases hu
      exact .waitCompleted hmain hidle
    · cases hstop
  · rcases waitPoll_next hpoll with rfl | rfl | ⟨hw, rfl⟩ | ⟨hidle, ⟨u, hu, rfl⟩ | hstop⟩
    · exact .unchanged (.inr rfl)
    · exact .hostStopped hmain (.inr rfl)
    · rw [ctlStop_stall]
      exact .stallStopped hmain hw cref
    · obtain ⟨-, ring, k, hring, hbytes, hroom, rfl⟩ := startFresh_outcome (congrArg Flow.outcome hu)
      exact .freshStarted ⟨hmain, hidle, .inr ⟨cref, t0, rfl, hpc⟩⟩ hring hbytes hroom
    · obtain ⟨hgo, -⟩ := startFresh_outcome (congrArg Flow.outcome hstop)
      cases hgo.symm.trans hstop

/-- The step of a REFILL label of the data handler (rules R243, R245). -/
theorem Move.of_dataRefillStep {next : DataPc} {s t : State} (hr : s.halted = false)
    (label : RefillLabel s.dataPc next) (h : (dataRefillStep next s).outcome = .next t) : Move s .dataIrq t := by
  rw [dataRefillStep] at h
  cases hm : refillMisuse s with
  | some site =>
    rw [hm] at h
    cases h
    exact .refillHalted hr label hm
  | none =>
    rw [hm] at h
    dsimp only at h
    by_cases hc : refillCount s = 0
    · rw [if_pos hc] at h
      cases h
      exact .refillDone hr label hm hc
    · rw [if_neg hc] at h
      rcases refillByte_cases s with ⟨-, he⟩ | ⟨-, he⟩
      · rw [he] at h
        cases h
        exact .refillStepped hr label hm hc
      · rw [he] at h
        cases h

/-- The step of a poison label of the data handler (rules R243, R245). -/
theorem Move.of_dataPoisonStep {next : DataPc} {s : State} (hr : s.halted = false)
    (label : PoisonLabel s.dataPc next) : Move s .dataIrq (dataPoisonStep next s) := by
  rw [dataPoisonStep, poisonGuard_eq]
  exact .poisoned hr label

theorem Move.of_dataIrq {s t : State} (h : exec .dataIrq s = .next t) : Move s .dataIrq t := by
  obtain ⟨hr, hentry, hstep⟩ := dataIrq_next h
  rw [dataStep] at hstep
  cases hpc : s.dataPc with
  | off =>
    rw [hpc] at hstep
    cases hstep
    have hpending := (dataPending_iff s).1 (hentry hpc).1
    by_cases hboth : s.htA = true ∧ s.tcA = true
    · rw [dataEntry_both hboth.1 hboth.2, dataOverrun_eq_stoppedRecorded]
      exact .overran hr hpc hboth.1 hboth.2
    · have hone : s.htA ≠ s.tcA := by
        intro heq
        rcases hpending with ⟨hh, -⟩ | ⟨ht, -⟩
        · exact hboth ⟨hh, heq ▸ hh⟩
        · exact hboth ⟨heq ▸ ht, ht⟩
      rw [dataEntry_one hone]
      exact .advanced hr hpc hone
  | refill1 =>
    rw [hpc] at hstep
    exact of_dataRefillStep hr (hpc ▸ .first) hstep
  | poison1 =>
    rw [hpc] at hstep
    cases hstep
    exact of_dataPoisonStep hr (hpc ▸ .first)
  | cnb =>
    rw [hpc] at hstep
    dsimp only at hstep
    rw [dataSpliceStep] at hstep
    cases hv : spliceVerdict s with
    | misuse => rw [hv] at hstep; cases hstep; exact .spliceHalted hr hpc hv
    | swap => rw [hv] at hstep; cases hstep; exact .spliced hr hpc hv
    | stay => rw [hv] at hstep; cases hstep; exact .notSpliced hr hpc hv
  | refill2 =>
    rw [hpc] at hstep
    exact of_dataRefillStep hr (hpc ▸ .second) hstep
  | poison2 =>
    rw [hpc] at hstep
    cases hstep
    exact of_dataPoisonStep hr (hpc ▸ .second)
  | finish =>
    rw [hpc] at hstep
    cases hstep
    exact .dataReturned hr hpc

/-- A masked step that has set its label ends with the mask clear (rules R236, R237). -/
theorem unmask_mask_return (s : State) (pc : SchedPc) :
    { irqUnmask (irqMask s) with schedPc := pc } = { s with irqMask := false, schedPc := pc } := rfl

/-- The step S_RESTART (rules R252, R253). -/
theorem Move.of_schedRestartStep {s t : State} (hr : s.halted = false) (hq : s.dataPc = .off)
    (hpc : s.schedPc = .restart) (h : (schedRestartStep s).outcome = .next t) : Move s .schedIrq t := by
  rw [schedRestartStep] at h
  by_cases he : s.engine = .idle
  · rw [if_pos he] at h
    cases h
    exact .schedReturned hr hq (by rw [hpc]; exact nofun) he
  · have hw := engine_writing_of_ne_idle he
    rw [if_neg he, dmaARestart_irqMask] at h
    cases hrestart : dmaARestart s with
    | go v =>
      rw [hrestart] at h
      have ht : t = { v with irqMask := false, schedPc := .extend } :=
        (Host.Outcome.next.inj h).symm.trans (unmask_mask_return v .extend)
      obtain ⟨ring, k, hring, hroom, ⟨hbytes, hgo⟩ | ⟨hall, hn, hbytes, hgo⟩⟩ := dmaARestart_go_cases hrestart
      · rw [ht, hgo]
        exact .restarted hr hq hpc hw hring hroom hbytes
      · rw [ht, hgo]
        exact .restartedSpliced hr hq hpc hw hring hroom hall hn hbytes
    | stop v =>
      rw [hrestart] at h
      have ht : t = irqMask v := (Host.Outcome.next.inj h).symm
      obtain ⟨site, hahead, hstop⟩ := dmaARestart_stop_cases hrestart
      rw [ht, hstop]
      exact .restartHalted hr hq hpc hw hahead
    | fault f =>
      rw [hrestart] at h
      cases h

/-- The step S_EXTEND (rules R253 to R255). -/
theorem Move.of_schedExtendStep {s t : State} (hr : s.halted = false) (hq : s.dataPc = .off)
    (hpc : s.schedPc = .extend) (h : (schedExtendStep s).outcome = .next t) : Move s .schedIrq t := by
  rw [schedExtendStep] at h
  by_cases he : s.engine = .idle
  · rw [if_pos he] at h
    cases h
    exact .schedReturned hr hq (by rw [hpc]; exact nofun) he
  · have hw := engine_writing_of_ne_idle he
    rw [if_neg he] at h
    by_cases hz : s.bytesApp = s.scheduledDma
    · rw [if_pos hz] at h
      cases h
      exact .extendZero hr hq hpc hw hz
    · rw [if_neg hz] at h
      rcases ctlExtend_cases (s.bytesApp - s.scheduledDma) s with ⟨hb, hx⟩ | ⟨hb, hx⟩
      · rw [hx] at h
        cases h
        exact .extended hr hq hpc hw hb
      · rw [hx] at h
        cases h
        exact .extendBusy hr hq hpc hw hb

theorem Move.of_schedIrq {s t : State} (h : exec .schedIrq s = .next t) : Move s .schedIrq t := by
  obtain ⟨hr, hq, hentry, hstep⟩ := schedIrq_next h
  rw [schedStep] at hstep
  cases hpc : s.schedPc with
  | off =>
    rw [hpc] at hstep
    cases hstep
    have hevent := ((schedPending_iff s).1 (hentry hpc).1).1
    cases hn : s.newData with
    | true => rw [schedEntry_new hn]; exact .newDataTaken hr hq hpc hevent
    | false => rw [schedEntry_nothing_new hn]; exact .sessionEnded hr hq hpc hevent
  | restart =>
    rw [hpc] at hstep
    exact of_schedRestartStep hr hq hpc hstep
  | extend =>
    rw [hpc] at hstep
    exact of_schedExtendStep hr hq hpc hstep

/-- An operation that may stand in a run and gives a next state goes one of the ways of `Move`. -/
theorem Move.of_exec {i : Instr} {s t : State} (hi : i.wellFormed = true) (h : exec i s = .next t) : Move s i t := by
  cases i with
  | init =>
    rcases init_next h with ⟨hen, hc, rfl⟩ | ⟨reason, rfl⟩
    · exact .initialised (mainSteps_of_hostEnabled hen).1 hc
    · exact .refused rfl reason
  | startWrite ptr len cref => exact of_startWrite h
  | stopWrite =>
    rcases stopWrite_next h with ⟨hen, rfl⟩ | ⟨reason, rfl⟩
    · obtain ⟨hmain, hready⟩ := mainSteps_of_hostEnabled hen
      rw [← with_mainPc_ready (s := { ctlStop s with irqMask := false }) hready]
      exact .hostStopped hmain (.inl rfl)
    · exact .refused rfl reason
  | finishWrite cref =>
    rcases finishWrite_next h with rfl | ⟨reason, rfl⟩ | ⟨hen, hw, rfl⟩
    · exact .unchanged (.inl rfl)
    · exact .refused rfl reason
    · exact .waits (mainSteps_of_hostEnabled hen).1 hw
  | isWriteFinished ptr =>
    rcases isWriteFinished_next h with ⟨hen, b, rfl⟩ | ⟨reason, rfl⟩
    · exact .answered (mainSteps_of_hostEnabled hen).1 b
    · exact .refused rfl reason
  | waitPoll => exact of_waitPoll h
  | setCancel cref => cases h; exact .cancelSet
  | clockTick ms => cases h; exact .ticked
  | ackAssert =>
    obtain ⟨hl, ⟨hu, rfl⟩ | ⟨hr, ht, rfl⟩⟩ := ackAssert_next h
    · exact .assertUnheard hl hu
    · exact .assertHeard hl hr ht
  | ackRelease =>
    obtain ⟨hl, ⟨hu, rfl⟩ | ⟨hr, ht, rfl⟩⟩ := ackRelease_next h
    · exact .releaseUnheard hl hu
    · exact .releaseHeard hl hr ht
  | timerReqAssert =>
    obtain ⟨ht, hp, hr, rfl⟩ := timerReqAssert_next h
    exact .requested ht hp hr
  | dmaAFetch =>
    obtain ⟨he, hq, hr, rfl⟩ := dmaAFetch_next h
    exact .prefetched he hq hr
  | dmaAXfer =>
    obtain ⟨ha, he, hr, rfl⟩ := dmaAXfer_next h
    exact .delivered ha he hr
  | dmaBXfer =>
    obtain ⟨hb, he, hc, ha, hr, rfl⟩ := dmaBXfer_next h
    exact .timerReset hb he hc ha hr
  | dataIrq => exact of_dataIrq h
  | schedIrq => exact of_schedIrq h
  | refill | checkNextBuffer | ctlInit | ctlStart | ctlStop | ctlExtend | dmaARestart | irqMask | irqUnmask
  | timerUpdate => cases hi

/-! ### A step -/

/-- A step that gives a next state takes an operation's bytes, and then the operation moves or the step is a refusal of
rule R118 or R119. -/
theorem step_moves {s t : State} (h : step s = .next t) :
    ∃ rest, (∃ i, takenOp s = some i ∧ Move (s.taken rest) i t) ∨
      (takenOp s = none ∧ ∃ reason, t = refusedWith (s.taken rest) reason) := by
  obtain ⟨rest, ⟨i, hi, hwf, hexec⟩ | hrefused⟩ := step_taken h
  · exact ⟨rest, .inl ⟨i, hi, .of_exec hwf hexec⟩⟩
  · exact ⟨rest, .inr hrefused⟩

/-- What a state has that does not look at the written run, at the mark of a refusal or at the trace is kept by a step
that gives a next state where each operation keeps it. -/
theorem step_keeps {P : State → Prop} (taken : ∀ s rest, P s → P (s.taken rest))
    (refused : ∀ s reason, P s → P (refusedWith s reason)) (move : ∀ i s t, Move s i t → P s → P t) {s t : State}
    (h : step s = .next t) (hs : P s) : P t := by
  obtain ⟨rest, ⟨i, -, hmove⟩ | ⟨-, reason, rfl⟩⟩ := step_moves h
  · exact move i _ _ hmove (taken s rest hs)
  · exact refused _ reason (taken s rest hs)

end Sys2Proof.Machine
end

section
/-! PROOFS. The shape of the state, kept by every step (00_scope.md section 3; 10_state.md section 4). -/

namespace Sys2Proof.Machine

open Sys2Proof.Safety

/-! ### Images -/

/-- A ring of images has images in it after a REFILL. -/
theorem Refilled.below {s : State} {ring : List Image} (h : Refilled s ring)
    (hp : s.params.wf = true)
    (hb : ∀ v ∈ s.ring, v < 2 ^ s.params.imgW) : ∀ v ∈ ring, v < 2 ^ s.params.imgW := by
  intro v hv
  rcases h.images v hv with hold | rfl | ⟨b, rfl⟩
  · exact hb v hold
  · exact Params.poison_lt hp
  · exact Params.translate_lt hp b

/-- A ring of images has images in it after one slot is written. -/
theorem set_below {ring : List Image} {bound img : Nat} (hb : ∀ v ∈ ring, v < bound) (hi : img < bound) (k : Nat) :
    ∀ v ∈ ring.set k img, v < bound := by
  intro v hv
  rcases List.mem_or_eq_of_mem_set hv with hold | rfl
  · exact hb v hold
  · exact hi

/-- RingRead gives an image, also at an index beyond the ring. -/
theorem ringRead_below {s : State} (hb : ∀ v ∈ s.ring, v < 2 ^ s.params.imgW) (k : Nat) :
    s.ringRead k < 2 ^ s.params.imgW := by
  by_cases hk : k < s.ring.length
  · rw [State.ringRead, List.getD_eq_getElem _ _ hk]
    exact hb _ (List.getElem_mem hk)
  · rw [State.ringRead, List.getD_eq_default _ _ (Nat.not_lt.1 hk)]
    exact Nat.two_pow_pos _

/-- DMA_A_XFER delivers an image (rule R190). -/
theorem nextImage_below {s : State} (h : ShapeInv s) : s.nextImage < 2 ^ s.params.imgW := by
  rw [State.nextImage]
  cases hq : s.pfq with
  | nil => exact ringRead_below h.ringImages _
  | cons img queue => exact h.queueImages img (hq ▸ List.mem_cons_self)

end Sys2Proof.Machine

namespace Sys2Proof.Safety

open Sys2Proof.Machine

/-! ### The shape -/

/-- The shape does not look at the written run, the mark of a refusal or the trace. -/
theorem ShapeInv.of_parts {s t : State} (h : ShapeInv s) (hp : t.params = s.params)
    (hrl : t.ring.length = s.params.n) (hri : ∀ v ∈ t.ring, v < 2 ^ s.params.imgW)
    (hqi : ∀ v ∈ t.pfq, v < 2 ^ s.params.imgW) (hql : t.pfq.length ≤ s.params.prefetchDepth)
    (ho : t.out < 2 ^ s.params.imgW) (hm : t.mem = s.mem) (hc : t.cells.wf = true) : ShapeInv t where
  params := hp ▸ h.params
  ringLength := hp ▸ hrl
  ringImages := hp ▸ hri
  queueImages := hp ▸ hqi
  outImage := hp ▸ ho
  queueLength := hp ▸ hql
  memory := hm ▸ h.memory
  cells := hc

/-- A state with the same ring, queue, output, memory and cells has the same shape. -/
theorem ShapeInv.frame {s t : State} (h : ShapeInv s) (hp : t.params = s.params) (hr : t.ring = s.ring)
    (hq : t.pfq = s.pfq) (ho : t.out = s.out) (hm : t.mem = s.mem) (hc : t.cells = s.cells) : ShapeInv t :=
  h.of_parts hp (hr ▸ h.ringLength) (hr ▸ h.ringImages) (hq ▸ h.queueImages) (hq ▸ h.queueLength)
    (ho ▸ h.outImage) hm (hc ▸ h.cells)

/-- So has a state with an empty queue instead, and another ring of as many images. -/
theorem ShapeInv.emptied {s t : State} (h : ShapeInv s) (hp : t.params = s.params)
    (hrl : t.ring.length = s.ring.length) (hri : ∀ v ∈ t.ring, v < 2 ^ s.params.imgW) (hq : t.pfq = [])
    (ho : t.out = s.out) (hm : t.mem = s.mem) (hc : t.cells = s.cells) : ShapeInv t :=
  h.of_parts hp (hrl.trans h.ringLength) hri (hq ▸ nofun) (hq ▸ Nat.zero_le _) (ho ▸ h.outImage) hm (hc ▸ h.cells)

/-- So has a state with one more slot written. -/
theorem ShapeInv.written {s t : State} (h : ShapeInv s) {k img : Nat} (hi : img < 2 ^ s.params.imgW)
    (hp : t.params = s.params) (hr : t.ring = s.ring.set k img) (hq : t.pfq = s.pfq) (ho : t.out = s.out)
    (hm : t.mem = s.mem) (hc : t.cells = s.cells) : ShapeInv t :=
  h.of_parts hp (hr ▸ (List.length_set ..).trans h.ringLength) (hr ▸ set_below h.ringImages hi k)
    (hq ▸ h.queueImages) (hq ▸ h.queueLength) (ho ▸ h.outImage) hm (hc ▸ h.cells)

/-- Every operation keeps the shape. -/
theorem ShapeInv.move {i : Instr} {s t : State} (h : ShapeInv s) (hmove : Move s i t) : ShapeInv t := by
  cases hmove with
  | freshStarted _ refilled | restarted _ _ _ _ refilled | restartedSpliced _ _ _ _ refilled =>
    exact h.emptied rfl refilled.sameLength (refilled.below h.params h.ringImages) rfl rfl rfl rfl
  | hostStopped | overran | sessionEnded | restartHalted => exact h.emptied rfl rfl h.ringImages rfl rfl rfl rfl
  | stallStopped _ _ cref =>
    exact h.of_parts rfl h.ringLength h.ringImages nofun (Nat.zero_le _) h.outImage rfl
      (Cells.set_wf _ _ cref.isLt h.cells)
  | @cancelSet cref =>
    exact h.of_parts rfl h.ringLength h.ringImages h.queueImages h.queueLength h.outImage rfl
      (Cells.set_wf _ _ cref.isLt h.cells)
  | prefetched _ space =>
    refine h.of_parts rfl h.ringLength h.ringImages (fun v hv => ?_) ?_ h.outImage rfl h.cells
    · rcases List.mem_append.1 hv with hold | hnew
      · exact h.queueImages v hold
      · exact List.mem_singleton.1 hnew ▸ ringRead_below h.ringImages _
    · rw [List.length_append]
      exact space
  | delivered =>
    exact h.of_parts rfl h.ringLength h.ringImages (fun v hv => h.queueImages v (List.mem_of_mem_tail hv))
      (List.length_tail.trans_le (Nat.sub_le _ _) |>.trans h.queueLength) (nextImage_below h) rfl h.cells
  | refillStepped => exact h.written (Params.translate_lt h.params _) rfl rfl rfl rfl rfl rfl
  | poisoned =>
    by_cases hfull : s.dmaIdx = s.dmaFillto
    · exact h.frame rfl (if_pos hfull) rfl rfl rfl rfl
    · exact h.written (Params.poison_lt h.params) rfl (if_neg hfull) rfl rfl rfl rfl
  | _ => exact h.frame rfl rfl rfl rfl rfl rfl

end Sys2Proof.Safety

namespace Sys2Proof

open Sys2Proof.Machine Sys2Proof.Safety

/-- Settles O50: an operation writes images into the ring, the queue and the output, keeps their lengths, and keeps the
cells' canonical form. -/
theorem shapeKeptByEveryStep : Obligations.ShapeKeptByEveryStep := fun _ _ h hstep =>
  step_keeps (fun _ _ h => h.frame rfl rfl rfl rfl rfl rfl) (fun _ _ h => h.frame rfl rfl rfl rfl rfl rfl)
    (fun _ _ _ hmove h => h.move hmove) hstep h

end Sys2Proof
end

section
/-! PROOFS. The session's bounds, kept by every step, and the addresses REFILL reads (10_state.md section 8; 20_memory.md
section 1). -/

namespace Sys2Proof.Safety

open Sys2Proof.Machine

/-! ### The bounds -/

/-- A counter of no more than a 32-bit length, as a cursor. -/
theorem ofNat_le {k : Nat} {w : Word} (h : k ≤ w.toNat) : (BitVec.ofNat 32 k).toNat ≤ w.toNat := by
  rw [BitVec.toNat_ofNat]
  exact (Nat.mod_le _ _).trans h

/-- A sum of lengths that fits in 32 bits. -/
theorem toNat_add_of_fits {a b : Word} (h : a.toNat + b.toNat < 2 ^ 32) : (a + b).toNat = a.toNat + b.toNat := by
  rw [BitVec.toNat_add, Nat.mod_eq_of_lt h]

/-- A REFILL that has a byte left to translate has not reached the buffer's end (rule R211). -/
theorem bytesDma_lt_of_left {s : State} (h : refillCount s ≠ 0) : s.bytesDma.toNat < s.bytesApp.toNat := by
  have hle : refillCount s ≤ s.bytesApp.toNat - s.bytesDma.toNat := Nat.min_le_left _ _
  omega

/-- The buffer of a fresh start lies inside AM: START_WRITE tests it, and a blocked one has been tested. -/
theorem SessionInv.freshFits {s : State} {i : Instr} {ptr len : Word} (h : SessionInv s)
    (start : StartsFresh s i ptr len) : ptr.toNat + len.toNat ≤ 2 ^ 32 := by
  rcases start.allowed with ⟨-, -, -, hfits⟩ | ⟨cref, t0, -, hpc⟩
  · exact hfits
  · exact h.waitingFits _ _ _ _ hpc

/-- Every operation keeps the session's bounds. -/
theorem SessionInv.move {i : Instr} {s t : State} (h : SessionInv s) (hmove : Move s i t) : SessionInv t := by
  obtain ⟨translated, scheduled, queueEmpty, activeFits, queuedFits, waitingFits⟩ := h
  cases hmove with
  | freshStarted start _ bytes =>
    exact ⟨ofNat_le bytes, le_rfl, fun _ => rfl,
      SessionInv.freshFits ⟨translated, scheduled, queueEmpty, activeFits, queuedFits, waitingFits⟩ start,
      Nat.zero_le _, nofun⟩
  | mergedQueued join queued room continued =>
    refine ⟨translated, scheduled, fun hv => absurd (queued.symm.trans hv) nofun, activeFits, ?_, waitingFits⟩
    have hsum := toNat_add_of_fits room
    have hfits := join.fits
    dsimp only
    omega
  | blocked join =>
    refine ⟨translated, scheduled, queueEmpty, activeFits, queuedFits, fun _ _ _ _ hpc => ?_⟩
    cases hpc
    exact join.fits
  | mergedActive join free room continued =>
    have hsum := toNat_add_of_fits room
    have hfits := join.fits
    refine ⟨?_, ?_, queueEmpty, ?_, queuedFits, waitingFits⟩
    · dsimp only; omega
    · dsimp only; omega
    · dsimp only; omega
  | enqueued join => exact ⟨translated, scheduled, nofun, activeFits, join.fits, waitingFits⟩
  | hostStopped | stallStopped => exact ⟨translated, scheduled, fun _ => rfl, activeFits, Nat.zero_le _, nofun⟩
  | waits | waitCompleted => exact ⟨translated, scheduled, queueEmpty, activeFits, queuedFits, nofun⟩
  | overran | sessionEnded => exact ⟨translated, scheduled, fun _ => rfl, activeFits, Nat.zero_le _, waitingFits⟩
  | refillStepped _ _ _ left =>
    have hlt := bytesDma_lt_of_left left
    refine ⟨?_, scheduled, queueEmpty, activeFits, queuedFits, waitingFits⟩
    dsimp only
    bv_omega
  | spliced => exact ⟨Nat.zero_le _, Nat.zero_le _, fun _ => rfl, queuedFits, Nat.zero_le _, waitingFits⟩
  | restartHalted => exact ⟨scheduled, scheduled, queueEmpty, activeFits, queuedFits, waitingFits⟩
  | restarted _ _ _ _ _ _ bytes =>
    refine ⟨?_, scheduled, queueEmpty, activeFits, queuedFits, waitingFits⟩
    have hlt := s.bytesApp.isLt
    exact (toNat_add_ofNat (by omega)).trans_le bytes
  | restartedSpliced _ _ _ _ _ _ _ _ bytes =>
    exact ⟨ofNat_le bytes, Nat.zero_le _, fun _ => rfl, queuedFits, Nat.zero_le _, waitingFits⟩
  | extended => exact ⟨translated, le_rfl, queueEmpty, activeFits, queuedFits, waitingFits⟩
  | _ => exact ⟨translated, scheduled, queueEmpty, activeFits, queuedFits, waitingFits⟩

/-! ### No byte is read outside AM -/

/-- REFILL faults only in a buffer that leaves AM (rule R80). -/
theorem refill_ne_fault {s : State} (h : s.appBuf.toNat + s.bytesApp.toNat ≤ 2 ^ 32) (f : Fault) :
    refill s ≠ .fault f := by
  intro hf
  rcases refill_cases s with ⟨site, -, he⟩ | ⟨-, ring, -, he⟩ | ⟨-, hout, -⟩
  · cases he.symm.trans hf
  · cases he.symm.trans hf
  · exact absurd h (Nat.not_le.2 hout)

/-- CHECK_NEXT_BUFFER faults only where the queued buffer leaves AM. -/
theorem checkNextBuffer_ne_fault {s : State} (h : s.nextAppBuf.toNat + s.nextAppBytes.toNat ≤ 2 ^ 32) (f : Fault) :
    checkNextBuffer s ≠ .fault f := by
  intro hf
  rcases checkNextBuffer_cases s with ⟨-, he⟩ | ⟨-, he⟩ | ⟨-, he⟩
  · cases he.symm.trans hf
  · cases he.symm.trans hf
  · exact refill_ne_fault (s := splice s) h f (he.symm.trans hf)

/-- The fresh start of a buffer inside AM does not fault. -/
theorem startFresh_ne_fault {s : State} {ptr len : Word} (h : ptr.toNat + len.toNat ≤ 2 ^ 32) (f : Fault) :
    startFresh ptr len s ≠ .fault f := by
  intro hf
  rcases Flow.andThen_eq_fault hf with hf | ⟨u, -, hf⟩
  · exact refill_ne_fault (s := freshHead ptr len s) h f hf
  · cases hf

/-- DMA_A_RESTART does not fault: neither its REFILL nor its splice's does. -/
theorem dmaARestart_ne_fault {s : State} (h : SessionInv s) (f : Fault) : dmaARestart s ≠ .fault f := by
  intro hf
  rcases Flow.andThen_eq_fault hf with hf | ⟨v, -, hf⟩
  · rcases Flow.andThen_eq_fault hf with hf | ⟨u, hu, hf⟩
    · exact refill_ne_fault (s := restartHead s) h.activeFits f hf
    · obtain ⟨-, ring, -, rfl⟩ := refill_go hu
      exact checkNextBuffer_ne_fault (s := (restartHead s).filled _ ring) h.queuedFits f hf
  · cases hf

/-- A flow that does not fault gives a step that does not. -/
theorem outcome_ne_fault {x : Flow} {f : Fault} (h : x ≠ .fault f) : x.outcome ≠ .fault f := by
  cases x with
  | go s => exact nofun
  | stop s => exact nofun
  | fault g => exact fun hf => h (congrArg Flow.fault (Host.Outcome.fault.inj hf))

/-- A body behind an enabling condition reads no address that the body by itself does not. -/
theorem guarded_inside {c : Bool} {who : Agent} {x : Host.Outcome State Fault Refusal}
    (h : x ≠ .fault .addressOutsideMemory) :
    (if c then x else notEnabled who) ≠ .fault .addressOutsideMemory := by
  cases c with
  | true => exact h
  | false => exact nofun

/-- Nor does a body behind the command port. -/
theorem hostCommand_inside {s : State} {x : Host.Outcome State Fault Refusal} (h : x ≠ .fault .addressOutsideMemory) :
    hostCommand s x ≠ .fault .addressOutsideMemory := by
  rcases hostCommand_cases s x with ⟨-, he⟩ | ⟨-, -, he⟩ | ⟨-, he⟩
  · rw [he]; exact h
  · rw [he]; exact nofun
  · rw [he]; exact nofun

theorem configuredCommand_inside {s : State} {x : Host.Outcome State Fault Refusal}
    (h : x ≠ .fault .addressOutsideMemory) : configuredCommand s x ≠ .fault .addressOutsideMemory := by
  refine hostCommand_inside ?_
  cases s.configured with
  | true => exact h
  | false => exact nofun

theorem startWrite_inside (ptr len cref : Word) (s : State) :
    exec (.startWrite ptr len cref) s ≠ .fault .addressOutsideMemory := by
  refine configuredCommand_inside ?_
  split
  · exact nofun
  · split
    · exact nofun
    · next hwraps =>
      rw [bufferWraps_iff, Nat.not_lt] at hwraps
      split
      · exact outcome_ne_fault (startFresh_ne_fault hwraps _)
      · exact nofun

/-- A poll faults only where its completion does. -/
theorem waitPoll_inside {cref t0 : Word} {done : Flow} {s : State} (h : done ≠ .fault .addressOutsideMemory) :
    waitPoll cref t0 done s ≠ .fault .addressOutsideMemory := by
  rw [waitPoll]
  split
  · exact nofun
  · split
    · cases done with
      | go u => exact nofun
      | stop u => exact nofun
      | fault f => exact h
    · split
      · exact nofun
      · exact nofun

theorem execWaitPoll_inside {s : State} (h : SessionInv s) : exec .waitPoll s ≠ .fault .addressOutsideMemory := by
  refine guarded_inside ?_
  split
  · exact nofun
  · exact outcome_ne_fault (waitPoll_inside nofun)
  · next hpc => exact outcome_ne_fault (waitPoll_inside (startFresh_ne_fault (h.waitingFits _ _ _ _ hpc) _))

/-- A byte step of the data handler's REFILL reads inside the active buffer. -/
theorem dataRefillStep_inside {s : State} (h : SessionInv s) (next : DataPc) (f : Fault) :
    dataRefillStep next s ≠ .fault f := by
  rw [dataRefillStep]
  cases refillMisuse s with
  | some site => exact nofun
  | none =>
    dsimp only
    split
    · exact nofun
    · next hleft =>
      have hlt := bytesDma_lt_of_left hleft
      have hfits := h.activeFits
      rcases refillByte_cases s with ⟨-, he⟩ | ⟨hout, -⟩
      · rw [he]; exact nofun
      · omega

theorem dataStep_inside {s : State} (h : SessionInv s) (f : Fault) : dataStep s ≠ .fault f := by
  rw [dataStep]
  cases s.dataPc with
  | refill1 => exact dataRefillStep_inside h _ f
  | refill2 => exact dataRefillStep_inside h _ f
  | cnb =>
    dsimp only
    rw [Machine.dataSpliceStep]
    cases spliceVerdict s with
    | misuse | swap | stay => exact nofun
  | off | poison1 | poison2 | finish => exact nofun

theorem schedStep_inside {s : State} (h : SessionInv s) (f : Fault) : schedStep s ≠ .fault f := by
  rw [schedStep]
  cases s.schedPc with
  | off => exact nofun
  | restart =>
    dsimp only
    rw [Machine.schedRestartStep]
    split
    · exact nofun
    · intro hf
      rcases Flow.andThen_eq_fault hf with hf | ⟨u, -, hf⟩
      · exact dmaARestart_ne_fault (s := irqMask s) ⟨h.translated, h.scheduled, h.queueEmpty, h.activeFits,
          h.queuedFits, h.waitingFits⟩ f hf
      · cases hf
  | extend =>
    dsimp only
    rw [Machine.schedExtendStep]
    split
    · exact nofun
    · split
      · exact nofun
      · rcases ctlExtend_cases (s.bytesApp - s.scheduledDma) s with ⟨-, he⟩ | ⟨-, he⟩
        · rw [he]; exact nofun
        · rw [he]; exact nofun

/-- The bounds do not look at the written run. -/
theorem SessionInv.taken {s : State} (h : SessionInv s) (rest : List Byte) : SessionInv (s.taken rest) :=
  ⟨h.translated, h.scheduled, h.queueEmpty, h.activeFits, h.queuedFits, h.waitingFits⟩

/-- No operation that may stand in a run reads outside AM. -/
theorem SessionInv.exec_inside {i : Instr} {s : State} (h : SessionInv s) (hi : i.wellFormed = true) :
    exec i s ≠ .fault .addressOutsideMemory := by
  cases i with
  | startWrite ptr len cref => exact startWrite_inside ptr len cref s
  | waitPoll => exact execWaitPoll_inside h
  | dataIrq => exact guarded_inside (outcome_ne_fault (dataStep_inside h _))
  | schedIrq => exact guarded_inside (outcome_ne_fault (schedStep_inside h _))
  | init => exact hostCommand_inside (by cases s.configured with | true | false => exact nofun)
  | stopWrite | isWriteFinished ptr => exact configuredCommand_inside nofun
  | finishWrite cref => exact configuredCommand_inside (by split <;> exact nofun)
  | setCancel cref | clockTick ms => exact nofun
  | timerReqAssert | dmaAFetch | dmaAXfer | dmaBXfer => exact guarded_inside nofun
  | ackAssert =>
    show execAckAssert s ≠ _
    rw [execAckAssert]
    split
    · exact nofun
    · dsimp only
      split
      · exact nofun
      · split <;> exact nofun
  | ackRelease =>
    show execAckRelease s ≠ _
    rw [execAckRelease]
    split
    · dsimp only
      split
      · exact nofun
      · split <;> exact nofun
    · exact nofun
  | refill | checkNextBuffer | ctlInit | ctlStart | ctlStop | ctlExtend | dmaARestart | irqMask | irqUnmask
  | timerUpdate => cases hi

/-- A step that faults is an operation that does. -/
theorem step_fault {s : State} {f : Fault} (h : step s = .fault f) :
    ∃ i rest, i.wellFormed = true ∧ exec i (s.taken rest) = .fault f := by
  rw [step] at h
  split at h
  · next i who u hfetch =>
    have htaken : ∃ rest, u = s.taken rest := by
      rw [fetch] at hfetch
      split at hfetch
      · split at hfetch <;> cases hfetch
        exact ⟨_, rfl⟩
      · cases hfetch
    obtain ⟨rest, rfl⟩ := htaken
    split at h
    · next hadmit =>
      refine ⟨i, rest, ?_, h⟩
      unfold admission at hadmit
      split at hadmit
      · cases hadmit
      · next hi => simpa [Instr.wellFormed] using hi
    · cases h
  · cases h
  · cases h
  · cases h

end Sys2Proof.Safety

namespace Sys2Proof

open Sys2Proof.Machine Sys2Proof.Safety

/-- Settles O51: each operation keeps the bounds, and REFILL reads inside the buffer that they bound. -/
theorem sessionBoundsKeptByEveryStep : Obligations.SessionBoundsKeptByEveryStep := by
  refine fun s h => ⟨fun t hstep => ?_, fun hfault => ?_⟩
  · exact step_keeps (P := SessionInv) (fun _ rest h => h.taken rest)
      (fun _ _ h => ⟨h.translated, h.scheduled, h.queueEmpty, h.activeFits, h.queuedFits, h.waitingFits⟩)
      (fun _ _ _ hmove h => h.move hmove) hstep h
  · obtain ⟨i, rest, hi, hexec⟩ := step_fault hfault
    exact (h.taken rest).exec_inside hi hexec

end Sys2Proof
end

section
/-! PROOFS. The invariants of the engine state, kept by every step: the rest of an IDLE engine, and the armed channels and
the clear mask of a WRITING one (10_state.md sections 2, 6 and 8). -/

namespace Sys2Proof.Machine

/-- A REFILL label is not the handler's return, and leads to none of the two others (rules R243, R245). -/
theorem RefillLabel.inside {pc next : DataPc} (h : RefillLabel pc next) :
    pc ≠ .off ∧ pc ≠ .finish ∧ next ≠ .off ∧ next ≠ .finish := by
  cases h <;> exact ⟨nofun, nofun, nofun, nofun⟩

/-- Nor is a poison label, and it does not return (rules R243, R245). -/
theorem PoisonLabel.inside {pc next : DataPc} (h : PoisonLabel pc next) :
    pc ≠ .off ∧ pc ≠ .finish ∧ next ≠ .off := by
  cases h <;> exact ⟨nofun, nofun, nofun⟩

end Sys2Proof.Machine

namespace Sys2Proof.Safety

open Sys2Proof.Machine

/-! ### The IDLE engine -/

/-- CTL_STOP leaves the block at rest where the data handler is inactive (rules R68, R219). -/
theorem idleRest_stopped {s : State} (h : s.dataPc = .off) : IdleRest (stopped s) where
  timer := ⟨rfl, rfl⟩
  channelA := ⟨rfl, rfl, rfl, rfl⟩
  positionA := ⟨rfl, rfl, rfl⟩
  channelB := ⟨rfl, rfl, rfl, rfl⟩
  lines := ⟨rfl, rfl, rfl⟩
  queue := ⟨rfl, rfl, rfl⟩
  filled := rfl
  dataOff := h

/-- Two states with the same timer, channels, lines, queue, flag and label are both at rest or neither is. -/
theorem IdleRest.frame {s t : State} (r : IdleRest s)
    (timer : (t.timEn, t.timPhase) = (s.timEn, s.timPhase))
    (channelA : (t.aEn, t.aReq, t.htA, t.tcA) = (s.aEn, s.aReq, s.htA, s.tcA))
    (positionA : (t.aFetch, t.aXfer, t.pfq) = (s.aFetch, s.aXfer, s.pfq))
    (channelB : (t.bEn, t.bReq, t.tcB, t.bCnt) = (s.bEn, s.bReq, s.tcB, s.bCnt))
    (lines : (t.gpioMode, t.req, t.dataDriven) = (s.gpioMode, s.req, s.dataDriven))
    (queue : (t.nextValid, t.nextAppBuf, t.nextAppBytes) = (s.nextValid, s.nextAppBuf, s.nextAppBytes))
    (filled : t.incompleteBuf = s.incompleteBuf) (label : t.dataPc = s.dataPc) : IdleRest t := by
  obtain ⟨h1, h2, h3, h4, h5, h6, h7, h8⟩ := r
  simp only [Prod.mk.injEq] at timer channelA positionA channelB lines queue
  constructor <;> simp only [*, and_self]

/-- Every operation keeps the rest of an IDLE engine: the units are disabled and no event is pending, so that only the
HOST, the PEER's lines and a schedule handler's return can move. -/
theorem IdleInv.move {i : Instr} {s t : State} (h : IdleInv s) (hmove : Move s i t) : IdleInv t := by
  intro he
  cases hmove with
  | freshStarted => cases he
  | hostStopped main => exact (idleRest_stopped main.dataOff).frame rfl rfl rfl rfl rfl rfl rfl rfl
  | stallStopped main => exact (idleRest_stopped main.dataOff).frame rfl rfl rfl rfl rfl rfl rfl rfl
  | overran _ entry => exact (idleRest_stopped entry).frame rfl rfl rfl rfl rfl rfl rfl rfl
  | sessionEnded _ quiet => exact idleRest_stopped quiet
  | mergedQueued join | blocked join | mergedActive join | enqueued join | overflowRefused join =>
    exact absurd (join.writing.symm.trans he) nofun
  | waits _ writing | restartHalted _ _ _ writing | restarted _ _ _ writing | restartedSpliced _ _ _ writing
  | extendZero _ _ _ writing | extendBusy _ _ _ writing | extended _ _ _ writing =>
    exact absurd (writing.symm.trans he) nofun
  | initialised =>
    have r := h he
    exact ⟨⟨rfl, rfl⟩, ⟨rfl, r.channelA.2⟩, r.positionA, ⟨rfl, r.channelB.2⟩, ⟨rfl, rfl, rfl⟩, r.queue, r.filled,
      r.dataOff⟩
  | assertHeard _ _ timer | releaseHeard _ _ timer | requested timer =>
    exact absurd ((h he).timer.1.symm.trans timer) nofun
  | prefetched channel => exact absurd ((h he).channelA.1.symm.trans channel) nofun
  | delivered latched => exact absurd ((h he).channelA.2.1.symm.trans latched) nofun
  | timerReset latched => exact absurd ((h he).channelB.2.1.symm.trans latched) nofun
  | advanced _ _ event =>
    have hquiet := (h he).channelA.2.2
    exact absurd (hquiet.1.trans hquiet.2.symm) event
  | refillHalted _ label | refillDone _ label | refillStepped _ label => exact absurd (h he).dataOff label.inside.1
  | poisoned _ label => exact absurd (h he).dataOff label.inside.1
  | spliceHalted _ label | spliced _ label | notSpliced _ label | dataReturned _ label =>
    exact absurd (label.symm.trans (h he).dataOff) nofun
  | newDataTaken _ _ _ event => exact absurd ((h he).channelB.2.2.1.symm.trans event) nofun
  | _ => exact (h he).frame rfl rfl rfl rfl rfl rfl rfl rfl

/-! ### The WRITING engine -/

/-- The caller of a fresh start has been configured. -/
theorem ControlInv.freshConfigured {s : State} {i : Instr} {ptr len : Word} (h : ControlInv s)
    (start : StartsFresh s i ptr len) : s.configured = true := by
  rcases start.allowed with ⟨-, -, hc, -⟩ | ⟨cref, t0, -, hpc⟩
  · exact hc
  · exact h.waitConfigured (by rw [hpc]; exact nofun)

/-- Two states with the same units and lines are both armed or neither is; the timer's phase may be another than OFF. -/
theorem Armed.frame {s t : State} (a : Armed s)
    (units : (t.configured, t.aEn, t.bEn, t.timEn) = (s.configured, s.aEn, s.bEn, s.timEn))
    (lines : (t.gpioMode, t.dataDriven) = (s.gpioMode, s.dataDriven)) (phase : t.timPhase = .off → s.timPhase = .off) :
    Armed t := by
  obtain ⟨configured, channels, timer, driven⟩ := a
  simp only [Prod.mk.injEq] at units lines
  obtain ⟨hc, ha, hb, ht⟩ := units
  exact ⟨hc.trans configured, ⟨ha.trans channels.1, hb.trans channels.2⟩, ⟨ht.trans timer.1, mt phase timer.2⟩,
    ⟨lines.1.trans driven.1, lines.2.trans driven.2⟩⟩

/-- TIMER_UPDATE never leaves the phase OFF where it was not. -/
theorem timerUpdate_off {c : Bool} {phase : TimPhase} (h : (if c then TimPhase.primed else phase) = .off) :
    phase = .off := by
  cases c with
  | true => cases h
  | false => exact h

/-- Every operation keeps a WRITING engine armed, the mask clear and the enables as INIT leaves them. -/
theorem ControlInv.move {i : Instr} {s t : State} (h : ControlInv s) (hmove : Move s i t) : ControlInv t := by
  obtain ⟨armed, unmasked, sources, engineConfigured, waitConfigured⟩ := id h
  cases hmove with
  | initialised _ fresh =>
    exact ⟨fun hw => absurd (fresh.symm.trans (engineConfigured hw)) nofun, unmasked, ⟨rfl, rfl, rfl, rfl, rfl⟩,
      fun _ => rfl, fun _ => rfl⟩
  | freshStarted start =>
    have hc := h.freshConfigured start
    exact ⟨fun _ _ => ⟨hc, ⟨rfl, rfl⟩, ⟨rfl, nofun⟩, rfl, rfl⟩, unmasked, sources, fun _ => hc, fun hm => absurd rfl hm⟩
  | mergedQueued | mergedActive | enqueued | overflowRefused | answered =>
    exact ⟨fun hw hr => (armed hw hr).frame rfl rfl id, fun _ => rfl, sources, engineConfigured, waitConfigured⟩
  | blocked join =>
    exact ⟨fun hw hr => (armed hw hr).frame rfl rfl id, fun _ => rfl, sources, engineConfigured,
      fun _ => join.configured⟩
  | waits _ writing =>
    exact ⟨fun hw hr => (armed hw hr).frame rfl rfl id, unmasked, sources, engineConfigured,
      fun _ => engineConfigured writing⟩
  | waitCompleted =>
    exact ⟨fun hw hr => (armed hw hr).frame rfl rfl id, unmasked, sources, engineConfigured, fun hm => absurd rfl hm⟩
  | hostStopped | stallStopped => exact ⟨nofun, fun _ => rfl, sources, nofun, fun hm => absurd rfl hm⟩
  | overran | sessionEnded => exact ⟨nofun, unmasked, sources, nofun, waitConfigured⟩
  | assertHeard | releaseHeard | requested =>
    exact ⟨fun hw hr => (armed hw hr).frame rfl rfl nofun, unmasked, sources, engineConfigured, waitConfigured⟩
  | timerReset =>
    exact ⟨fun hw hr => (armed hw hr).frame rfl rfl timerUpdate_off, unmasked, sources, engineConfigured,
      waitConfigured⟩
  | refillHalted | spliceHalted | restartHalted | extendZero | extendBusy =>
    exact ⟨nofun, nofun, sources, engineConfigured, waitConfigured⟩
  | restarted | restartedSpliced =>
    exact ⟨fun hw hr => ⟨(armed hw hr).configured, ⟨rfl, (armed hw hr).channels.2⟩, (armed hw hr).timer,
      (armed hw hr).lines⟩, fun _ => rfl, sources, engineConfigured, waitConfigured⟩
  | extended =>
    exact ⟨fun hw hr => ⟨(armed hw hr).configured, ⟨(armed hw hr).channels.1, rfl⟩, (armed hw hr).timer,
      (armed hw hr).lines⟩, unmasked, sources, engineConfigured, waitConfigured⟩
  | _ => exact ⟨fun hw hr => (armed hw hr).frame rfl rfl id, unmasked, sources, engineConfigured, waitConfigured⟩

/-- The control invariant does not look at the written run. -/
theorem ControlInv.taken {s : State} (h : ControlInv s) (rest : List Byte) : ControlInv (s.taken rest) :=
  ⟨fun hw hr => (h.armed hw hr).frame rfl rfl id, h.unmasked, h.sources, h.engineConfigured, h.waitConfigured⟩

/-- Nor at the mark of a refusal. -/
theorem ControlInv.refused {s : State} (h : ControlInv s) (reason : RefuseReason) :
    ControlInv (refusedWith s reason) :=
  ⟨fun hw hr => (h.armed hw hr).frame rfl rfl id, h.unmasked, h.sources, h.engineConfigured, h.waitConfigured⟩

/-- Every step keeps the control invariant. -/
theorem ControlInv.step {s t : State} (h : ControlInv s) (hstep : step s = .next t) : ControlInv t :=
  step_keeps (P := ControlInv) (fun _ rest h => h.taken rest) (fun _ reason h => h.refused reason)
    (fun _ _ _ hmove h => h.move hmove) hstep h

end Sys2Proof.Safety

namespace Sys2Proof

open Sys2Proof.Machine Sys2Proof.Safety

/-- Settles O52: what an IDLE engine's disabled units and absent events leave enabled. -/
theorem idleRestKeptByEveryStep : Obligations.IdleRestKeptByEveryStep := fun _ _ h hstep =>
  step_keeps (P := IdleInv) (fun _ _ h he => (h he).frame rfl rfl rfl rfl rfl rfl rfl rfl)
    (fun _ _ h he => (h he).frame rfl rfl rfl rfl rfl rfl rfl rfl) (fun _ _ _ hmove h => h.move hmove) hstep h

/-- Settles O53: only INIT writes the enables, only a fresh start begins a session and it arms it, and every masked
section ends with its IRQ_UNMASK or in a halted block. -/
theorem armedAndUnmaskedKeptByEveryStep : Obligations.ArmedAndUnmaskedKeptByEveryStep := fun _ _ h hstep => h.step hstep

end Sys2Proof
end

section
/-! PROOFS. The fill gap, the fetch cursor and DMA-B's count at its event, kept by every step, and with them that only the
zero extension halts the block (10_state.md section 8; 60_exceptions.md section 1). -/

namespace Sys2Proof.Safety

open Sys2Proof.Machine

/-! ### The fill gap -/

/-- A filled ring has no room. -/
theorem room_of_filled {s : State} (h : s.dmaIdx = s.dmaFillto) : s.room = 0 := by
  rw [State.room, h, BitVec.sub_self]
  rfl

/-- A byte step takes one from the room (rule R212). -/
theorem room_after_byte {s : State} (h : s.room ≠ 0) : (s.dmaFillto - (s.dmaIdx + 1)).toNat + 1 = s.room := by
  simp only [State.room] at *
  bv_omega

/-- There is room where a byte is left to translate (rule R211). -/
theorem room_of_left {s : State} (h : refillCount s ≠ 0) : s.room ≠ 0 := by
  have hle : refillCount s ≤ s.room := Nat.min_le_right _ _
  omega

/-- A state whose starvation flag has just been computed and whose data handler does not refill meets the fill
invariant. -/
theorem FillInv.of_flagged {s : State} (hpc : s.dataPc = .off)
    (hflag : s.incompleteBuf = false → s.dmaIdx = s.dmaFillto) : FillInv s where
  gap := fun _ _ hi => (room_of_filled (hflag hi)).trans_le (Nat.zero_le _)
  filled := fun _ _ hi _ => hflag hi
  refilling := fun _ _ hoff => absurd hpc hoff

/-- The flag of D_END, of a restart and of a fresh start, where it stays clear (rules R144, R222, R246). -/
theorem eq_of_bne_false {a b : Word} (h : (a != b) = false) : a = b := by
  simpa using h

/-- The entry step refills only where no starvation is flagged (rule R242). -/
theorem dataAdvance_dataPc (s : State) :
    (s.incompleteBuf = false ∧ (dataAdvance s).dataPc = .refill1) ∨
      (s.incompleteBuf = true ∧ (dataAdvance s).dataPc = .finish) := by
  cases hi : s.incompleteBuf with
  | false => exact .inl ⟨rfl, if_neg (by rw [hi]; exact nofun)⟩
  | true => exact .inr ⟨rfl, if_pos hi⟩

/-- The entry step of a filled ring leaves half a ring of room (rule R242). -/
theorem dataAdvance_room {s : State} (h : s.dmaIdx = s.dmaFillto) : (dataAdvance s).room ≤ s.params.half := by
  have hroom : (dataAdvance s).room = s.params.halfWord.toNat := by
    show (s.dmaFillto + s.params.halfWord - s.dmaIdx).toNat = _
    rw [h]
    bv_omega
  rw [hroom, Params.halfWord, BitVec.toNat_ofNat]
  exact Nat.mod_le _ _

/-- Every operation keeps the fill invariant. -/
theorem FillInv.move {i : Instr} {s t : State} (h : FillInv s) (hmove : Move s i t) : FillInv t := by
  obtain ⟨gap, filled, refilling⟩ := h
  cases hmove with
  | freshStarted start => exact .of_flagged start.dataOff eq_of_bne_false
  | restarted _ quiet | restartedSpliced _ quiet => exact .of_flagged quiet eq_of_bne_false
  | dataReturned => exact .of_flagged rfl fun hi => eq_of_bne_false (Bool.or_eq_false_iff.1 hi).2
  | hostStopped | stallStopped | overran | sessionEnded => exact ⟨nofun, nofun, nofun⟩
  | refillHalted | spliceHalted | restartHalted | extendZero | extendBusy => exact ⟨nofun, nofun, nofun⟩
  | advanced _ entry =>
    refine ⟨fun hw hr hi => dataAdvance_room (filled hw hr hi entry), fun _ _ _ hpc => ?_, fun _ _ _ hend => ?_⟩
    · rcases dataAdvance_dataPc s with ⟨-, hpc'⟩ | ⟨-, hpc'⟩
      · cases hpc.symm.trans hpc'
      · cases hpc.symm.trans hpc'
    · rcases dataAdvance_dataPc s with ⟨hi, -⟩ | ⟨-, hpc⟩
      · exact hi
      · exact absurd hpc hend
  | refillStepped _ label _ left =>
    refine ⟨fun hw hr hi => ?_, fun _ _ _ hpc => absurd hpc label.inside.1, refilling⟩
    have hroom := room_after_byte (room_of_left left)
    have hgap := gap hw hr hi
    show (s.dmaFillto - (s.dmaIdx + 1)).toNat ≤ s.params.half
    omega
  | refillDone _ label =>
    obtain ⟨hoff, hend, hnext, -⟩ := label.inside
    exact ⟨gap, fun _ _ _ hpc => absurd hpc hnext, fun hw hr _ _ => refilling hw hr hoff hend⟩
  | poisoned _ label =>
    obtain ⟨hoff, hend, hnext⟩ := label.inside
    exact ⟨gap, fun _ _ _ hpc => absurd hpc hnext, fun hw hr _ _ => refilling hw hr hoff hend⟩
  | spliced _ label | notSpliced _ label =>
    exact ⟨gap, nofun, fun hw hr _ _ => refilling hw hr (by rw [label]; exact nofun) (by rw [label]; exact nofun)⟩
  | _ => exact ⟨gap, filled, refilling⟩

/-! ### The fetch cursor -/

/-- Every operation keeps the fetch cursor the queue's length ahead of the delivered images. -/
theorem FetchInv.move {i : Instr} {s t : State} (h : FetchInv s) (hmove : Move s i t) : FetchInv t := by
  cases hmove with
  | freshStarted | restarted | restartedSpliced | hostStopped | stallStopped | overran | sessionEnded =>
    exact fun _ => rfl
  | refillHalted | spliceHalted | restartHalted | extendZero | extendBusy => exact nofun
  | prefetched _ _ running =>
    intro _
    show s.aFetch + 1 = s.aXfer + BitVec.ofNat 32 (s.pfq ++ [_]).length
    rw [h running, List.length_append, BitVec.ofNat_add, List.length_singleton, ← BitVec.add_assoc]
    rfl
  | delivered _ _ running =>
    intro _
    show (if s.pfq = [] then s.aFetch + 1 else s.aFetch) = s.aXfer + 1 + BitVec.ofNat 32 s.pfq.tail.length
    rw [h running]
    cases s.pfq with
    | nil => simp
    | cons img queue =>
      rw [if_neg (List.cons_ne_nil _ _), List.tail_cons, List.length_cons, BitVec.ofNat_add]
      bv_omega
  | _ => exact h

/-! ### DMA-B's count -/

/-- Every operation keeps DMA-B's count at 0 from its event to the extension. -/
theorem CountInv.move {i : Instr} {s t : State} (h : CountInv s) (hmove : Move s i t) : CountInv t := by
  obtain ⟨atEvent, inHandler⟩ := h
  cases hmove with
  | freshStarted start => exact ⟨nofun, fun hs => absurd start.schedOff hs⟩
  | hostStopped | stallStopped | overran | sessionEnded => exact ⟨nofun, fun _ => ⟨rfl, rfl⟩⟩
  | timerReset _ _ left =>
    refine ⟨fun hevent => ?_, fun hs => absurd (inHandler hs).1 left⟩
    rcases Bool.or_eq_true_iff.1 hevent with hold | hnew
    · exact absurd (atEvent hold) left
    · exact beq_iff_eq.1 hnew
  | newDataTaken _ _ _ event => exact ⟨nofun, fun _ => ⟨atEvent event, rfl⟩⟩
  | schedReturned => exact ⟨atEvent, fun hs => absurd rfl hs⟩
  | restarted _ _ label | restartedSpliced _ _ label =>
    exact ⟨atEvent, fun _ => inHandler (by rw [label]; exact nofun)⟩
  | extended => exact ⟨nofun, fun hs => absurd rfl hs⟩
  | _ => exact ⟨atEvent, inHandler⟩

end Sys2Proof.Safety

namespace Sys2Proof.Machine

open Sys2Proof.Safety

/-! ### Misuse -/

/-- The operations that halt a running block, each at its site. -/
theorem Move.halts {i : Instr} {s t : State} (hmove : Move s i t) (hr : s.halted = false) (ht : t.halted = true) :
    (∃ next site, RefillLabel s.dataPc next ∧ refillMisuse s = some site) ∨
    (s.dataPc = .cnb ∧ spliceVerdict s = .misuse) ∨
    s.bytesApp.toNat < s.scheduledDma.toNat ∨
    (s.schedPc = .extend ∧ s.bCnt ≠ 0) ∨
    (s.schedPc = .extend ∧ s.bytesApp = s.scheduledDma ∧ t = haltedAt s .extendZero) := by
  cases hmove with
  | refillHalted _ label fails => exact .inl ⟨_, _, label, fails⟩
  | spliceHalted _ label verdict => exact .inr (.inl ⟨label, verdict⟩)
  | restartHalted _ _ _ _ ahead => exact .inr (.inr (.inl ahead))
  | extendBusy _ _ label _ busy => exact .inr (.inr (.inr (.inl ⟨label, busy⟩)))
  | extendZero _ _ label _ zero => exact .inr (.inr (.inr (.inr ⟨label, zero, rfl⟩)))
  | _ => exact absurd (hr.symm.trans ht) nofun

/-- Under the fill and session invariants the accounting checks of the data handler's REFILL pass. -/
theorem dataRefill_checks {s : State} (hp : s.params.wf = true) (session : SessionInv s) (idle : IdleInv s)
    (fill : FillInv s) (hr : s.halted = false) (hoff : s.dataPc ≠ .off) (hend : s.dataPc ≠ .finish) :
    refillMisuse s = none := by
  have hw : s.engine = .writing := engine_writing_of_ne_idle fun he => hoff (idle he).dataOff
  have hgap := fill.gap hw hr (fill.refilling hw hr hoff hend)
  have hhalf := Params.n_eq_two_half hp
  exact (refillMisuse_none_iff s).2 ⟨session.translated, by omega⟩

/-- Under the invariants only the zero extension halts a running block (rules R255, R272). -/
theorem Move.halts_only_at_zero {i : Instr} {s t : State} (hmove : Move s i t) (hp : s.params.wf = true)
    (session : SessionInv s) (idle : IdleInv s) (fill : FillInv s) (count : CountInv s) (hr : s.halted = false)
    (ht : t.halted = true) :
    s.schedPc = .extend ∧ s.bytesApp = s.scheduledDma ∧ t = haltedAt s .extendZero := by
  rcases hmove.halts hr ht with ⟨next, site, label, hsite⟩ | ⟨-, hv⟩ | hahead | ⟨hpc, hbusy⟩ | hzero
  · obtain ⟨hoff, hend, -⟩ := label.inside
    cases hsite.symm.trans (dataRefill_checks hp session idle fill hr hoff hend)
  · rcases spliceVerdict_cases s with ⟨hb, -, hlt, -⟩ | ⟨-, -, -, hv'⟩ | ⟨-, hv'⟩
    · exact absurd (hb ▸ session.scheduled) (Nat.not_le.2 hlt)
    · cases hv.symm.trans hv'
    · cases hv.symm.trans hv'
  · exact absurd session.scheduled (Nat.not_le.2 hahead)
  · exact absurd (count.inHandler (by rw [hpc]; exact nofun)).1 hbusy
  · exact hzero

end Sys2Proof.Machine

namespace Sys2Proof

open Sys2Proof.Machine Sys2Proof.Safety

/-- Settles O54: the starvation flag is computed wherever the cursors move without the data handler, the queue and the
fetch cursor move together, and only the extension restarts an exhausted count. -/
theorem fillFetchCountKeptByEveryStep : Obligations.FillFetchCountKeptByEveryStep := fun _ _ hstep =>
  ⟨step_keeps (P := FillInv) (fun _ _ h => ⟨h.gap, h.filled, h.refilling⟩)
      (fun _ _ h => ⟨h.gap, h.filled, h.refilling⟩) (fun _ _ _ hmove h => h.move hmove) hstep,
    step_keeps (P := FetchInv) (fun _ _ h => h) (fun _ _ h => h) (fun _ _ _ hmove h => h.move hmove) hstep,
    step_keeps (P := CountInv) (fun _ _ h => ⟨h.atEvent, h.inHandler⟩) (fun _ _ h => ⟨h.atEvent, h.inHandler⟩)
      (fun _ _ _ hmove h => h.move hmove) hstep⟩

/-- Settles O55: each of the four other sites contradicts an invariant. -/
theorem misuseOnlyAtZeroExtension : Obligations.MisuseOnlyAtZeroExtension := by
  intro s t hp session idle fill count hstep hr ht
  obtain ⟨rest, ⟨i, -, hmove⟩ | ⟨-, reason, rfl⟩⟩ := step_moves hstep
  · obtain ⟨hpc, hzero, rfl⟩ := hmove.halts_only_at_zero hp (session.taken rest)
      (fun he => (idle he).frame rfl rfl rfl rfl rfl rfl rfl rfl) ⟨fill.gap, fill.filled, fill.refilling⟩
      ⟨count.atEvent, count.inHandler⟩ hr ht
    exact ⟨hpc, hzero.symm, rfl⟩
  · exact absurd (hr.symm.trans ht) nofun

end Sys2Proof
end

section
/-! PROOFS. The occupancy of the ring in exact counts (rule R68, I4): the fill boundary advances by one half-ring for each
half-ring event that is consumed, and an event is raised for each half-ring delivered. -/

namespace Sys2Proof.Safety

open Sys2Proof.Machine

/-- The two events of a delivery come at the ends of the two halves, never both at once (rules R46, R190). -/
theorem events_of_count {p : Params} (hp : p.wf = true) (c : Word) :
    (halfEvent p c).toNat + (fullEvent p c).toNat ≤ if p.half ∣ c.toNat then 1 else 0 := by
  have hn := Params.n_eq_two_half hp
  have hpos := Params.half_pos hp
  have hdvd : p.half ∣ p.n := ⟨2, by omega⟩
  rw [halfEvent_iff hp, fullEvent_iff hp]
  by_cases hhalf : c.toNat % p.n = p.half
  · have hend : p.half ∣ c.toNat := (Nat.dvd_mod_iff hdvd).1 (hhalf ▸ dvd_rfl)
    rw [decide_eq_true hhalf, decide_eq_false (by omega), if_pos hend]
    rfl
  · by_cases hfull : c.toNat % p.n = 0
    · have hend : p.half ∣ c.toNat := hdvd.trans (Nat.dvd_of_mod_eq_zero hfull)
      rw [decide_eq_false hhalf, decide_eq_true hfull, if_pos hend]
      rfl
    · rw [decide_eq_false hhalf, decide_eq_false hfull]
      exact Nat.zero_le _

/-- A delivery leaves no more events pending than there were and the one of a half that it ends. -/
theorem pendingEvents_delivered {s t : State} (hp : s.params.wf = true)
    (hh : t.htA = (s.htA || halfEvent s.params (s.aXfer + 1)))
    (ht : t.tcA = (s.tcA || fullEvent s.params (s.aXfer + 1))) :
    pendingEvents t ≤ pendingEvents s + if s.params.half ∣ (s.aXfer + 1).toNat then 1 else 0 := by
  have hevents := events_of_count hp (s.aXfer + 1)
  have hor (a b : Bool) : (a || b).toNat ≤ a.toNat + b.toNat := by
    cases a <;> cases b <;> decide
  have hhalf := hor s.htA (halfEvent s.params (s.aXfer + 1))
  have hfull := hor s.tcA (fullEvent s.params (s.aXfer + 1))
  simp only [pendingEvents, hh, ht]
  omega

/-- The deliveries of whole half-rings, counted after one more delivery. -/
theorem halves_succ (p : Params) {c : Word} (h : c.toNat + 1 < 2 ^ 32) :
    (c + 1).toNat / p.half = c.toNat / p.half + if p.half ∣ (c + 1).toNat then 1 else 0 := by
  have hsucc : (c + 1).toNat = c.toNat + 1 := by bv_omega
  rw [hsucc, Nat.succ_div]

/-- A state whose cursors have started afresh, with no event pending, meets the occupancy invariant. -/
theorem OccupancyInv.of_start {s : State} {k : Nat} (hidx : s.dmaIdx = BitVec.ofNat 32 k)
    (hk : k ≤ s.params.nWord.toNat) (hfill : s.dmaFillto = s.params.nWord) (hh : s.htA = false) (ht : s.tcA = false) :
    OccupancyInv s where
  written := fun _ _ => by
    rw [hidx, hfill]
    exact ofNat_le hk
  released := fun _ _ => by
    have hword := nWord_le s.params
    simp only [pendingEvents, hh, ht, hfill, Bool.toNat_false]
    omega

/-- A state with the same cursors and pending events meets the occupancy invariant where the other does. -/
theorem OccupancyInv.frame {s t : State} (h : OccupancyInv s) (params : t.params = s.params)
    (engine : t.engine = s.engine) (halted : t.halted = s.halted)
    (cursors : (t.dmaIdx, t.dmaFillto, t.aXfer) = (s.dmaIdx, s.dmaFillto, s.aXfer))
    (events : (t.htA, t.tcA) = (s.htA, s.tcA)) : OccupancyInv t := by
  obtain ⟨written, released⟩ := h
  simp only [Prod.mk.injEq] at cursors events
  obtain ⟨hidx, hfill, hx⟩ := cursors
  constructor
  · simpa only [engine, halted, hidx, hfill] using written
  · simpa only [engine, halted, hfill, hx, params, pendingEvents, events] using released

/-- A delivery keeps the occupancy invariant: it raises an event exactly where it ends a half-ring. -/
theorem OccupancyInv.delivered {s t : State} (h : OccupancyInv s) (hp : s.params.wf = true)
    (hfits : s.aXfer.toNat + 1 < 2 ^ 32) (same : (t.params, t.engine, t.halted) = (s.params, s.engine, s.halted))
    (cursors : (t.dmaIdx, t.dmaFillto) = (s.dmaIdx, s.dmaFillto)) (hx : t.aXfer = s.aXfer + 1)
    (hh : t.htA = (s.htA || halfEvent s.params (s.aXfer + 1)))
    (ht : t.tcA = (s.tcA || fullEvent s.params (s.aXfer + 1))) : OccupancyInv t := by
  simp only [Prod.mk.injEq] at same cursors
  obtain ⟨hparams, hengine, hhalted⟩ := same
  refine ⟨fun hw hr => ?_, fun hw hr => ?_⟩
  · rw [cursors.1, cursors.2]
    exact h.written (hengine ▸ hw) (hhalted ▸ hr)
  · have hreleased := h.released (hengine ▸ hw) (hhalted ▸ hr)
    have hpending := Nat.mul_le_mul_left s.params.half (pendingEvents_delivered hp hh ht)
    rw [hparams, cursors.2, hx, halves_succ s.params hfits, Nat.mul_add]
    rw [Nat.mul_add] at hpending
    omega

/-- Every operation keeps the occupancy invariant where the exact counts fit in 32 bits. -/
theorem OccupancyInv.move {i : Instr} {s t : State} (h : OccupancyInv s) (hp : s.params.wf = true)
    (hfits : s.aXfer.toNat + s.params.n + 1 < 2 ^ 32) (hmove : Move s i t) : OccupancyInv t := by
  obtain ⟨written, released⟩ := id h
  cases hmove with
  | freshStarted _ _ _ room => exact .of_start rfl room rfl rfl rfl
  | restarted _ _ _ _ _ room | restartedSpliced _ _ _ _ _ room => exact .of_start rfl room rfl rfl rfl
  | hostStopped | stallStopped | overran | sessionEnded => exact ⟨nofun, nofun⟩
  | refillHalted | spliceHalted | restartHalted | extendZero | extendBusy => exact ⟨nofun, nofun⟩
  | delivered => exact h.delivered hp (by omega) rfl rfl rfl rfl rfl
  | advanced _ _ event =>
    have hbound (hw : s.engine = .writing) (hr : s.halted = false) :
        s.dmaFillto.toNat + s.params.half ≤ s.params.n + s.params.half * (s.aXfer.toNat / s.params.half) ∧
        (s.dmaFillto + s.params.halfWord).toNat = s.dmaFillto.toNat + s.params.half := by
      have hone : pendingEvents s = 1 := by
        rw [pendingEvents]
        cases hh : s.htA <;> cases ht : s.tcA <;> simp_all
      have hreleased := released hw hr
      have hdelivered := Nat.mul_div_le s.aXfer.toNat s.params.half
      rw [hone, Nat.mul_one] at hreleased
      refine ⟨hreleased, ?_⟩
      rw [toNat_add_of_fits, Params.halfWord_toNat hp]
      rw [Params.halfWord_toNat hp]
      omega
    refine ⟨fun hw hr => ?_, fun hw hr => ?_⟩
    · show s.dmaIdx.toNat ≤ (s.dmaFillto + s.params.halfWord).toNat
      have hwritten := written hw hr
      rw [(hbound hw hr).2]
      omega
    · show (s.dmaFillto + s.params.halfWord).toNat + s.params.half * 0 ≤ _
      rw [(hbound hw hr).2]
      exact (hbound hw hr).1
  | refillStepped _ _ _ left =>
    refine ⟨fun hw hr => ?_, released⟩
    have hwritten := written hw hr
    have hroom := room_of_left left
    show (s.dmaIdx + 1).toNat ≤ s.dmaFillto.toNat
    simp only [State.room] at hroom
    bv_omega
  | _ => exact h.frame rfl rfl rfl rfl rfl

/-- I4 (rule R68): what is written is at most one lap ahead of what is delivered. -/
theorem OccupancyInv.oneLap {s : State} (h : OccupancyInv s) (hw : s.engine = .writing) (hr : s.halted = false) :
    s.dmaIdx.toNat ≤ s.aXfer.toNat + s.params.n := by
  have hwritten := h.written hw hr
  have hreleased := h.released hw hr
  have hdelivered := Nat.mul_div_le s.aXfer.toNat s.params.half
  omega

end Sys2Proof.Safety

namespace Sys2Proof

open Sys2Proof.Machine Sys2Proof.Safety

/-- Settles O56: the delivery raises the event that the handler's entry consumes with its half-ring. -/
theorem ringNeverOverwritesUndelivered : Obligations.RingNeverOverwritesUndelivered := by
  intro s t hp h hfits hstep
  have kept : OccupancyInv t := by
    obtain ⟨rest, hstep⟩ := step_moves hstep
    have taken : OccupancyInv (s.taken rest) := h.frame rfl rfl rfl rfl rfl
    obtain ⟨i, -, hmove⟩ | ⟨-, reason, rfl⟩ := hstep
    · exact taken.move hp hfits hmove
    · exact taken.frame rfl rfl rfl rfl rfl
  exact ⟨kept, kept.oneLap⟩

end Sys2Proof
end

section
/-! PROOFS. The handshake under the PEER's duty: the phase tells which line is asserted and which request is latched, so
that no request finds its latch taken (rules R171, R193 H1). -/

namespace Sys2Proof.Safety

open Sys2Proof.Machine

/-- A heard edge finds a session that runs: on an IDLE engine the timer is disabled. -/
theorem HandshakeInv.running {s : State} (h : HandshakeInv s) (hr : s.halted = false) (ht : s.timEn = true) :
    s.engine = .writing ∧ phaseLines s := by
  have hw : s.engine = .writing := engine_writing_of_ne_idle fun he => absurd ((h.idle he).symm.trans ht) nofun
  exact ⟨hw, (h.writing hw hr).2.2⟩

/-- REQ asserted: the phase is REQ_ON and no request is latched. -/
theorem phaseLines_of_req {s : State} (h : phaseLines s) (hreq : s.req = true) : s.aReq = false ∧ s.bReq = false := by
  rw [phaseLines] at h
  cases hp : s.timPhase with
  | off => rw [hp] at h; exact h.elim
  | reqOn =>
    rw [hp] at h
    exact h.2.2
  | primed | acked | released =>
    rw [hp] at h
    exact absurd (h.1.symm.trans hreq) nofun

/-- ACK asserted: the phase is ACKED, REQ is released and DMA-B's request is free. -/
theorem phaseLines_of_ack {s : State} (h : phaseLines s) (hack : s.ack = true) : s.req = false ∧ s.bReq = false := by
  rw [phaseLines] at h
  cases hp : s.timPhase with
  | off => rw [hp] at h; exact h.elim
  | acked =>
    rw [hp] at h
    exact ⟨h.1, h.2.2⟩
  | primed | reqOn | released =>
    rw [hp] at h
    exact absurd (h.2.1.symm.trans hack) nofun

/-- DMA-B's request latched: the phase is RELEASED and both lines are. -/
theorem phaseLines_of_bReq {s : State} (h : phaseLines s) (hb : s.bReq = true) : s.req = false ∧ s.ack = false := by
  rw [phaseLines] at h
  cases hp : s.timPhase with
  | off => rw [hp] at h; exact h.elim
  | released =>
    rw [hp] at h
    exact ⟨h.1, h.2.1⟩
  | primed | reqOn =>
    rw [hp] at h
    exact absurd (h.2.2.2.symm.trans hb) nofun
  | acked =>
    rw [hp] at h
    exact absurd (h.2.2.symm.trans hb) nofun

/-- The phases' lines and latches of two states that agree in them; DMA-A's latch may have been emptied. -/
theorem phaseLines_frame {s t : State} (h : phaseLines s) (hphase : t.timPhase = s.timPhase)
    (lines : (t.req, t.ack, t.bReq) = (s.req, s.ack, s.bReq)) (latch : t.aReq = s.aReq ∨ t.aReq = false) :
    phaseLines t := by
  simp only [Prod.mk.injEq] at lines
  obtain ⟨hreq, hack, hb⟩ := lines
  rw [phaseLines] at h ⊢
  rw [hphase, hreq, hack, hb]
  rcases latch with ha | ha
  · rw [ha]
    exact h
  · rw [ha]
    cases hp : s.timPhase with
    | off | acked | released =>
      rw [hp] at h
      exact h
    | primed | reqOn =>
      rw [hp] at h
      exact ⟨h.1, h.2.1, rfl, h.2.2.2⟩

/-- A session whose units, lines and latches are as they were keeps the handshake invariant. -/
theorem HandshakeInv.frame {s t : State} (h : HandshakeInv s) (engine : t.engine = s.engine)
    (running : t.halted = false → s.halted = false) (units : (t.timEn, t.configured) = (s.timEn, s.configured))
    (phase : t.timPhase = s.timPhase) (lines : (t.req, t.ack, t.bReq) = (s.req, s.ack, s.bReq))
    (latch : t.aReq = s.aReq ∨ t.aReq = false)
    (waiting : t.mainPc ≠ .ready → s.mainPc ≠ .ready ∨ s.configured = true) : HandshakeInv t := by
  simp only [Prod.mk.injEq] at units
  obtain ⟨htim, hconf⟩ := units
  refine ⟨fun hw hr => ?_, fun he => htim.trans (h.idle (engine.symm.trans he)), fun hm => hconf.trans ?_⟩
  · obtain ⟨ht, hc, hphase⟩ := h.writing (engine.symm.trans hw) (running hr)
    exact ⟨htim.trans ht, hconf.trans hc, phaseLines_frame hphase phase lines latch⟩
  · exact (waiting hm).elim h.waiting id

/-- An edge that is not heard comes in no session that runs. -/
theorem HandshakeInv.unheard {s : State} (h : HandshakeInv s) (hu : s.halted = true ∨ s.timEn = false)
    (hw : s.engine = .writing) (hr : s.halted = false) : False := by
  rcases hu with hhalt | htim
  · exact absurd (hr.symm.trans hhalt) nofun
  · exact absurd (htim.symm.trans (h.writing hw hr).1) nofun

/-- The caller of a fresh start has been configured. -/
theorem HandshakeInv.freshConfigured {s : State} {i : Instr} {ptr len : Word} (h : HandshakeInv s)
    (start : StartsFresh s i ptr len) : s.configured = true := by
  rcases start.allowed with ⟨-, -, hc, -⟩ | ⟨cref, t0, -, hpc⟩
  · exact hc
  · exact h.waiting (by rw [hpc]; exact nofun)

/-- Every operation in which the PEER keeps its duty keeps the handshake invariant and loses no request. -/
theorem HandshakeInv.move {i : Instr} {s t : State} (h : HandshakeInv s) (duty : PeerDuty s t) (hmove : Move s i t) :
    HandshakeInv t ∧ (s.reqLost = false → t.reqLost = false) := by
  obtain ⟨writing, idle, waiting⟩ := id h
  cases hmove with
  | initialised main fresh =>
    exact ⟨⟨fun hw => absurd (fresh.symm.trans (writing hw main.running).2.1) nofun, fun _ => rfl, fun _ => rfl⟩, id⟩
  | freshStarted start =>
    have hack := duty.releasedAtStart start.idle rfl
    exact ⟨⟨fun _ _ => ⟨rfl, h.freshConfigured start, rfl, hack, rfl, rfl⟩, nofun, fun hm => absurd rfl hm⟩, id⟩
  | hostStopped | stallStopped => exact ⟨⟨nofun, fun _ => rfl, fun hm => absurd rfl hm⟩, id⟩
  | overran | sessionEnded => exact ⟨⟨nofun, fun _ => rfl, waiting⟩, id⟩
  | blocked join => exact ⟨h.frame rfl id rfl rfl rfl (.inl rfl) fun _ => .inr join.configured, id⟩
  | waits main hw => exact ⟨h.frame rfl id rfl rfl rfl (.inl rfl) fun _ => .inr (writing hw main.running).2.1, id⟩
  | waitCompleted => exact ⟨h.frame rfl id rfl rfl rfl (.inl rfl) fun hm => absurd rfl hm, id⟩
  | assertUnheard _ unheard | releaseUnheard _ unheard =>
    exact ⟨⟨fun hw hr => (h.unheard unheard hw hr).elim, idle, waiting⟩, id⟩
  | assertHeard low hr timer =>
    obtain ⟨hw, hphase⟩ := h.running hr timer
    obtain ⟨ha, hb⟩ := phaseLines_of_req hphase (duty.assertsOnRequest low rfl)
    obtain ⟨-, hc, -⟩ := writing hw hr
    exact ⟨⟨fun _ _ => ⟨timer, hc, rfl, rfl, hb⟩, idle, waiting⟩, fun hl => Bool.or_eq_false_iff.2 ⟨hl, ha⟩⟩
  | releaseHeard high hr timer =>
    obtain ⟨hw, hphase⟩ := h.running hr timer
    obtain ⟨hreq, hb⟩ := phaseLines_of_ack hphase high
    obtain ⟨-, hc, -⟩ := writing hw hr
    exact ⟨⟨fun _ _ => ⟨timer, hc, hreq, rfl, rfl⟩, idle, waiting⟩, fun hl => Bool.or_eq_false_iff.2 ⟨hl, hb⟩⟩
  | requested timer primed hr =>
    obtain ⟨hw, hphase⟩ := h.running hr timer
    obtain ⟨-, hc, -⟩ := writing hw hr
    rw [phaseLines, primed] at hphase
    exact ⟨⟨fun _ _ => ⟨timer, hc, rfl, hphase.2⟩, idle, waiting⟩, id⟩
  | delivered => exact ⟨h.frame rfl id rfl rfl rfl (.inr rfl) .inl, id⟩
  | timerReset latched _ _ copied =>
    refine ⟨⟨fun hw hr => ?_, idle, waiting⟩, id⟩
    obtain ⟨ht, hc, hphase⟩ := writing hw hr
    obtain ⟨hreq, hack⟩ := phaseLines_of_bReq hphase latched
    refine ⟨ht, hc, ?_⟩
    rw [phaseLines]
    dsimp only
    rw [ht]
    exact ⟨hreq, hack, copied, rfl⟩
  | refillHalted | spliceHalted | restartHalted | extendZero | extendBusy =>
    exact ⟨h.frame rfl nofun rfl rfl rfl (.inl rfl) .inl, id⟩
  | _ => exact ⟨h.frame rfl id rfl rfl rfl (.inl rfl) .inl, id⟩

end Sys2Proof.Safety

namespace Sys2Proof

open Sys2Proof.Machine Sys2Proof.Safety

/-- Settles O57: an edge that keeps the duty comes in the one phase in which its request's latch is free. -/
theorem handshakeLosesNoRequest : Obligations.HandshakeLosesNoRequest := by
  intro s t h duty hstep
  obtain ⟨rest, hstep⟩ := step_moves hstep
  have taken : HandshakeInv (s.taken rest) := h.frame rfl id rfl rfl rfl (.inl rfl) .inl
  obtain ⟨i, -, hmove⟩ | ⟨-, reason, rfl⟩ := hstep
  · exact taken.move ⟨duty.assertsOnRequest, duty.releasedAtStart⟩ hmove
  · exact ⟨taken.frame rfl id rfl rfl rfl (.inl rfl) .inl, id⟩

end Sys2Proof
end

section
/-! PROOFS. What no operation does: it clears no mark, shortens no record, writes no application memory, begins and ends a
session only where a rule says so, and primes no timer while a copy is owed (10_state.md sections 2, 5 and 8). -/

namespace Sys2Proof.Machine

open Sys2Proof.Safety

/-! ### Marks and records -/

/-- From `s` to `t` no mark is cleared and every record is extended at its end (rules R66, R67, R69). -/
structure Grows (s t : State) : Prop where
  halted : s.halted = true → t.halted = true
  reqLost : s.reqLost = true → t.reqLost = true
  refused : s.refused = true → t.refused = true
  overrunSeen : s.overrunSeen = true → t.overrunSeen = true
  stallSeen : s.stallSeen = true → t.stallSeen = true
  log : s.log <+: t.log
  trace : s.trace <+: t.trace
  poisonOut : s.poisonOut ≤ t.poisonOut

/-- The trace alone grows. -/
theorem Grows.of_trace {s t : State} (trace : s.trace <+: t.trace)
    (marks : (t.halted, t.reqLost, t.refused) = (s.halted, s.reqLost, s.refused))
    (seen : (t.overrunSeen, t.stallSeen) = (s.overrunSeen, s.stallSeen))
    (records : (t.log, t.poisonOut) = (s.log, s.poisonOut)) : Grows s t := by
  simp only [Prod.mk.injEq] at marks seen records
  obtain ⟨hh, hl, hr⟩ := marks
  exact ⟨hh.trans, hl.trans, hr.trans, seen.1.trans, seen.2.trans, records.1.symm ▸ List.prefix_rfl, trace, records.2.ge⟩

theorem or_keeps {a b : Bool} (h : a = true) : (a || b) = true := by rw [h]; rfl

/-- No operation clears a mark or shortens a record. -/
theorem Move.grows {i : Instr} {s t : State} (hmove : Move s i t) : Grows s t := by
  cases hmove with
  | refused | overflowRefused =>
    exact ⟨id, id, fun _ => rfl, id, id, List.prefix_rfl, List.prefix_append _ _, le_rfl⟩
  | refillHalted | spliceHalted | restartHalted | extendZero | extendBusy =>
    exact ⟨fun _ => rfl, id, id, id, id, List.prefix_rfl, List.prefix_append _ _, le_rfl⟩
  | stallStopped | overran =>
    exact ⟨id, id, id, or_keeps, or_keeps, List.prefix_append _ _,
      (List.prefix_append _ _).trans (List.prefix_append _ _), le_rfl⟩
  | assertHeard =>
    exact ⟨id, or_keeps, id, id, id, List.prefix_rfl, (List.prefix_append _ _).trans (List.prefix_append _ _), le_rfl⟩
  | releaseHeard => exact ⟨id, or_keeps, id, id, id, List.prefix_rfl, List.prefix_append _ _, le_rfl⟩
  | delivered =>
    refine ⟨id, id, id, id, id, List.prefix_rfl, List.prefix_append _ _, ?_⟩
    show s.poisonOut ≤ if s.nextImage = s.params.poison then s.poisonOut + 1 else s.poisonOut
    split
    · exact Nat.le_succ _
    · exact le_rfl
  | freshStarted | hostStopped | sessionEnded | answered | requested =>
    exact .of_trace (List.prefix_append _ _) rfl rfl rfl
  | _ => exact .of_trace List.prefix_rfl rfl rfl rfl

/-! ### Memory, parameters and the output -/

/-- No operation writes application memory or the parameters (rules R19, R80). -/
theorem Move.mem_params {i : Instr} {s t : State} (hmove : Move s i t) : t.mem = s.mem ∧ t.params = s.params := by
  cases hmove with
  | _ => exact ⟨rfl, rfl⟩

/-- A fresh start is an operation of the HOST or the poll of its wait. -/
theorem StartsFresh.main {s : State} {i : Instr} {ptr len : Word} (h : StartsFresh s i ptr len) :
    isHostCommand i = true ∨ i = .waitPoll := by
  obtain ⟨_, rfl, -⟩ | ⟨_, _, rfl, -⟩ := h.allowed
  · exact .inl rfl
  · exact .inr rfl

/-- The one event of DMA_A_XFER carries the image it has put into the output (rule R190). -/
theorem Move.delivers {s t : State} (hmove : Move s .dmaAXfer t) : t.trace = s.trace ++ [.outw t.out] := by
  cases hmove with
  | delivered => rfl
  | unchanged main => exact absurd main (by decide)
  | refused host => exact absurd host (by decide)
  | freshStarted start => exact absurd start.main (by decide)
  | hostStopped _ command => exact absurd command (by decide)

/-- Only DMA_A_XFER writes the output (rules R53, R190). -/
theorem Move.out {i : Instr} {s t : State} (hmove : Move s i t) (hi : i ≠ .dmaAXfer) :
    t.out = s.out ∧ t.poisonOut = s.poisonOut := by
  cases hmove with
  | delivered => exact absurd rfl hi
  | _ => exact ⟨rfl, rfl⟩

/-! ### The engine state and the timer's phase -/

/-- What begins a session (rules R32, R257). -/
theorem Move.begins {i : Instr} {s t : State} (hmove : Move s i t) (hs : s.engine = .idle) (ht : t.engine = .writing) :
    (∃ ptr len cref, i = .startWrite ptr len cref) ∨ i = .waitPoll := by
  cases hmove with
  | freshStarted start =>
    obtain ⟨cref, hi, -⟩ | ⟨cref, t0, hi, -⟩ := start.allowed
    · exact .inl ⟨_, _, cref, hi⟩
    · exact .inr hi
  | hostStopped | stallStopped | overran | sessionEnded => cases ht
  | _ => exact absurd (hs.symm.trans ht) nofun

/-- What ends a session (rules R32, R257). -/
theorem Move.ends {i : Instr} {s t : State} (hmove : Move s i t) (hs : s.engine = .writing) (ht : t.engine = .idle) :
    i = .stopWrite ∨ i = .waitPoll ∨ i = .dataIrq ∨ i = .schedIrq := by
  cases hmove with
  | freshStarted => cases ht
  | hostStopped _ command =>
    obtain rfl | rfl := command
    · exact .inl rfl
    · exact .inr (.inl rfl)
  | stallStopped => exact .inr (.inl rfl)
  | overran => exact .inr (.inr (.inl rfl))
  | sessionEnded => exact .inr (.inr (.inr rfl))
  | _ => exact absurd (hs.symm.trans ht) nofun

/-- What primes the timer: a fresh start, on an IDLE engine, and DMA-B's reset, which waits for the copy (rules R191,
R218). -/
theorem Move.primes {i : Instr} {s t : State} (hmove : Move s i t) (ht : t.timPhase = .primed)
    (hs : s.timPhase ≠ .primed) : s.engine = .idle ∨ (i = .dmaBXfer ∧ s.aReq = false) := by
  cases hmove with
  | freshStarted start => exact .inl start.idle
  | timerReset _ _ _ copied => exact .inr ⟨rfl, copied⟩
  | initialised | hostStopped | stallStopped | overran | sessionEnded | assertHeard | releaseHeard | requested =>
    cases ht
  | _ => exact absurd ht hs

end Sys2Proof.Machine

namespace Sys2Proof

open Sys2Proof.Machine Sys2Proof.Safety

/-- Settles O29: the reset waits for the copy, and a fresh start for an IDLE engine. -/
theorem noTimerResetWhileCopyOwed : Obligations.NoTimerResetWhileCopyOwed := by
  intro i s t hi hw ha hexec ht
  by_contra hs
  rcases (Move.of_exec hi hexec).primes ht hs with hidle | ⟨-, hcopied⟩
  · exact absurd (hw.symm.trans hidle) nofun
  · exact absurd (ha.symm.trans hcopied) nofun

/-- Settles O47: taking the operation's bytes touches no mark and no record, and the operation only extends them. -/
theorem marksAndRecordsOnlyGrow : Obligations.MarksAndRecordsOnlyGrow := by
  intro s t hstep
  have grows : ∃ rest, Grows (s.taken rest) t := by
    obtain ⟨rest, ⟨i, -, hmove⟩ | ⟨-, reason, rfl⟩⟩ := step_moves hstep
    · exact ⟨rest, hmove.grows⟩
    · exact ⟨rest, id, id, fun _ => rfl, id, id, List.prefix_rfl, List.prefix_append _ _, le_rfl⟩
  obtain ⟨rest, halted, reqLost, refused, overrunSeen, stallSeen, log, trace, poisonOut⟩ := grows
  exact ⟨halted, reqLost, refused, overrunSeen, stallSeen, log, trace, poisonOut⟩

/-- Settles O48: the one operation that writes `OUT` emits the image it writes. -/
theorem memoryReadOnlyAndOutOwned : Obligations.MemoryReadOnlyAndOutOwned := by
  refine ⟨fun s t hstep => ?_, fun i s t hi hexec => ⟨(Move.of_exec hi hexec).out, fun hx => ?_⟩⟩
  · obtain ⟨rest, ⟨i, -, hmove⟩ | ⟨-, reason, rfl⟩⟩ := step_moves hstep
    · exact hmove.mem_params
    · exact ⟨rfl, rfl⟩
  · subst hx
    exact (Move.of_exec hi hexec).delivers

/-- Settles O49: a fresh start begins a session, and the four operations that run CTL_STOP end one. -/
theorem engineStateTransitions : Obligations.EngineStateTransitions := fun _ _ _ hi hexec =>
  ⟨(Move.of_exec hi hexec).begins, (Move.of_exec hi hexec).ends⟩

end Sys2Proof
end

section
/-! PROOFS. The counts of a session (rule R193, H2 to H4): each assertion of REQ spends a priming, each priming spends one
of DMA-B's requests and one of its count, and each of these requests follows one of DMA-A's. -/

namespace Sys2Proof.Machine

open Sys2Proof.Safety

/-! ### The events of one operation -/

/-- Events among which rule R193 counts none. -/
def Uncounted (es : List Event) : Prop := outwCount es = 0 ∧ reqCount es = 0

/-- The events of a stop, a release of a line or a mode, are not counted. -/
theorem releaseEvents_uncounted (s : State) : Uncounted (releaseEvents s) := by
  rw [releaseEvents]
  cases s.req <;> cases s.gpioMode <;> exact ⟨rfl, rfl⟩

/-- Nor are those of an edge that the timer hears: a release of REQ, and a lost request. -/
theorem edgeEvents_uncounted (released lost : Bool) (ch : Channel) :
    Uncounted ((if released then [.req false] else []) ++ if lost then [.err (.reqLost ch)] else []) := by
  cases released <;> cases lost <;> exact ⟨rfl, rfl⟩

/-- The HOST's commands and the poll of its wait are none of the operations that rule R193 counts. -/
theorem main_uncounted {i : Instr} (h : isHostCommand i = true ∨ i = .waitPoll) (c : Tally) (s : State) :
    c.add s (some i) = c := by
  cases i with
  | dmaAXfer | dmaBXfer | timerReqAssert | schedIrq => exact absurd h (by decide)
  | _ => rfl

/-- STOP_WRITE and the poll are two of them. -/
theorem main_of_stop {i : Instr} (h : i = .stopWrite ∨ i = .waitPoll) : isHostCommand i = true ∨ i = .waitPoll :=
  h.imp (fun hi => by rw [hi]; rfl) id

/-- From trace `s` to trace `t` as many `OUTW` and `REQ(1)` events are emitted as the tally counts operations. -/
structure Emits (c c' : Tally) (s t : State) : Prop where
  outw : outwCount t.trace + c.transfers = outwCount s.trace + c'.transfers
  req : reqCount t.trace + c.requests = reqCount s.trace + c'.requests

theorem Emits.of_uncounted {c c' : Tally} {s t : State} {es : List Event} (ht : t.trace = s.trace ++ es)
    (hes : Uncounted es) (hc : (c'.transfers, c'.requests) = (c.transfers, c.requests)) : Emits c c' s t := by
  simp only [Prod.mk.injEq] at hc
  constructor
  · rw [ht, outwCount_append, hes.1, hc.1, Nat.add_zero]
  · rw [ht, reqCount_append, hes.2, hc.2, Nat.add_zero]

theorem Emits.of_main {i : Instr} (h : isHostCommand i = true ∨ i = .waitPoll) (c : Tally) {s t : State}
    {es : List Event} (ht : t.trace = s.trace ++ es) (hes : Uncounted es) : Emits c (c.add s (some i)) s t :=
  .of_uncounted ht hes (by rw [main_uncounted h])

/-- DMA_A_XFER emits the one `OUTW` event and TIMER_REQ_ASSERT the one `REQ(1)` (rules R182, R190). -/
theorem Move.emits {i : Instr} {s t : State} (hmove : Move s i t) (c : Tally) : Emits c (c.add s (some i)) s t := by
  cases hmove with
  | unchanged main => exact .of_main main c (List.append_nil _).symm ⟨rfl, rfl⟩
  | refused host => exact .of_main (.inl host) c rfl ⟨rfl, rfl⟩
  | freshStarted start => exact .of_main start.main c rfl ⟨rfl, rfl⟩
  | hostStopped _ command =>
    exact .of_main (main_of_stop command) c rfl (releaseEvents_uncounted s)
  | stallStopped | overran => exact .of_uncounted (List.append_assoc _ _ _) (releaseEvents_uncounted s) rfl
  | sessionEnded => exact .of_uncounted rfl (releaseEvents_uncounted s) rfl
  | assertHeard => exact .of_uncounted (List.append_assoc _ _ _) (edgeEvents_uncounted _ _ _) rfl
  | releaseHeard => exact .of_uncounted rfl (edgeEvents_uncounted false _ _) rfl
  | requested =>
    constructor
    · exact congrArg (· + c.transfers) (outwCount_append _ _)
    · show reqCount (s.trace ++ [.req true]) + c.requests = reqCount s.trace + (c.requests + 1)
      rw [reqCount_append, Nat.add_assoc, Nat.add_comm c.requests]
      rfl
  | delivered =>
    constructor
    · show outwCount (s.trace ++ [.outw _]) + c.transfers = outwCount s.trace + (c.transfers + 1)
      rw [outwCount_append, Nat.add_assoc, Nat.add_comm c.transfers]
      rfl
    · exact congrArg (· + c.requests) (reqCount_append _ _)
  | overflowRefused | answered | refillHalted | spliceHalted | restartHalted | extendZero | extendBusy =>
    exact .of_uncounted rfl ⟨rfl, rfl⟩ rfl
  | _ => exact .of_uncounted (List.append_nil _).symm ⟨rfl, rfl⟩ rfl

/-! ### The counters of one operation inside a session -/

/-- The primings that are left to assert REQ: one while the timer is PRIMED, and none else. -/
def primings (s : State) : Nat := if s.timPhase = .primed then 1 else 0

theorem primings_le_one (s : State) : primings s ≤ 1 := by
  rw [primings]
  split <;> decide

theorem primings_mono {s t : State} (h : t.timPhase = .primed → s.timPhase = .primed) : primings t ≤ primings s := by
  rw [primings, primings]
  split
  · next hp => rw [if_pos (h hp)]
  · exact Nat.zero_le _

/-- An assertion of REQ spends the priming, and in a session only a reset makes one (rules R182, R191, R192). -/
theorem Move.spends_priming {i : Instr} {s t : State} (hmove : Move s i t) (hs : s.engine = .writing) (c : Tally) :
    (c.add s (some i)).requests + primings t + c.resets ≤ c.requests + primings s + (c.add s (some i)).resets := by
  have kept {t : State} {c' : Tally} (hp : t.timPhase = .primed → s.timPhase = .primed)
      (hc : (c'.requests, c'.resets) = (c.requests, c.resets)) :
      c'.requests + primings t + c.resets ≤ c.requests + primings s + c'.resets := by
    simp only [Prod.mk.injEq] at hc
    have hle := primings_mono hp
    omega
  cases hmove with
  | unchanged main => exact kept id (by rw [main_uncounted main])
  | refused host => exact kept id (by rw [main_uncounted (.inl host)])
  | freshStarted start => exact absurd (hs.symm.trans start.idle) nofun
  | hostStopped _ command => exact kept nofun (by rw [main_uncounted (main_of_stop command)])
  | requested _ primed =>
    show c.requests + 1 + 0 + c.resets ≤ c.requests + primings s + c.resets
    rw [primings, if_pos primed]
  | timerReset =>
    refine (Nat.add_le_add_right (Nat.add_le_add_left (primings_le_one _) c.requests) c.resets).trans ?_
    show c.requests + 1 + c.resets ≤ c.requests + primings s + (c.resets + 1)
    omega
  | initialised | stallStopped | overran | sessionEnded | assertHeard | releaseHeard => exact kept nofun rfl
  | _ => exact kept id rfl

/-- A reset takes one from DMA-B's count, which only S_EXTEND raises in a session (rules R191, R254). -/
theorem Move.spends_count {i : Instr} {s t : State} (hmove : Move s i t) (hs : s.engine = .writing)
    (ht : t.engine = .writing) (c : Tally) (hx : (c.add s (some i)).extensions = 0) :
    c.extensions = 0 ∧ (c.add s (some i)).resets + t.bCnt.toNat = c.resets + s.bCnt.toNat := by
  have hzero : c.extensions = 0 ∧ (i = .schedIrq → s.schedPc ≠ .extend) := by
    rw [Tally.add_extensions, Nat.add_eq_zero_iff] at hx
    refine ⟨hx.1, fun hi hpc => ?_⟩
    rw [hi, hpc] at hx
    exact absurd hx.2 (by decide)
  refine ⟨hzero.1, ?_⟩
  cases hmove with
  | unchanged main => rw [main_uncounted main]
  | refused host => rw [main_uncounted (.inl host)]; rfl
  | freshStarted start => exact absurd (hs.symm.trans start.idle) nofun
  | hostStopped | stallStopped | overran | sessionEnded => cases ht
  | timerReset _ _ left =>
    have hpos : s.bCnt.toNat ≠ 0 := fun h => left (BitVec.eq_of_toNat_eq h)
    have hpred : (s.bCnt - 1).toNat = s.bCnt.toNat - 1 := by bv_omega
    show c.resets + 1 + (s.bCnt - 1).toNat = _
    omega
  | extended _ _ label => exact absurd label (hzero.2 rfl)
  | _ => rfl

/-- H2 with what makes it last (rule R193): while no request is lost, no more resets than transfers have been made, and
while the block runs each reset that is still to come has its transfer made or latched. -/
def InOrder (c : Tally) (s : State) : Prop :=
  s.reqLost = false → c.resets ≤ c.transfers ∧
    (s.halted = false → c.resets + s.bReq.toNat + s.ack.toNat ≤ c.transfers + s.aReq.toNat)

/-- The order lasts where nothing is counted and the requests and ACK stay. -/
theorem InOrder.frame {c c' : Tally} {s t : State} (h : InOrder c s) (lost : t.reqLost = s.reqLost)
    (running : t.halted = false → s.halted = false) (latches : (t.aReq, t.bReq, t.ack) = (s.aReq, s.bReq, s.ack))
    (hc : (c'.resets, c'.transfers) = (c.resets, c.transfers)) : InOrder c' t := by
  simp only [Prod.mk.injEq] at latches hc
  obtain ⟨ha, hb, hack⟩ := latches
  intro hl
  rw [hc.1, hc.2, ha, hb, hack]
  obtain ⟨hle, howed⟩ := h (lost.symm.trans hl)
  exact ⟨hle, fun hr => howed (running hr)⟩

/-- Every operation of a session keeps the order: ACK asserting latches DMA-A's request, ACK releasing passes it on to
DMA-B, and DMA-B's transfer waits for DMA-A's (rules R183, R187, R191). -/
theorem InOrder.move {i : Instr} {s t : State} {c : Tally} (h : InOrder c s) (control : ControlInv s)
    (hs : s.engine = .writing) (ht : t.engine = .writing) (hmove : Move s i t) : InOrder (c.add s (some i)) t := by
  have heard : s.halted = false → ¬ (s.halted = true ∨ s.timEn = false) := by
    rintro hr (hhalt | htim)
    · exact absurd (hr.symm.trans hhalt) nofun
    · exact absurd ((control.armed hs hr).timer.1.symm.trans htim) nofun
  cases hmove with
  | unchanged main => exact h.frame rfl id rfl (by rw [main_uncounted main])
  | refused host => exact h.frame rfl id rfl (by rw [main_uncounted (.inl host)])
  | freshStarted start => exact absurd (hs.symm.trans start.idle) nofun
  | hostStopped | stallStopped | overran | sessionEnded => cases ht
  | assertUnheard _ unheard | releaseUnheard _ unheard =>
    exact fun hl => ⟨(h hl).1, fun hr => absurd unheard (heard hr)⟩
  | assertHeard low hr =>
    intro hl
    obtain ⟨hlost, ha⟩ := Bool.or_eq_false_iff.1 hl
    obtain ⟨hle, howed⟩ := h hlost
    have howed := howed hr
    rw [low, ha] at howed
    exact ⟨hle, fun _ => Nat.succ_le_succ howed⟩
  | releaseHeard high hr =>
    intro hl
    obtain ⟨hlost, hb⟩ := Bool.or_eq_false_iff.1 hl
    obtain ⟨hle, howed⟩ := h hlost
    have howed := howed hr
    rw [high, hb] at howed
    exact ⟨hle, fun _ => howed⟩
  | delivered latched _ hr =>
    intro hl
    obtain ⟨hle, howed⟩ := h hl
    have howed := howed hr
    rw [latched] at howed
    exact ⟨hle.trans (Nat.le_succ _), fun _ => howed⟩
  | timerReset latched _ _ copied hr =>
    intro hl
    obtain ⟨-, howed⟩ := h hl
    have howed := howed hr
    rw [latched, copied] at howed
    refine ⟨(Nat.le_add_right _ _).trans howed, fun _ => ?_⟩
    rw [copied]
    exact howed
  | refillHalted | spliceHalted | restartHalted | extendZero | extendBusy => exact h.frame rfl nofun rfl rfl
  | _ => exact h.frame rfl id rfl rfl

end Sys2Proof.Machine

namespace Sys2Proof.Safety

open Sys2Proof.Machine

/-! ### A stretch -/

/-- What every state of a stretch has that its operations keep, from a state with the control invariant on. -/
theorem Stretch.keeps_moves {P : Tally → State → Prop} {s t : State} {c : Tally} (h : Stretch s c t)
    (control : ControlInv s) (start : P .zero s) (taken : ∀ c u rest, P c u → P c (u.taken rest))
    (refused : ∀ c u reason, P c u → P c (refusedWith u reason))
    (move : ∀ c u v i, P c u → ControlInv u → u.engine = .writing → v.engine = .writing → Move u i v →
      P (c.add u (some i)) v) : P c t := by
  refine (h.keeps (P := fun c u => ControlInv u ∧ P c u) ⟨control, start⟩ ?_).2
  rintro c u v ⟨hu, hP⟩ hw hw' hstep
  refine ⟨hu.step hstep, ?_⟩
  obtain ⟨rest, ⟨i, hi, hmove⟩ | ⟨hi, reason, rfl⟩⟩ := step_moves hstep
  · rw [hi]
    exact move c (u.taken rest) v i (taken c u rest hP) (hu.taken rest) hw hw' hmove
  · rw [hi, Tally.add_none]
    exact refused c _ reason (taken c u rest hP)

section
variable {s t : State} {c : Tally}

/-- The tally counts the events (rules R182, R190). -/
theorem Stretch.eventCounts (h : Stretch s c t) (control : ControlInv s) :
    outwCount t.trace = outwCount s.trace + c.transfers ∧ reqCount t.trace = reqCount s.trace + c.requests := by
  refine h.keeps_moves (P := fun c u => outwCount u.trace = outwCount s.trace + c.transfers ∧
    reqCount u.trace = reqCount s.trace + c.requests) control ⟨rfl, rfl⟩ (fun _ _ _ h => h) ?_ ?_
  · rintro c u reason ⟨hout, hreq⟩
    rw [← hout, ← hreq]
    exact ⟨outwCount_append _ _, reqCount_append _ _⟩
  · rintro c u v i ⟨hout, hreq⟩ - - - hmove
    obtain ⟨hout', hreq'⟩ := hmove.emits c
    constructor
    · omega
    · omega

/-- Each assertion of REQ after the first of a primed start follows a reset (rule R193). -/
theorem Stretch.requests_le (h : Stretch s c t) (control : ControlInv s) : c.requests ≤ c.resets + primings s := by
  have hspent : c.requests + primings t ≤ c.resets + primings s := by
    refine h.keeps_moves (P := fun c u => c.requests + primings u ≤ c.resets + primings s) control le_rfl
      (fun _ _ _ h => h) (fun _ _ _ h => h) ?_
    intro c u v i hspent _ hw _ hmove
    have hmoved := hmove.spends_priming hw c
    omega
  omega

/-- Without an extension the resets are what DMA-B's count has lost (rules R191, R193). -/
theorem Stretch.resets_add_count (h : Stretch s c t) (control : ControlInv s) (hx : c.extensions = 0) :
    c.resets + t.bCnt.toNat = s.bCnt.toNat := by
  refine h.keeps_moves (P := fun c u => c.extensions = 0 → c.resets + u.bCnt.toNat = s.bCnt.toNat) control
    (fun _ => Nat.zero_add _) (fun _ _ _ h => h) (fun _ _ _ h => h) ?_ hx
  intro c u v i hcount _ hw hw' hmove hx
  obtain ⟨hx', hmoved⟩ := hmove.spends_count hw hw' c hx
  exact hmoved.trans (hcount hx')

/-- H2 (rule R193): a stretch that begins in order stays in order. -/
theorem Stretch.inOrder (h : Stretch s c t) (control : ControlInv s)
    (start : s.bReq.toNat + s.ack.toNat ≤ s.aReq.toNat) : InOrder c t := by
  refine h.keeps_moves (P := InOrder) control (fun _ => ⟨le_rfl, fun _ => ?_⟩)
    (fun _ _ _ h => h.frame rfl id rfl rfl) (fun _ _ _ h => h.frame rfl id rfl rfl)
    (fun _ _ _ _ h control hw hw' hmove => h.move control hw hw' hmove)
  show 0 + s.bReq.toNat + s.ack.toNat ≤ 0 + s.aReq.toNat
  omega

end

end Sys2Proof.Safety

namespace Sys2Proof

open Sys2Proof.Machine Sys2Proof.Safety

/-- Settles O58: H2 by the order of the requests, H3 and H4 by the primings that the assertions spend, and these by the
resets. -/
theorem sessionCountsKeepOrder : Obligations.SessionCountsKeepOrder := by
  intro s t c control h
  have hrequests := h.requests_le control
  refine ⟨h.eventCounts control, fun start hl => ?_, fun hx => ?_⟩
  · have horder := (h.inOrder control start hl).1
    exact ⟨horder, hrequests.trans (Nat.add_le_add_right horder _)⟩
  · have hcount := h.resets_add_count control hx
    exact hrequests.trans (Nat.add_le_add_right (by omega) _)

end Sys2Proof
end

section
/-! PROOFS. The encoding of operations, both ways, and the runs of whole operations (30_encoding.md). -/

namespace Sys2Proof

/-! ### The decoder, format by format -/

/-- What the decoder makes of an `OPC` byte: an operation without operand words, one with the words its format names, or
a reserved word (rules R113, R114, R116, R118). -/
inductive DecodesAs (opc : Byte) (t : List Byte) : Decoded → Prop where
  | plain {i : Instr} (code : i.opc = opc) (operands : i.operands = []) (words : operandWords opc = 0) :
      DecodesAs opc t (.op i t)
  | one {mk : Word → Instr} (code : ∀ w, (mk w).opc = opc) (operands : ∀ w, (mk w).operands = [w])
      (words : operandWords opc = 1) : DecodesAs opc t (decodeOne mk t)
  | three {mk : Word → Word → Word → Instr} (code : ∀ a b c, (mk a b c).opc = opc)
      (operands : ∀ a b c, (mk a b c).operands = [a, b, c]) (words : operandWords opc = 3) :
      DecodesAs opc t (decodeThree mk t)
  | reserved (words : operandWords opc = 0) : DecodesAs opc t (.reserved opc t)

theorem decode_as (opc : Byte) (t : List Byte) : DecodesAs opc t (decode (opc :: t)) := by
  have code {k : Nat} (h : opc.toNat = k) {b : Byte} (hb : b.toNat = k) : b = opc :=
    BitVec.eq_of_toNat_eq (hb.trans h.symm)
  show DecodesAs opc t (decodeOp opc t)
  unfold decodeOp
  split
  case h_2 h => exact .three (fun _ _ _ => code h rfl) (fun _ _ _ => rfl) (by rw [operandWords, h]; rfl)
  case h_4 h | h_5 h | h_7 h | h_8 h => exact .one (fun _ => code h rfl) (fun _ => rfl) (by rw [operandWords, h]; rfl)
  case h_27 =>
    refine .reserved ?_
    unfold operandWords
    split <;> simp_all
  all_goals next h => exact .plain (code h rfl) rfl (by rw [operandWords, h]; rfl)

/-- The reserved values of the map, and no others, whatever follows them (rule R118). -/
theorem decode_reserved_iff (opc : Byte) (t : List Byte) : decode (opc :: t) = .reserved opc t ↔
    (opc = 0x00 ∨ opc = 0x07 ∨ (0x0A ≤ opc ∧ opc ≤ 0x0F) ∨ (0x12 ≤ opc ∧ opc ≤ 0x17) ∨
      (0x1C ≤ opc ∧ opc ≤ 0x1F) ∨ (0x22 ≤ opc ∧ opc ≤ 0x2F) ∨ 0x3A ≤ opc) := by
  have one (mk : Word → Instr) : decodeOne mk t ≠ .reserved opc t := by
    unfold decodeOne
    split <;> exact nofun
  have three (mk : Word → Word → Word → Instr) : decodeThree mk t ≠ .reserved opc t := by
    unfold decodeThree
    split <;> exact nofun
  show decodeOp opc t = _ ↔ _
  unfold decodeOp
  split
  case h_2 => exact iff_of_false (three _) (by bv_omega)
  case h_4 | h_5 | h_7 | h_8 => exact iff_of_false (one _) (by bv_omega)
  case h_27 =>
    simp only [imp_false] at *
    exact iff_of_true trivial (by bv_omega)
  all_goals exact iff_of_false nofun (by bv_omega)

/-- A word of four bytes is read, or the bytes end in it. -/
theorem decodeOne_cases (mk : Word → Instr) (t : List Byte) :
    (∃ w rest, t = wordBytes w ++ rest ∧ decodeOne mk t = .op (mk w) rest) ∨
      (t.length < 4 ∧ decodeOne mk t = .truncated) := by
  match t with
  | a :: b :: c :: d :: rest => exact .inl ⟨leWord a b c d, rest, by rw [wordBytes_leWord]; rfl, rfl⟩
  | [] | [_] | [_, _] | [_, _, _] => exact .inr ⟨by simp, rfl⟩

/-- Three words are read, or the bytes end in one of them. -/
theorem decodeThree_cases (mk : Word → Word → Word → Instr) (t : List Byte) :
    (∃ u v w rest, t = wordBytes u ++ wordBytes v ++ wordBytes w ++ rest ∧ decodeThree mk t = .op (mk u v w) rest) ∨
      (t.length < 12 ∧ decodeThree mk t = .truncated) := by
  unfold decodeThree
  split
  · next a b c d e f g h i j k l rest =>
    exact .inl ⟨leWord a b c d, leWord e f g h, leWord i j k l, rest, by simp only [wordBytes_leWord]; rfl, rfl⟩
  · next hshort =>
    refine .inr ⟨Nat.lt_of_not_le fun hlong => ?_, rfl⟩
    match t, hlong with
    | _ :: _ :: _ :: _ :: _ :: _ :: _ :: _ :: _ :: _ :: _ :: _ :: _, _ => exact hshort _ _ _ _ _ _ _ _ _ _ _ _ _ rfl

/-- What the decoder finds behind an `OPC` byte: the whole operation and the bytes after it, a reserved word, or an
operation cut inside its operand words. -/
theorem decode_cases (opc : Byte) (t : List Byte) :
    (∃ i rest, i.opc = opc ∧ opc :: t = encode i ++ rest ∧ decode (opc :: t) = .op i rest) ∨
    (operandWords opc = 0 ∧ decode (opc :: t) = .reserved opc t) ∨
    (t.length < 4 * operandWords opc ∧ decode (opc :: t) = .truncated) := by
  generalize hd : decode (opc :: t) = d
  have h : DecodesAs opc t d := hd ▸ decode_as opc t
  cases h with
  | plain code operands words => exact .inl ⟨_, t, code, by rw [encode, operands, code]; rfl, rfl⟩
  | @one mk code operands words =>
    rcases decodeOne_cases mk t with ⟨w, rest, rfl, he⟩ | ⟨hlt, he⟩
    · exact .inl ⟨mk w, rest, code w, by simp [encode, operands, code], he⟩
    · exact .inr (.inr ⟨by rw [words]; exact hlt, he⟩)
  | @three mk code operands words =>
    rcases decodeThree_cases mk t with ⟨u, v, w, rest, rfl, he⟩ | ⟨hlt, he⟩
    · exact .inl ⟨mk u v w, rest, code u v w, by simp [encode, operands, code], he⟩
    · exact .inr (.inr ⟨by rw [words]; exact hlt, he⟩)
  | reserved words => exact .inr (.inl ⟨words, rfl⟩)

/-! ### The encoder -/

/-- An operand word is read back. -/
theorem decodeOne_wordBytes (mk : Word → Instr) (w : Word) (rest : List Byte) :
    decodeOne mk (wordBytes w ++ rest) = .op (mk w) rest := by
  show Decoded.op (mk (leWord _ _ _ _)) rest = _
  rw [leWord_extract]

/-- Three operand words are read back. -/
theorem decodeThree_wordBytes (mk : Word → Word → Word → Instr) (u v w : Word) (rest : List Byte) :
    decodeThree mk (wordBytes u ++ (wordBytes v ++ (wordBytes w ++ rest))) = .op (mk u v w) rest := by
  show Decoded.op (mk (leWord _ _ _ _) (leWord _ _ _ _) (leWord _ _ _ _)) rest = _
  rw [leWord_extract, leWord_extract, leWord_extract]

/-- An operation's bytes decode to it, whatever follows. -/
theorem decode_encode (i : Instr) (rest : List Byte) : decode (encode i ++ rest) = .op i rest := by
  cases i with
  | startWrite ptr len cref => exact decodeThree_wordBytes .startWrite ptr len cref rest
  | finishWrite cref => exact decodeOne_wordBytes .finishWrite cref rest
  | isWriteFinished ptr => exact decodeOne_wordBytes .isWriteFinished ptr rest
  | setCancel cref => exact decodeOne_wordBytes .setCancel cref rest
  | clockTick ms => exact decodeOne_wordBytes .clockTick ms rest
  | _ => rfl

/-- Settles O1: the decoder reads the operand words that the encoder writes. -/
theorem decodeEncodeRoundTrip : Obligations.DecodeEncodeRoundTrip := decode_encode

/-- Settles O2: what the decoder takes from the bytes is what the encoder makes of the operation. -/
theorem everyOperationHasOneEncoding : Obligations.EveryOperationHasOneEncoding := by
  intro bytes rest i h
  cases bytes with
  | nil => cases h
  | cons opc t =>
    rcases decode_cases opc t with ⟨j, rest', -, hbytes, he⟩ | ⟨-, he⟩ | ⟨-, he⟩
    · cases he.symm.trans h
      exact hbytes
    · cases he.symm.trans h
    · cases he.symm.trans h

/-! ### Runs -/

/-- The operand bytes that follow an operation's `OPC` are as many as the scan skips. -/
theorem operands_length (i : Instr) : (i.operands.flatMap wordBytes).length = 4 * operandWords i.opc := by
  cases i <;> rfl

/-- The scan of a run passes over an operation. -/
theorem runOk_encode_append (i : Instr) (rest : List Byte) : runOk (encode i ++ rest) = runOk rest := by
  show runScan (4 * operandWords i.opc) (i.operands.flatMap wordBytes ++ rest) = _
  exact runScan_skip _ _ _ (operands_length i)

/-- The scan of a run that is cut inside an operation fails (decision D48). -/
theorem runScan_short {k : Nat} {t : List Byte} (h : t.length < k) : runScan k t = false := by
  induction t generalizing k with
  | nil =>
    cases k with
    | zero => cases h
    | succ k => rfl
  | cons b t ih =>
    cases k with
    | zero => cases h
    | succ k => exact ih (Nat.lt_of_succ_lt_succ h)

/-- The bytes of one item of a run: an operation, or a reserved word. -/
def itemBytes : Instr ⊕ Byte → List Byte
  | .inl i => encode i
  | .inr b => [b]

/-- A reserved word names no operand words (rule R118). -/
theorem operandWords_of_reserved {b : Byte} (h : decode [b] = .reserved b []) : operandWords b = 0 := by
  rcases decode_cases b [] with ⟨i, rest, -, -, he⟩ | ⟨hz, -⟩ | ⟨-, he⟩
  · cases he.symm.trans h
  · exact hz
  · cases he.symm.trans h

/-- A concatenation of operations and reserved words is a run. -/
theorem runOk_items {items : List (Instr ⊕ Byte)} (h : ∀ b, Sum.inr b ∈ items → decode [b] = .reserved b []) :
    runOk (items.flatMap itemBytes) = true := by
  induction items with
  | nil => rfl
  | cons x items ih =>
    have hrest := ih fun b hb => h b (List.mem_cons_of_mem _ hb)
    rw [List.flatMap_cons]
    cases x with
    | inl i => exact (runOk_encode_append i _).trans hrest
    | inr b =>
      have hz := operandWords_of_reserved (h b List.mem_cons_self)
      show runScan (4 * operandWords b) (items.flatMap itemBytes) = true
      rw [hz]
      exact hrest

/-- A run is a concatenation of operations and reserved words: its head is one of them, and the rest is a run. -/
theorem items_of_runOk (bytes : List Byte) (h : runOk bytes = true) :
    ∃ items : List (Instr ⊕ Byte), (∀ b, Sum.inr b ∈ items → decode [b] = .reserved b []) ∧
      bytes = items.flatMap itemBytes := by
  induction hn : bytes.length using Nat.strong_induction_on generalizing bytes with
  | _ n ih =>
  cases bytes with
  | nil => exact ⟨[], nofun, rfl⟩
  | cons opc t =>
    rcases decode_cases opc t with ⟨i, rest, -, hbytes, -⟩ | ⟨hz, he⟩ | ⟨hlt, -⟩
    · rw [hbytes, runOk_encode_append] at h
      have hshorter : rest.length < n := by
        rw [← hn, hbytes, List.length_append, encode, List.length_cons]
        omega
      obtain ⟨items, hres, rfl⟩ := ih _ hshorter rest h rfl
      exact ⟨.inl i :: items, fun b hb => hres b ((List.mem_cons.1 hb).resolve_left nofun), hbytes⟩
    · have hrest : runOk t = true := by
        have : runScan (4 * operandWords opc) t = true := h
        rwa [hz] at this
      obtain ⟨items, hres, rfl⟩ := ih _ (hn ▸ Nat.lt_succ_self _) _ hrest rfl
      refine ⟨.inr opc :: items, fun b hb => ?_, rfl⟩
      rcases List.mem_cons.1 hb with hb | hb
      · cases hb
        exact (decode_reserved_iff opc []).2 ((decode_reserved_iff opc _).1 he)
      · exact hres b hb
    · cases (runScan_short hlt).symm.trans h

/-- Settles O6: the head of a run is an operation or a reserved word, and what follows it is a run. -/
theorem runOkIffWholeOperations : Obligations.RunOkIffWholeOperations := by
  refine fun bytes => ⟨items_of_runOk bytes, ?_⟩
  rintro ⟨items, hres, rfl⟩
  exact runOk_items hres

/-! ### Steps -/

open Sys2Proof.Machine Sys2Proof.Safety

/-- What is fetched where an operation is at the head of a run. -/
theorem fetch_op {s : State} {i : Instr} {rest : List Byte} (hrun : runOk s.run = true)
    (hd : decode s.run = .op i rest) : fetch s = .op i (s.issuers.headD none) (s.taken rest) := by
  rw [fetch, if_pos hrun, hd]

/-- The issuer that stands first, if any. -/
theorem headD_of_head? {l : List (Option Agent)} {who : Option Agent} (h : l.head? = some who) :
    l.headD none = who := by
  rw [List.headD_eq_head?_getD, h]
  rfl

/-- A step on an operation that is refused (rule R119). -/
theorem step_refused {s : State} {i : Instr} {rest : List Byte} {reason : RefuseReason} (hrun : runOk s.run = true)
    (hd : decode s.run = .op i rest) (ha : admission i (s.issuers.headD none) = some reason) :
    step s = .next (refusedWith { s with run := rest, issuers := s.issuers.tail } reason) := by
  rw [step, fetch_op hrun hd]
  dsimp only
  rw [ha]
  rfl

/-- Settles O3: the decoder's map has no other row, and the refusal marks the state and emits its event. -/
theorem reservedOpcodesRefused : Obligations.ReservedOpcodesRefused := by
  refine ⟨decode_reserved_iff, fun s opc t hrun hd => ?_⟩
  rw [step, fetch, if_pos hrun, hd]
  rfl

/-- Settles O4: the decoder's three answers, and the two refusals of rule R119. -/
theorem internalAndWrongAgentRefused : Obligations.InternalAndWrongAgentRefused := by
  refine ⟨fun opc t => ?_, fun s i rest hrun hd hi => step_refused hrun hd ?_,
    fun s i rest who hrun hd hi hhead hwho => step_refused hrun hd ?_⟩
  · rcases decode_cases opc t with ⟨i, rest, hcode, -, he⟩ | ⟨-, he⟩ | ⟨hlt, he⟩
    · exact .inr (.inl ⟨i, rest, he, hcode⟩)
    · exact .inl he
    · exact .inr (.inr ⟨he, hlt⟩)
  · exact if_pos (beq_iff_eq.2 hi)
  · rw [headD_of_head? hhead, admission, if_neg (c := i.internal = true) (mt beq_iff_eq.1 hi)]
    exact if_neg (mt beq_iff_eq.1 hwho)

/-- Settles O5: the decoder evaluated. -/
theorem sampleWordsDecode : Obligations.SampleWordsDecode := ⟨rfl, rfl, rfl, rfl, rfl, rfl, rfl, rfl, rfl⟩

/-- Settles O7: the two refusals of the model itself, which leave no state. -/
theorem noStepWithoutAnOperation : Obligations.NoStepWithoutAnOperation := by
  refine ⟨fun s hrun => ?_, fun s hrun => ?_⟩
  · rw [step, fetch, hrun]
    rfl
  · rw [step, fetch, hrun]
    rfl

/-- An operation that may stand in a run is admitted from no issuer, or from the agent the map names. -/
theorem admission_of_own {i : Instr} (hi : i.wellFormed = true) {who : Option Agent}
    (hwho : who = none ∨ who = i.agent) : admission i who = none := by
  have hinternal : i.internal = false := by simpa [Instr.wellFormed] using hi
  rw [admission.eq_def, hinternal]
  cases who with
  | none => rfl
  | some a =>
    have hagent : i.issuedBy a = true := beq_iff_eq.2 (hwho.resolve_left nofun).symm
    exact if_pos hagent

/-- Settles O8: the operation at the head of a run that its own agent issues is taken and executed. -/
theorem stepRunsDecodedOperation : Obligations.StepRunsDecodedOperation := by
  intro s i rest hrun hd hi hissuer
  have hwho : s.issuers.headD none = none ∨ s.issuers.headD none = i.agent := by
    rcases hissuer with hnone | hnone | hown
    · exact .inl (by rw [List.headD_eq_head?_getD, hnone]; rfl)
    · exact .inl (headD_of_head? hnone)
    · exact .inr (headD_of_head? hown)
  rw [step, fetch_op hrun hd]
  dsimp only
  rw [admission_of_own hi hwho]
  rfl

end Sys2Proof
end

section
/-! PROOFS. Where an operation has no step, and what a HOST command meets at its port (rules R25, R67, R140). -/

namespace Sys2Proof.Machine

open Sys2Proof.Safety

/-! ### The port -/

/-- Every HOST command stands behind the port, every one but INIT behind the test for INIT (rules R57, R140). -/
theorem exec_hostCommand {i : Instr} (h : isHostCommand i = true) (s : State) :
    (∃ body, exec i s = hostCommand s body) ∧ (i ≠ .init → ∃ body, exec i s = configuredCommand s body) := by
  cases i with
  | init => exact ⟨⟨_, rfl⟩, fun hi => absurd rfl hi⟩
  | startWrite ptr len cref | stopWrite | finishWrite cref | isWriteFinished ptr =>
    exact ⟨⟨_, rfl⟩, fun _ => ⟨_, rfl⟩⟩
  | _ => cases h

/-- Where the port is closed: a blocked caller of a running block is refused, and else there is no step. -/
theorem hostCommand_closed {s : State} (h : s.hostEnabled = false) (body : Host.Outcome State Fault Refusal) :
    hostCommand s body = if s.blocked && !s.halted then .next (refusedWith s .callerBlocked)
      else .fault (.notEnabled .host) := by
  rw [hostCommand, h]
  rfl

/-- A port is closed by a handler, a halt or a caller that waits. -/
theorem hostEnabled_false {s : State}
    (h : s.dataPc ≠ .off ∨ s.schedPc ≠ .off ∨ s.halted = true ∨ s.mainPc ≠ .ready) : s.hostEnabled = false := by
  rw [Bool.eq_false_iff, ne_eq, hostEnabled_iff]
  rintro ⟨hd, hs, hr, hm⟩
  rcases h with h | h | h | h
  · exact h hd
  · exact h hs
  · exact absurd (hr.symm.trans h) nofun
  · exact h hm

/-- The refusal of a blocked caller (rule R140). -/
theorem hostCommand_blocked {s : State} (hm : s.mainPc ≠ .ready) (hr : s.halted = false)
    (body : Host.Outcome State Fault Refusal) : hostCommand s body = .next (refusedWith s .callerBlocked) := by
  rw [hostCommand_closed (hostEnabled_false (.inr (.inr (.inr hm)))), (blocked_iff s).2 hm, hr]
  rfl

/-- No step: the caller is not blocked, or the block is halted. -/
theorem hostCommand_no_step {s : State} (h : s.hostEnabled = false) (hb : s.mainPc = .ready ∨ s.halted = true)
    (body : Host.Outcome State Fault Refusal) : hostCommand s body = .fault (.notEnabled .host) := by
  rw [hostCommand_closed h]
  refine if_neg fun hc => ?_
  obtain ⟨hblocked, hrun⟩ := Bool.and_eq_true_iff.1 hc
  rcases hb with hm | hh
  · exact (blocked_iff s).1 hblocked hm
  · rw [hh] at hrun
    cases hrun

/-! ### The handlers and the poll -/

/-- The data handler comes first: the schedule handler has no step (rules R250, R278). -/
theorem schedIrq_of_dataFirst {s : State} (h : s.dataFirst = true) :
    exec .schedIrq s = .fault (.notEnabled .sched) := by
  refine guarded_of_disabled (schedIrqEnabled_iff s) ?_ _ _
  rintro (hentry | ⟨-, hf, -⟩)
  · obtain ⟨-, -, -, -, hf, -⟩ := (schedEntryEnabled_iff s).1 hentry
    exact absurd (hf.symm.trans h) nofun
  · exact absurd (hf.symm.trans h) nofun

end Sys2Proof.Machine

namespace Sys2Proof

open Sys2Proof.Machine Sys2Proof.Safety

/-- Settles O13: the port's tests in their order: a handler or a halt, a caller that waits, INIT. -/
theorem commandPort : Obligations.CommandPort := by
  intro i s hi
  obtain ⟨⟨body, hexec⟩, hconf⟩ := exec_hostCommand hi s
  refine ⟨fun hr _ _ hm => ?_, fun hr hm hh => ?_, fun hh => ?_, fun ready hc hne => ?_⟩
  · rw [hexec, hostCommand_blocked hm hr]
  · rw [hexec, hostCommand_no_step (hostEnabled_false (hh.imp_right .inl)) (.inl hm)]
  · rw [hexec, hostCommand_no_step (hostEnabled_false (.inr (.inr (.inl hh)))) (.inr hh)]
  · obtain ⟨body', hexec'⟩ := hconf hne
    rw [hexec', configuredCommand_of_unconfigured ready hc]

/-- Settles O37: each context's enabling condition names those that come before it. -/
theorem handlerPriority : Obligations.HandlerPriority := by
  refine ⟨fun s h => schedIrq_of_dataFirst ((dataFirst_iff s).2 ?_), fun s h => waitPoll_notEnabled ?_,
    fun s hpc hr hm hen hp => ⟨_, exec_dataIrq_entry ((dataEntryEnabled_iff s).2
      ⟨hpc, (dataPending_iff s).2 hp, hen, hm, hr⟩)⟩⟩
  · exact h.imp_right fun ⟨hp, hen⟩ => ⟨(dataPending_iff s).2 hp, hen⟩
  · rw [Bool.eq_false_iff, ne_eq, waitPollEnabled_iff]
    rintro ⟨hd, hs, -⟩
    exact h.elim (· hd) (· hs)

/-- Settles O45: the operations behind a guard, and the HOST's behind the port. -/
theorem disabledOperationsTakeNoStep : Obligations.DisabledOperationsTakeNoStep := by
  intro i s hi hen
  have host (hcommand : isHostCommand i = true) (hagent : i.agent = some .host) (hclosed : s.hostEnabled = false) :
      (∃ who, i.agent = some who ∧ exec i s = .fault (.notEnabled who)) ∨
        (isHostCommand i = true ∧ s.mainPc ≠ .ready ∧ s.halted = false ∧
          exec i s = .next (refusedWith s .callerBlocked)) := by
    obtain ⟨⟨body, hexec⟩, -⟩ := exec_hostCommand hcommand s
    rw [hexec]
    by_cases hb : s.mainPc ≠ .ready ∧ s.halted = false
    · exact .inr ⟨hcommand, hb.1, hb.2, hostCommand_blocked hb.1 hb.2 _⟩
    · refine .inl ⟨.host, hagent, hostCommand_no_step hclosed ?_ _⟩
      by_cases hm : s.mainPc = .ready
      · exact .inl hm
      · exact .inr (Bool.eq_true_of_not_eq_false fun hr => hb ⟨hm, hr⟩)
  cases i with
  | init | startWrite ptr len cref | stopWrite | finishWrite cref | isWriteFinished ptr => exact host rfl rfl hen
  | setCancel cref | clockTick ms => cases hen
  | ackAssert =>
    have hack : s.ack = true := (Bool.not_eq_false' _).mp hen
    exact .inl ⟨_, rfl, if_pos hack⟩
  | waitPoll => exact .inl ⟨_, rfl, waitPoll_notEnabled hen⟩
  | ackRelease | timerReqAssert | dmaAFetch | dmaAXfer | dmaBXfer | dataIrq | schedIrq =>
    exact .inl ⟨_, rfl, if_neg (ne_true_of_eq_false hen)⟩
  | refill | checkNextBuffer | ctlInit | ctlStart | ctlStop | ctlExtend | dmaARestart | irqMask | irqUnmask
  | timerUpdate => cases hi

/-- In a halted block only the PEER's lines, the cells and the clock are enabled (rule R67). -/
theorem enabled_of_halted {s : State} (hh : s.halted = true) {i : Instr} (hi : enabled i s = true) :
    i = .ackAssert ∨ i = .ackRelease ∨ (∃ cref, i = .setCancel cref) ∨ ∃ ms, i = .clockTick ms := by
  have halted {p : Prop} (h : s.halted = false) : p := absurd (h.symm.trans hh) nofun
  have host (h : s.hostEnabled = true) {p : Prop} : p := halted ((hostEnabled_iff s).1 h).2.2.1
  cases i with
  | ackAssert => exact .inl rfl
  | ackRelease => exact .inr (.inl rfl)
  | setCancel cref => exact .inr (.inr (.inl ⟨cref, rfl⟩))
  | clockTick ms => exact .inr (.inr (.inr ⟨ms, rfl⟩))
  | init | startWrite ptr len cref | stopWrite | finishWrite cref | isWriteFinished ptr => exact host hi
  | waitPoll => exact halted ((waitPollEnabled_iff s).1 hi).2.2.1
  | timerReqAssert => exact halted ((timerReqEnabled_iff s).1 hi).2.2
  | dmaAFetch => exact halted ((fetchEnabled_iff s).1 hi).2.2
  | dmaAXfer => exact halted ((aXferEnabled_iff s).1 hi).2.2
  | dmaBXfer => exact halted ((bXferEnabled_iff s).1 hi).2.2.2.2
  | dataIrq =>
    rcases (dataIrqEnabled_iff s).1 hi with hentry | ⟨-, hr⟩
    · exact halted ((dataEntryEnabled_iff s).1 hentry).2.2.2.2
    · exact halted hr
  | schedIrq =>
    rcases (schedIrqEnabled_iff s).1 hi with hentry | ⟨-, -, hr⟩
    · exact halted ((schedEntryEnabled_iff s).1 hentry).2.2.2.2.2
    · exact halted hr
  | _ => cases hi

/-- Settles O46: an operation of the block is not enabled, and no caller is refused where the block is halted. -/
theorem haltedBlockIsStuck : Obligations.HaltedBlockIsStuck := by
  intro i s hi hh
  have stuck (hen : enabled i s = false) : ∃ who, exec i s = .fault (.notEnabled who) := by
    rcases disabledOperationsTakeNoStep i s hi hen with ⟨who, -, hexec⟩ | ⟨-, -, hr, -⟩
    · exact ⟨who, hexec⟩
    · exact absurd (hr.symm.trans hh) nofun
  cases i with
  | ackAssert => exact fun hack => by rw [ackAssert_of_low hack, edge_unheard (.inl hh)]
  | ackRelease => exact fun hack => by rw [ackRelease_of_high hack, edge_unheard (.inl hh)]
  | setCancel cref => exact ⟨_, rfl⟩
  | clockTick ms => exact rfl
  | _ =>
    refine stuck (Bool.eq_false_iff.2 fun hen => ?_)
    rcases enabled_of_halted hh hen with hi | hi | ⟨_, hi⟩ | ⟨_, hi⟩ <;> cases hi

end Sys2Proof
end

section
/-! PROOFS. DMA_A_RESTART slot by slot, and the reset state (rules R222, R223, R311). -/

namespace Sys2Proof.Machine

open Sys2Proof.Safety

/-! ### The restart's ring -/

/-- The REFILL of a restart: the bytes beyond the count, into the ring from slot 0 on (rules R211, R222). -/
theorem restart_refills {s : State} (hp : s.params.wf = true) (hl : s.ring.length = s.params.n)
    (session : SessionInv s) :
    ∃ ring, RingFilled s.params s.mem (s.appBuf.toNat + s.scheduledDma.toNat) 0
        (min (s.bytesApp.toNat - s.scheduledDma.toNat) s.params.n) s.params.n s.ring ring ∧
      refill (restartHead s) = .go (restartFilled s ring) := by
  obtain ⟨ring, hring, hgo⟩ := refill_fills (s := restartHead s) hp hl
    ((restartHead_checks_iff s).2 session.scheduled) session.activeFits
  rw [restartHead_count, Params.nWord_toNat hp] at hring
  have hroom : (restartHead s).room = s.params.n := by
    simp [State.room, Params.nWord_toNat hp]
  exact ⟨ring, hroom ▸ hring, hgo⟩

/-- A restart does not splice where bytes of the active buffer are not scheduled or nothing is queued. -/
theorem restart_stays {s : State} (hp : s.params.wf = true) (session : SessionInv s)
    (h : ¬ (s.scheduledDma = s.bytesApp ∧ s.nextValid = true)) (ring : List Image) :
    spliceVerdict (restartFilled s ring) = .stay := by
  have hchecks := (restartHead_checks_iff s).2 session.scheduled
  have htranslated : (restartFilled s ring).bytesDma.toNat = s.scheduledDma.toNat + refillCount (restartHead s) :=
    (refillCount_bounds hchecks).1
  refine spliceVerdict_stay ?_
  cases hv : s.nextValid with
  | false => exact .inr (.inl hv)
  | true =>
    have hne : s.scheduledDma.toNat ≠ s.bytesApp.toNat := fun heq => h ⟨BitVec.eq_of_toNat_eq heq, hv⟩
    have hle := session.scheduled
    have hcount := restartHead_count s
    have hpos := Params.half_pos hp
    have hn := Params.n_eq_two_half hp
    rw [Params.nWord_toNat hp] at hcount
    refine .inr (.inr ?_)
    show s.scheduledDma.toNat < _
    omega

/-- A REFILL from slot 0 on, after one from slot 0 on that had no byte to translate: the second writes the slot that the
first has poisoned. -/
theorem ringFilled_after_none {p : Params} {m : Memory} {src src' k n : Nat} {old mid new : List Image} (hn : 0 < n)
    (first : RingFilled p m src' 0 0 n old mid) (second : RingFilled p m src 0 k n mid new) :
    RingFilled p m src 0 k n old new where
  sameLength := second.sameLength.trans first.sameLength
  images := second.images
  guard := second.guard
  others := by
    intro i hi hg
    have hslot : (0 + 0) % p.n ≠ i := by
      rcases Nat.eq_zero_or_pos k with rfl | hk
      · exact hg hn
      · exact hi 0 hk
    exact (second.others i hi hg).trans (first.others i nofun fun _ => hslot)

/-- DMA_A_RESTART of a session with bytes left in the active buffer, or with none queued (rule R222). -/
theorem dmaARestart_resumes {s : State} (hp : s.params.wf = true) (hl : s.ring.length = s.params.n)
    (session : SessionInv s) (h : ¬ (s.scheduledDma = s.bytesApp ∧ s.nextValid = true)) :
    ∃ ring, RingFilled s.params s.mem (s.appBuf.toNat + s.scheduledDma.toNat) 0
        (min (s.bytesApp.toNat - s.scheduledDma.toNat) s.params.n) s.params.n s.ring ring ∧
      dmaARestart s = .go (restarted s (min (s.bytesApp.toNat - s.scheduledDma.toNat) s.params.n) ring) := by
  obtain ⟨ring, hring, hgo⟩ := restart_refills hp hl session
  refine ⟨ring, hring, ?_⟩
  rw [dmaARestart, hgo, Flow.andThen_go, checkNextBuffer, restart_stays hp session h ring]
  dsimp only
  rw [Flow.andThen_go, restartTail_filled, restartHead_count, Params.nWord_toNat hp]

/-- DMA_A_RESTART of a session whose active buffer is scheduled whole, with one queued (rule R223). -/
theorem dmaARestart_splices {s : State} (hp : s.params.wf = true) (hl : s.ring.length = s.params.n)
    (session : SessionInv s) (hall : s.scheduledDma = s.bytesApp) (hv : s.nextValid = true) :
    ∃ ring, RingFilled s.params s.mem s.nextAppBuf.toNat 0 (min s.nextAppBytes.toNat s.params.n) s.params.n
        s.ring ring ∧
      dmaARestart s = .go (restartedSpliced s (min s.nextAppBytes.toNat s.params.n) ring) := by
  obtain ⟨mid, hmid, hgo⟩ := restart_refills hp hl session
  have hnone : refillCount (restartHead s) = 0 := by
    rw [restartHead_count, hall, Nat.sub_self, Nat.zero_min]
  have hfilled := restartFilled_of_none hnone mid
  rw [hall, Nat.sub_self, Nat.zero_min] at hmid
  have hroom : (restartFilled s mid).room = s.params.n := by
    rw [hfilled]
    simp [State.room, Params.nWord_toNat hp]
  have hlen : (restartFilled s mid).ring.length = s.params.n := hmid.sameLength.trans hl
  obtain ⟨ring, hring, hsplice⟩ := refill_splice_fills (s := restartFilled s mid) hp hlen hroom.le session.queuedFits
  have hcursor : (restartFilled s mid).dmaIdx.toNat = 0 := by rw [hfilled]; rfl
  rw [hroom, hcursor] at hring
  rw [hroom] at hsplice
  have hpos : 0 < s.params.n := Nat.two_pow_pos _
  refine ⟨ring, ringFilled_after_none hpos hmid hring, ?_⟩
  have hswap : spliceVerdict (restartFilled s mid) = .swap := by
    rw [hfilled]
    exact spliceVerdict_swap hall hv rfl
  rw [dmaARestart, hgo, Flow.andThen_go, checkNextBuffer, hswap]
  dsimp only
  rw [hsplice, Flow.andThen_go, restartTail_splice_filled hnone]
  rfl

end Sys2Proof.Machine

namespace Sys2Proof

open Sys2Proof.Machine Sys2Proof.Safety

/-- Settles O43: the two restarts, and the starvation flag by the bytes translated. -/
theorem restartResumesAtScheduled : Obligations.RestartResumesAtScheduled := by
  refine ⟨rfl, fun s hp hl session => ⟨fun h => ?_, fun hall hv => ?_⟩⟩
  · obtain ⟨ring, hring, hgo⟩ := dmaARestart_resumes hp hl session h
    refine ⟨ring, hring, ?_⟩
    show (dmaARestart s).outcome = _
    rw [hgo, Flow.outcome_go, Machine.restarted, ofNat_bne_nWord hp (Nat.min_le_right _ _)]
    rfl
  · obtain ⟨ring, hring, hgo⟩ := dmaARestart_splices hp hl session hall hv
    refine ⟨ring, hring, ?_⟩
    show (dmaARestart s).outcome = _
    rw [hgo, Flow.outcome_go, Machine.restartedSpliced, ofNat_bne_nWord hp (Nat.min_le_right _ _)]
    rfl

/-! ### Reset -/

/-- Settles O10: power-on reset evaluated; the ring capacity is a 32-bit value because the parameters are well formed. -/
theorem resetValues : Obligations.ResetValues := by
  refine ⟨⟨rfl, rfl, rfl, rfl⟩, ⟨rfl, rfl, rfl, rfl, rfl, rfl, rfl⟩, ⟨rfl, rfl, rfl, rfl⟩,
    ⟨rfl, rfl, rfl, rfl, rfl, rfl, rfl⟩, ⟨rfl, rfl, rfl, rfl⟩, ⟨rfl, rfl, rfl, rfl, rfl, rfl⟩,
    ⟨rfl, rfl, rfl, rfl, rfl, rfl⟩, ⟨rfl, rfl, rfl, rfl, rfl, rfl, rfl, rfl, rfl⟩, ?_, rfl, rfl, rfl,
    congrArg some (Params.nWord_toNat Config.params_wf)⟩
  intro n hn
  fin_cases hn <;> rfl

/-- The reset state has the shape: its ring and its output are images by the remainder (rule R311). -/
theorem reset_shape : ShapeInv .reset where
  params := Config.params_wf
  ringLength := by simp [State.reset, State.resetWith]
  ringImages := by
    intro v hv
    obtain ⟨i, -, rfl⟩ := List.mem_map.1 hv
    exact Nat.mod_lt _ (Nat.two_pow_pos _)
  queueImages := nofun
  outImage := Nat.mod_lt _ (Nat.two_pow_pos _)
  queueLength := Nat.zero_le _
  memory := rfl
  cells := rfl

/-- The reset state is at rest (rule R311). -/
theorem reset_idleRest : IdleRest .reset :=
  ⟨⟨rfl, rfl⟩, ⟨rfl, rfl, rfl, rfl⟩, ⟨rfl, rfl, rfl⟩, ⟨rfl, rfl, rfl, rfl⟩, ⟨rfl, rfl, rfl⟩, ⟨rfl, rfl, rfl⟩, rfl, rfl⟩

/-- Settles O11: an IDLE engine meets what is asked of a WRITING one, and the counters are 0. -/
theorem resetMeetsInvariants : Obligations.ResetMeetsInvariants :=
  ⟨reset_shape, ⟨le_rfl, le_rfl, fun _ => rfl, Nat.zero_le _, Nat.zero_le _, nofun⟩, fun _ => reset_idleRest,
    ⟨nofun, fun _ => rfl, ⟨rfl, rfl, rfl, rfl, rfl⟩, nofun, fun h => absurd rfl h⟩, ⟨nofun, nofun, nofun⟩,
    fun _ => rfl, ⟨nofun, fun h => absurd rfl h⟩, ⟨nofun, nofun⟩, ⟨nofun, fun _ => rfl, fun h => absurd rfl h⟩⟩

end Sys2Proof
end

section
/-! PROOFS. The data handler's labelled steps: each in the form the statements write, and all of them together, with no
other agent's step between them, the whole handler (rules R212, R243, R245, R247). -/

namespace Sys2Proof.Machine

open Sys2Proof.Safety

/-! ### The steps of a REFILL -/

/-- The step at a REFILL label (rules R243, R245). -/
theorem dataStep_refill {s : State} {next : DataPc} (label : RefillLabel s.dataPc next) :
    dataStep s = dataRefillStep next s := by
  rw [dataStep]
  generalize s.dataPc = pc at label
  cases label <;> rfl

/-- The step at a poison label (rules R243, R245). -/
theorem dataStep_poison {s : State} {next : DataPc} (label : PoisonLabel s.dataPc next) :
    dataStep s = .go (dataPoisonStep next s) := by
  rw [dataStep]
  generalize s.dataPc = pc at label
  cases label <;> rfl

/-- A REFILL step whose checks fail halts the block. -/
theorem exec_dataIrq_refill_misuse {s : State} {next : DataPc} {site : MisuseSite}
    (label : RefillLabel s.dataPc next) (hr : s.halted = false) (h : refillMisuse s = some site) :
    exec .dataIrq s = .next (haltedAt s site) := by
  rw [exec_dataIrq_active label.inside.1 hr, dataStep_refill label, dataRefillStep, h]
  rfl

/-- A REFILL step with no byte left, or no room, moves the label on. -/
theorem exec_dataIrq_refill_done {s : State} {next : DataPc} (label : RefillLabel s.dataPc next)
    (hr : s.halted = false) (h : refillMisuse s = none) (hc : refillCount s = 0) :
    exec .dataIrq s = .next { s with dataPc := next } := by
  rw [exec_dataIrq_active label.inside.1 hr, dataStep_refill label, dataRefillStep, h]
  dsimp only
  rw [if_pos hc, Flow.outcome_go]

/-- A REFILL step with a byte left is a pass of the byte loop. -/
theorem exec_dataIrq_refill_byte {s : State} {next : DataPc} (label : RefillLabel s.dataPc next)
    (hr : s.halted = false) (h : refillMisuse s = none) (hc : refillCount s ≠ 0) :
    exec .dataIrq s = (refillByte s).outcome := by
  rw [exec_dataIrq_active label.inside.1 hr, dataStep_refill label, dataRefillStep, h]
  dsimp only
  rw [if_neg hc]

/-- The step at a poison label. -/
theorem exec_dataIrq_poison {s : State} {next : DataPc} (label : PoisonLabel s.dataPc next) (hr : s.halted = false) :
    exec .dataIrq s = .next (dataPoisonStep next s) := by
  rw [exec_dataIrq_active label.inside.1 hr, dataStep_poison label, Flow.outcome_go]

/-- No byte is left, or no room, exactly where the count of a REFILL is 0 (rule R211). -/
theorem refillCount_eq_zero_iff {s : State} (h : s.bytesDma.toNat ≤ s.bytesApp.toNat) :
    refillCount s = 0 ↔ s.bytesDma = s.bytesApp ∨ s.dmaIdx = s.dmaFillto := by
  have hroom : s.room = 0 ↔ s.dmaIdx = s.dmaFillto := by
    simp only [State.room]
    constructor
    · intro hz
      bv_omega
    · intro heq
      rw [heq, BitVec.sub_self]
      rfl
  have hmin : refillCount s = 0 ↔ s.avail = 0 ∨ s.room = 0 := by
    rw [refillCount]
    omega
  rw [hmin, hroom]
  refine or_congr_left ?_
  rw [State.avail, ← BitVec.toNat_inj]
  omega

end Sys2Proof.Machine

namespace Sys2Proof

open Sys2Proof.Machine Sys2Proof.Safety

/-- Settles O31: the checks, the byte and the label of a REFILL step, and the slot of a poison step. -/
theorem dataRefillSteps : Obligations.DataRefillSteps := by
  refine ⟨fun s pc after hpc hs hr hp => ?_, fun s pc after hpc hs hr hp => ?_⟩
  · have label : RefillLabel s.dataPc after := by
      rcases hpc with hpc | hpc <;> cases hpc <;> rw [hs]
      · exact .first
      · exact .second
    refine ⟨fun hfail => ?_, fun hleft hne hroom haddr => ?_, fun hle hroom hnone => ?_⟩
    · by_cases ha : s.bytesApp.toNat < s.bytesDma.toNat
      · rw [if_pos ha, exec_dataIrq_refill_misuse label hr (refillMisuse_avail ha)]
      · rw [if_neg ha, exec_dataIrq_refill_misuse label hr
          (refillMisuse_room (Nat.not_lt.1 ha) (hfail.resolve_left ha))]
    · have hcount : refillCount s ≠ 0 := by
        rw [ne_eq, refillCount_eq_zero_iff hleft.le]
        rintro (heq | heq)
        · rw [heq] at hleft
          exact absurd hleft (Nat.lt_irrefl _)
        · exact hne heq
      rw [exec_dataIrq_refill_byte label hr ((refillMisuse_none_iff s).2 ⟨hleft.le, hroom⟩) hcount]
      rcases refillByte_cases s with ⟨-, he⟩ | ⟨hout, -⟩
      · rw [he, Flow.outcome_go, slot_eq hp]
      · omega
    · exact exec_dataIrq_refill_done label hr ((refillMisuse_none_iff s).2 ⟨hle, hroom⟩)
        ((refillCount_eq_zero_iff hle).2 hnone)
  · have label : PoisonLabel s.dataPc after := by
      rcases hpc with hpc | hpc <;> cases hpc <;> rw [hs]
      · exact .first
      · exact .second
    rw [exec_dataIrq_poison label hr, dataPoisonStep, poisonGuard_eq, slot_eq hp]

end Sys2Proof

namespace Sys2Proof.Safety

open Sys2Proof.Machine

/-! ### The steps together -/

/-- `k` steps of the data handler, with no other between them, lead from `s` to `t`. -/
def DataLeads (k : Nat) (s t : State) : Prop := ∀ j, dataRun (k + j) s = dataRun j t

theorem DataLeads.trans {a b : Nat} {s t u : State} (h : DataLeads a s t) (h' : DataLeads b t u) :
    DataLeads (a + b) s u := by
  intro j
  rw [Nat.add_assoc, h, h']

theorem DataLeads.step {s t : State} (h : exec .dataIrq s = .next t) : DataLeads 1 s t := by
  intro j
  rw [Nat.add_comm, dataRun, h]

/-- They are the run of the handler. -/
theorem DataLeads.run {k : Nat} {s t : State} (h : DataLeads k s t) : dataRun k s = .next t := h 0

/-- `s` with the data handler at label `pc`. -/
def labelled (pc : DataPc) (s : State) : State := { s with dataPc := pc }

/-- A REFILL counts one byte less after a byte, and its checks pass again (rule R212). -/
theorem after_refillByte {s t : State} (hm : refillMisuse s = none) {k : Nat} (hc : refillCount s = k + 1)
    (hgo : refillByte s = .go t) : refillMisuse t = none ∧ refillCount t = k := by
  obtain ⟨-, rfl⟩ := refillByte_go hgo
  obtain ⟨-, hroom⟩ := (refillMisuse_none_iff s).1 hm
  have hleft : refillCount s ≠ 0 := by omega
  have hlt := bytesDma_lt_of_left hleft
  have htake := room_after_byte (room_of_left hleft)
  have hbytes : (s.bytesDma + 1).toNat = s.bytesDma.toNat + 1 := by bv_omega
  constructor
  · refine (refillMisuse_none_iff _).2 ⟨?_, ?_⟩
    · exact hbytes.trans_le hlt
    · show (s.dmaFillto - (s.dmaIdx + 1)).toNat ≤ s.params.n
      omega
  · rw [refillCount, State.avail] at hc
    show min (s.bytesApp.toNat - (s.bytesDma + 1).toNat) (s.dmaFillto - (s.dmaIdx + 1)).toNat = k
    omega

/-- The byte steps at a REFILL label are the byte loop, and one step more moves the label (rules R212, R243). -/
theorem dataLeads_bytes {pc next : DataPc} (label : RefillLabel pc next) {k : Nat} {s t : State}
    (hr : s.halted = false) (hm : refillMisuse s = none) (hc : refillCount s = k) (hgo : refillBytes k s = .go t) :
    DataLeads (k + 1) (labelled pc s) (labelled next t) := by
  induction k generalizing s with
  | zero =>
    have hst : t = s := (Flow.go.inj hgo).symm
    subst hst
    exact .step (exec_dataIrq_refill_done (s := labelled pc t) label hr hm hc)
  | succ k ih =>
    obtain ⟨u, hu, hgo'⟩ := Flow.andThen_eq_go hgo
    obtain ⟨hm', hc'⟩ := after_refillByte hm hc hu
    obtain ⟨haddr, rfl⟩ := refillByte_go hu
    have hstep := exec_dataIrq_refill_byte (s := labelled pc s) label hr hm (by
      show refillCount s ≠ 0
      omega)
    rcases refillByte_cases (labelled pc s) with ⟨-, he⟩ | ⟨hout, -⟩
    · rw [he] at hstep
      rw [Nat.add_comm (k + 1)]
      refine (DataLeads.step hstep).trans (ih ?_ hm' hc' hgo')
      exact hr
    · exact absurd haddr (Nat.not_lt.2 hout)

/-- The poison step at its label is the poison guard (rules R214, R243). -/
theorem dataLeads_poison {pc next : DataPc} (label : PoisonLabel pc next) {s : State} (hr : s.halted = false) :
    DataLeads 1 (labelled pc s) (labelled next (poisonGuard s)) := by
  refine .step ((exec_dataIrq_poison (s := labelled pc s) label hr).trans (congrArg Host.Outcome.next ?_))
  rw [dataPoisonStep, poisonGuard_eq, poisonGuard_eq]
  rfl

/-- The labels of one REFILL of the handler, from its byte steps to what follows it. -/
structure RefillLabels (first last : DataPc) : Prop where
  through : ∃ mid, RefillLabel first mid ∧ PoisonLabel mid last

/-- The steps of one REFILL of the handler are REFILL (rules R212, R243, R245). -/
theorem dataLeads_refill {first last : DataPc} (labels : RefillLabels first last) {s t : State}
    (hr : s.halted = false) (hgo : refill s = .go t) :
    DataLeads (refillCount s + 2) (labelled first s) (labelled last t) := by
  obtain ⟨mid, hbytes, hpoison⟩ := labels.through
  obtain ⟨hm, -⟩ := refill_go hgo
  rw [refill, hm] at hgo
  obtain ⟨u, hu, hguard⟩ := Flow.andThen_eq_go hgo
  cases hguard
  obtain ⟨ring, -, rfl⟩ := refillBytes_go hu
  exact (dataLeads_bytes hbytes hr hm rfl hu).trans (dataLeads_poison hpoison hr)

/-- The last step of the handler is the starvation flag and the return (rule R246). -/
theorem dataLeads_end {s : State} (hr : s.halted = false) :
    DataLeads 1 (labelled .finish s) (labelled .off s.flagIncomplete) :=
  .step (exec_dataIrq_active (s := labelled .finish s) nofun hr)

/-- The step D_CNB and the second REFILL's steps are CHECK_NEXT_BUFFER (rule R244). -/
theorem dataLeads_splice {s t : State} (hr : s.halted = false) (hgo : checkNextBuffer s = .go t) :
    ∃ k, k ≤ s.room + 3 ∧ DataLeads k (labelled .cnb s) (labelled .finish t) := by
  have hstep := exec_dataIrq_cnb (s := labelled .cnb s) rfl hr
  have hverdict : spliceVerdict (labelled .cnb s) = spliceVerdict s := rfl
  rw [Machine.dataSpliceStep, hverdict] at hstep
  rcases checkNextBuffer_cases s with ⟨hv, he⟩ | ⟨-, he⟩ | ⟨hv, he⟩
  · cases he.symm.trans hgo
    rw [hv] at hstep
    exact ⟨1, by omega, .step hstep⟩
  · cases he.symm.trans hgo
  · rw [hv] at hstep
    have hroom : refillCount (splice s) ≤ s.room := Nat.min_le_right _ _
    have hrefill := dataLeads_refill (s := splice s) ⟨.poison2, .second, .second⟩ hr (he.symm.trans hgo)
    exact ⟨1 + (refillCount (splice s) + 2), by omega, (DataLeads.step hstep).trans hrefill⟩

/-- The state the whole handler starts its REFILL in: the events consumed, the boundary advanced (rules R242, R247). -/
def boundaryAdvanced (s : State) : State :=
  { s with htA := false, tcA := false, dmaFillto := s.dmaFillto + s.params.halfWord }

/-- The handler's entry without an overrun leads there, to the label that the starvation flag selects. -/
theorem dataLeads_entry {s : State} (h : s.dataEntryEnabled = true) (hone : s.htA ≠ s.tcA) :
    DataLeads 1 s (labelled (if s.incompleteBuf then .finish else .refill1) (boundaryAdvanced s)) := by
  refine .step ((exec_dataIrq_entry h).trans ?_)
  rw [dataEntry_one hone]
  rfl

/-- The whole handler without an overrun (rule R247). -/
theorem onDataIrq_one {s : State} (hone : s.htA ≠ s.tcA) :
    onDataIrq s = (if s.incompleteBuf then .go (boundaryAdvanced s)
      else (refill (boundaryAdvanced s)).andThen checkNextBuffer).andThen fun u => .go u.flagIncomplete := by
  refine if_neg fun hboth => ?_
  obtain ⟨hh, ht⟩ := Bool.and_eq_true_iff.1 hboth
  exact hone (hh.trans ht.symm)

/-- A starving handler only returns (rules R242, R246). -/
theorem dataHandler_starving {s : State} (h : s.dataEntryEnabled = true) (hone : s.htA ≠ s.tcA)
    (hi : s.incompleteBuf = true) :
    ∃ t, onDataIrq s = .go t ∧ dataRun 2 s = .next t ∧ t.dataPc = .off := by
  obtain ⟨hpc, -, -, -, hr⟩ := (dataEntryEnabled_iff s).1 h
  have hentry := dataLeads_entry h hone
  rw [hi] at hentry
  refine ⟨labelled .off (boundaryAdvanced s).flagIncomplete, ?_, (hentry.trans (dataLeads_end hr)).run, rfl⟩
  rw [onDataIrq_one hone, hi, labelled, ← hpc]
  rfl

/-- The room of the handler's REFILL is half a ring where the ring was filled (rules R68, R242). -/
theorem boundaryAdvanced_room {s : State} (hp : s.params.wf = true) (h : s.dmaIdx = s.dmaFillto) :
    (boundaryAdvanced s).room = s.params.half := by
  show (s.dmaFillto + s.params.halfWord - s.dmaIdx).toNat = _
  rw [← Params.halfWord_toNat hp, h]
  bv_omega

/-- CHECK_NEXT_BUFFER goes on where no more is scheduled than the buffer holds; it leaves the handler's label and the halt
mark alone (rules R215, R216). -/
theorem checkNextBuffer_keeps {s : State} (hs : s.scheduledDma.toNat ≤ s.bytesApp.toNat)
    (hr : s.room ≤ s.params.n) (ha : s.nextAppBuf.toNat + s.nextAppBytes.toNat ≤ 2 ^ 32) :
    ∃ t, checkNextBuffer s = .go t ∧ t.halted = s.halted ∧ t.dataPc = s.dataPc := by
  rcases checkNextBuffer_cases s with ⟨-, he⟩ | ⟨hv, -⟩ | ⟨-, he⟩
  · exact ⟨s, he, rfl, rfl⟩
  · rcases spliceVerdict_cases s with ⟨hb, -, hlt, -⟩ | ⟨-, -, -, hv'⟩ | ⟨-, hv'⟩
    · exact absurd (hb ▸ hs) (Nat.not_le.2 hlt)
    · cases hv.symm.trans hv'
    · cases hv.symm.trans hv'
  · obtain ⟨ring, hgo⟩ := refill_goes (s := splice s) ((refillMisuse_none_iff _).2 ⟨Nat.zero_le _, hr⟩) ha
    exact ⟨_, he.trans hgo, rfl, rfl⟩

/-- A handler that does not starve refills, splices and returns (rules R242 to R247). -/
theorem dataHandler_filling {s : State} (hp : s.params.wf = true) (session : SessionInv s)
    (h : s.dataEntryEnabled = true) (hone : s.htA ≠ s.tcA) (hi : s.incompleteBuf = false)
    (hfilled : s.dmaIdx = s.dmaFillto) :
    ∃ k t, k ≤ s.params.half + 7 ∧ onDataIrq s = .go t ∧ dataRun k s = .next t ∧ t.dataPc = .off := by
  obtain ⟨hpc, -, -, -, hr⟩ := (dataEntryEnabled_iff s).1 h
  have hroom := boundaryAdvanced_room hp hfilled
  have hhalf := Params.n_eq_two_half hp
  have hchecks : refillMisuse (boundaryAdvanced s) = none :=
    (refillMisuse_none_iff _).2 ⟨session.translated, hroom.trans_le (show s.params.half ≤ s.params.n by omega)⟩
  obtain ⟨ring, hrefill⟩ := refill_goes hchecks session.activeFits
  have hleft := (refillCount_bounds hchecks).2
  have hcount : refillCount (boundaryAdvanced s) ≤ (boundaryAdvanced s).room := Nat.min_le_right _ _
  generalize hu : (boundaryAdvanced s).filled (refillCount (boundaryAdvanced s)) ring = u at hrefill
  have hkept : u.scheduledDma.toNat ≤ u.bytesApp.toNat ∧ u.nextAppBuf.toNat + u.nextAppBytes.toNat ≤ 2 ^ 32 ∧
      u.halted = false ∧ u.dataPc = .off ∧ u.params = s.params ∧
      u.room = (boundaryAdvanced s).room - refillCount (boundaryAdvanced s) :=
    hu ▸ ⟨session.scheduled, session.queuedFits, hr, hpc, rfl, hleft⟩
  obtain ⟨hscheduled, hqueued, hrun, hoff, hparams, hroom'⟩ := hkept
  obtain ⟨v, hsplice, hrun', hoff'⟩ := checkNextBuffer_keeps hscheduled (by rw [hparams]; omega) hqueued
  obtain ⟨k, hk, hleads⟩ := dataLeads_splice hrun hsplice
  have hentry := dataLeads_entry h hone
  rw [hi] at hentry
  have hall := ((hentry.trans (dataLeads_refill (s := boundaryAdvanced s) ⟨.poison1, .first, .first⟩ hr hrefill)).trans
    hleads).trans (dataLeads_end (hrun'.trans hrun))
  refine ⟨_, labelled .off v.flagIncomplete, ?_, ?_, hall.run, rfl⟩
  · omega
  · rw [onDataIrq_one hone, hi, labelled, ← hoff, ← hoff']
    show ((refill (boundaryAdvanced s)).andThen checkNextBuffer).andThen _ = _
    rw [hrefill, Flow.andThen_go, hsplice, Flow.andThen_go]
    rfl

end Sys2Proof.Safety

namespace Sys2Proof

open Sys2Proof.Machine Sys2Proof.Safety

/-- Settles O60: an overrun is the entry step alone; a starving handler enters and returns; else each REFILL takes its
bytes' steps and two more, and the bytes of both are no more than the room of half a ring. -/
theorem dataHandlerStepsComposeToWhole : Obligations.DataHandlerStepsComposeToWhole := by
  intro s hp session fill hw h
  obtain ⟨hpc, hpending, -, -, hr⟩ := (dataEntryEnabled_iff s).1 h
  by_cases hboth : s.htA = true ∧ s.tcA = true
  · refine ⟨1, dataOverrun s, by omega, if_pos (by rw [hboth.1, hboth.2]; rfl), (DataLeads.step ?_).run, hpc⟩
    rw [exec_dataIrq_entry h, dataEntry_both hboth.1 hboth.2]
  · have hone : s.htA ≠ s.tcA := by
      intro heq
      rcases (dataPending_iff s).1 hpending with ⟨hh, -⟩ | ⟨ht, -⟩
      · exact hboth ⟨hh, heq ▸ hh⟩
      · exact hboth ⟨heq ▸ ht, ht⟩
    cases hi : s.incompleteBuf with
    | true =>
      obtain ⟨t, hgo, hrun, hoff⟩ := dataHandler_starving h hone hi
      exact ⟨2, t, by omega, hgo, hrun, hoff⟩
    | false =>
      obtain ⟨k, t, hk, hgo, hrun, hoff⟩ := dataHandler_filling hp session h hone hi (fill.filled hw hr hi hpc)
      have hhalf := Params.n_eq_two_half hp
      exact ⟨k, t, by omega, hgo, hrun, hoff⟩

end Sys2Proof
end

section
/-! PROOFS. Progress under weak fairness (rules R277 and R279): a handler or a hardware step that stays enabled is taken,
and taking it either reaches what was waited for or leaves less work. -/

namespace Sys2Proof.Safety

open Sys2Proof.Machine

/-! ### Response -/

/-- What makes step `i` reach `Goal` in the end: away from it, no operation raises `work`, and step `i` lowers it. -/
structure Responds (i : Instr) (Goal : State → Prop) (work : State → Nat) : Prop where
  idle : ∀ {s t}, Between s t → work t = work s
  move : ∀ {j s t}, Move s j t → ¬ Goal s → Goal t ∨ work t ≤ work s
  own : ∀ {s t}, exec i s = .next t → ¬ Goal s → Goal t ∨ work t < work s

/-- Where one taking of step `i` reaches the goal there is no work to count. -/
theorem Responds.at_once {i : Instr} {Goal : State → Prop} (own : ∀ {s t}, exec i s = .next t → Goal t) :
    Responds i Goal fun _ => 0 where
  idle := fun _ => rfl
  move := fun _ _ => .inr le_rfl
  own := fun h _ => .inl (own h)

section

variable {r : Schedule} {i : Instr} {Goal : State → Prop} {work : State → Nat}

/-- Over a stretch of a schedule that never meets the goal the work does not grow. -/
theorem Schedule.Valid.work_le (valid : r.Valid) (responds : Responds i Goal work) {n m : Nat} (hnm : n ≤ m)
    (never : ∀ k, n ≤ k → ¬ Goal (r.state k)) : work (r.state m) ≤ work (r.state n) := by
  induction m, hnm using Nat.le_induction with
  | base => exact le_rfl
  | succ m hnm ih =>
    refine le_trans ?_ ih
    cases hop : r.op m with
    | none => exact (responds.idle (valid.idle hop)).le
    | some j =>
      obtain ⟨hwf, hexec⟩ := valid.taken hop
      exact (responds.move (.of_exec hwf hexec) (never m hnm)).resolve_left (never _ (Nat.le_succ_of_le hnm))

/-- A fair step that is enabled until the goal is met meets it: else it is taken again and again, with less work each
time. -/
theorem Schedule.WeaklyFair.meets (fair : r.WeaklyFair) (valid : r.Valid) (hi : i ∈ fairOps)
    (responds : Responds i Goal work) {n : Nat}
    (stays : ∀ m, n ≤ m → ¬ Goal (r.state m) → enabled i (r.state m) = true) :
    ∃ m, n ≤ m ∧ Goal (r.state m) := by
  induction hwork : work (r.state n) using Nat.strong_induction_on generalizing n with
  | _ k ih =>
    by_contra hnone
    have never : ∀ m, n ≤ m → ¬ Goal (r.state m) := fun m hm hgoal => hnone ⟨m, hm, hgoal⟩
    obtain ⟨m, hm, hop⟩ := fair i hi n fun m hm => stays m hm (never m hm)
    have hmore : n ≤ m + 1 := Nat.le_succ_of_le hm
    have hless := (responds.own (valid.taken hop).2 (never m hm)).resolve_left (never (m + 1) hmore)
    have hle := valid.work_le responds hm never
    obtain ⟨m', hm', hgoal⟩ := ih _ (hwork ▸ hless.trans_le hle) (fun k hk => stays k (hmore.trans hk)) rfl
    exact never m' (hmore.trans hm') hgoal

end

end Sys2Proof.Safety

namespace Sys2Proof.Machine

open Sys2Proof.Safety

/-! ### The data handler -/

/-- How many labels of the data handler are still to come, its own included. -/
def dataRank : DataPc → Nat
  | .off => 0
  | .finish => 1
  | .poison2 => 2
  | .refill2 => 3
  | .cnb => 4
  | .poison1 => 5
  | .refill1 => 6

/-- The work of the data handler: its labels, and at one label the room that bytes can still take. -/
def dataWork (s : State) : Nat := dataRank s.dataPc * 2 ^ 32 + s.room

/-- A later label is less work, whatever the room. -/
theorem dataWork_lt_of_rank {s t : State} (h : dataRank t.dataPc < dataRank s.dataPc) : dataWork t < dataWork s := by
  have hroom : t.room < 2 ^ 32 := (t.dmaFillto - t.dmaIdx).isLt
  simp only [dataWork]
  omega

/-- A byte step is less work at its label. -/
theorem dataWork_lt_of_byte {s t : State} (hpc : t.dataPc = s.dataPc) (hidx : t.dmaIdx = s.dmaIdx + 1)
    (hfill : t.dmaFillto = s.dmaFillto) (h : s.room ≠ 0) : dataWork t < dataWork s := by
  have hroom := room_after_byte h
  simp only [dataWork, hpc, Nat.add_lt_add_iff_left]
  rw [State.room, hidx, hfill]
  omega

theorem RefillLabel.rank_lt {pc next : DataPc} (label : RefillLabel pc next) : dataRank next < dataRank pc := by
  cases label <;> decide

theorem PoisonLabel.rank_lt {pc next : DataPc} (label : PoisonLabel pc next) : dataRank next < dataRank pc := by
  cases label <;> decide

/-- The data handler is done, or will never be: it has returned, or the block is halted. -/
def DataDone (s : State) : Prop := s.dataPc = .off ∨ s.halted = true

/-- While the data handler is active, each of its steps leaves it less work, and no other operation touches its label and
its room (rules R243 to R246, R278). -/
theorem Move.data_progress {j : Instr} {s t : State} (hmove : Move s j t) (hactive : s.dataPc ≠ .off) :
    DataDone t ∨ dataWork t < dataWork s ∨ (j ≠ .dataIrq ∧ dataWork t = dataWork s) := by
  have other {j : Instr} (h : isHostCommand j = true ∨ j = .waitPoll) : j ≠ .dataIrq := by
    rintro rfl
    exact absurd h (by decide)
  cases hmove with
  | unchanged main => exact .inr (.inr ⟨other main, rfl⟩)
  | refused host => exact .inr (.inr ⟨other (.inl host), rfl⟩)
  | initialised main | hostStopped main | waits main | answered main | waitCompleted main | stallStopped main =>
    exact absurd main.dataOff hactive
  | freshStarted start => exact absurd start.dataOff hactive
  | mergedQueued join | blocked join | mergedActive join | enqueued join | overflowRefused join =>
    exact absurd join.dataOff hactive
  | overran _ entry | advanced _ entry => exact absurd entry hactive
  | refillHalted | spliceHalted => exact .inl (.inr rfl)
  | refillDone _ label => exact .inr (.inl (dataWork_lt_of_rank label.rank_lt))
  | refillStepped _ _ _ left => exact .inr (.inl (dataWork_lt_of_byte rfl rfl rfl (room_of_left left)))
  | poisoned _ label => exact .inr (.inl (dataWork_lt_of_rank label.rank_lt))
  | spliced _ label =>
    have hrank : dataRank .refill2 < dataRank s.dataPc := label ▸ (by decide : dataRank .refill2 < dataRank .cnb)
    exact .inr (.inl (dataWork_lt_of_rank hrank))
  | notSpliced _ label =>
    have hrank : dataRank .finish < dataRank s.dataPc := label ▸ (by decide : dataRank .finish < dataRank .cnb)
    exact .inr (.inl (dataWork_lt_of_rank hrank))
  | dataReturned => exact .inl (.inl rfl)
  | sessionEnded _ quiet | newDataTaken _ quiet | schedReturned _ quiet | restartHalted _ quiet | restarted _ quiet
  | restartedSpliced _ quiet | extendZero _ quiet | extendBusy _ quiet | extended _ quiet =>
    exact absurd quiet hactive
  | cancelSet | ticked | assertUnheard | assertHeard | releaseUnheard | releaseHeard | requested | prefetched | delivered
  | timerReset => exact .inr (.inr ⟨nofun, rfl⟩)

/-- The data handler's step brings it to its return. -/
theorem dataIrq_responds : Responds .dataIrq DataDone dataWork where
  idle := fun h => by
    obtain ⟨hpc, -, -, -, -, -, hidx, hfill⟩ := h.keeps
    rw [dataWork, dataWork, State.room, State.room, hpc, hidx, hfill]
  move := fun hmove hnot => (hmove.data_progress fun hpc => hnot (.inl hpc)).imp_right fun h =>
    h.elim Nat.le_of_lt fun h => h.2.le
  own := fun h hnot => ((Move.of_dataIrq h).data_progress fun hpc => hnot (.inl hpc)).imp_right fun h =>
    h.resolve_right fun h => h.1 rfl

/-! ### The schedule handler -/

/-- How many labels of the schedule handler are still to come, its own included. -/
def schedWork (s : State) : Nat :=
  match s.schedPc with
  | .off => 0
  | .extend => 1
  | .restart => 2

/-- The schedule handler is done, or will never be: it has returned, or the block is halted. -/
def SchedDone (s : State) : Prop := s.schedPc = .off ∨ s.halted = true

/-- While the schedule handler is active, each of its steps leaves it less work, and no other operation touches its label
(rules R252 to R255, R278). -/
theorem Move.sched_progress {j : Instr} {s t : State} (hmove : Move s j t) (hactive : s.schedPc ≠ .off) :
    SchedDone t ∨ schedWork t < schedWork s ∨ (j ≠ .schedIrq ∧ schedWork t = schedWork s) := by
  have other {j : Instr} (h : isHostCommand j = true ∨ j = .waitPoll) : j ≠ .schedIrq := by
    rintro rfl
    exact absurd h (by decide)
  cases hmove with
  | unchanged main => exact .inr (.inr ⟨other main, rfl⟩)
  | refused host => exact .inr (.inr ⟨other (.inl host), rfl⟩)
  | initialised main | hostStopped main | waits main | answered main | waitCompleted main | stallStopped main =>
    exact absurd main.schedOff hactive
  | freshStarted start => exact absurd start.schedOff hactive
  | mergedQueued join | blocked join | mergedActive join | enqueued join | overflowRefused join =>
    exact absurd join.schedOff hactive
  | sessionEnded _ _ entry | newDataTaken _ _ entry => exact absurd entry hactive
  | schedReturned | extended => exact .inl (.inl rfl)
  | restartHalted | extendZero | extendBusy => exact .inl (.inr rfl)
  | restarted _ _ label | restartedSpliced _ _ label =>
    refine .inr (.inl ?_)
    show 1 < schedWork s
    rw [schedWork, label]
    decide
  | _ => exact .inr (.inr ⟨nofun, rfl⟩)

/-- The schedule handler's step brings it to its return. -/
theorem schedIrq_responds : Responds .schedIrq SchedDone schedWork where
  idle := fun h => by
    obtain ⟨-, hpc, -⟩ := h.keeps
    rw [schedWork, schedWork, hpc]
  move := fun hmove hnot => (hmove.sched_progress fun hpc => hnot (.inl hpc)).imp_right fun h =>
    h.elim Nat.le_of_lt fun h => h.2.le
  own := fun h hnot => ((Move.of_schedIrq h).sched_progress fun hpc => hnot (.inl hpc)).imp_right fun h =>
    h.resolve_right fun h => h.1 rfl

/-! ### The copy and the request -/

/-- No copy is owed, or none will be made: the channel is disabled or the block is halted. -/
def CopyDone (s : State) : Prop := s.aReq = false ∨ s.aEn = false ∨ s.halted = true

/-- DMA_A_XFER makes the copy (rule R190). -/
theorem dmaAXfer_responds : Responds .dmaAXfer CopyDone fun _ => 0 :=
  .at_once fun h => by
    obtain ⟨-, -, -, rfl⟩ := dmaAXfer_next h
    exact .inl rfl

/-- The timer is not PRIMED, or will stay so: it is disabled or the block is halted. -/
def RequestDone (s : State) : Prop := s.timPhase ≠ .primed ∨ s.timEn = false ∨ s.halted = true

/-- TIMER_REQ_ASSERT leaves PRIMED (rule R182). -/
theorem timerReqAssert_responds : Responds .timerReqAssert RequestDone fun _ => 0 :=
  .at_once fun h => by
    obtain ⟨-, -, -, rfl⟩ := timerReqAssert_next h
    exact .inl nofun

/-! ### Until it is done, the step is enabled -/

theorem dataIrq_enabled_of_not_done {s : State} (h : ¬ DataDone s) : enabled .dataIrq s = true := by
  obtain ⟨hpc, hr⟩ := not_or.1 h
  exact (dataIrqEnabled_iff s).2 (.inr ⟨hpc, Bool.eq_false_iff.2 hr⟩)

theorem schedIrq_enabled_of_not_done {s : State} (hquiet : s.dataFirst = false) (h : ¬ SchedDone s) :
    enabled .schedIrq s = true := by
  obtain ⟨hpc, hr⟩ := not_or.1 h
  exact (schedIrqEnabled_iff s).2 (.inr ⟨hpc, hquiet, Bool.eq_false_iff.2 hr⟩)

theorem dmaAXfer_enabled_of_not_done {s : State} (h : ¬ CopyDone s) : enabled .dmaAXfer s = true := by
  simp only [CopyDone, not_or, Bool.not_eq_false, Bool.not_eq_true] at h
  exact (aXferEnabled_iff s).2 h

theorem timerReqAssert_enabled_of_not_done {s : State} (h : ¬ RequestDone s) :
    enabled .timerReqAssert s = true := by
  simp only [RequestDone, not_or, not_not, Bool.not_eq_false, Bool.not_eq_true] at h
  obtain ⟨hprimed, htim, hr⟩ := h
  exact (timerReqEnabled_iff s).2 ⟨htim, hprimed, hr⟩

end Sys2Proof.Machine

namespace Sys2Proof

open Sys2Proof.Machine Sys2Proof.Safety

/-- Settles O59: each of the four steps is enabled until what is waited for is met, so fairness takes it, and it
responds. -/
theorem fairScheduleMakesProgress : Obligations.FairScheduleMakesProgress := by
  intro r valid fair n
  refine ⟨?data, fun hquiet => ?sched, ?copy, ?request⟩
  case data =>
    exact fair.meets valid (by decide) dataIrq_responds fun _ _ => dataIrq_enabled_of_not_done
  case sched =>
    exact fair.meets valid (by decide) schedIrq_responds fun m hm => schedIrq_enabled_of_not_done (hquiet m hm)
  case copy =>
    exact fair.meets valid (by decide) dmaAXfer_responds fun _ _ => dmaAXfer_enabled_of_not_done
  case request =>
    exact fair.meets valid (by decide) timerReqAssert_responds fun _ _ => timerReqAssert_enabled_of_not_done

end Sys2Proof
end

section
/-! PROOFS. The text form read back (rule R120): digits give their number, an operand's text gives its word, and a line
falls apart into the mnemonic and the operands it was made of. -/

namespace Sys2Proof.Machine

/-! ### Digits -/

/-- The digit `d`, as the text form writes it. -/
def digitChar (d : Nat) : Char := if d < 10 then Char.ofNat (48 + d) else Char.ofNat (87 + d)

theorem digitsOf_succ (base k v : Nat) (acc : List Char) : digitsOf base (k + 1) v acc =
    if v / base = 0 then digitChar (v % base) :: acc else digitsOf base k (v / base) (digitChar (v % base) :: acc) := rfl

/-- The two bases of rule R120. -/
def bases : List Nat := [10, 16]

/-- A digit is read as its value. -/
theorem digitValue_digitChar : ∀ base ∈ bases, ∀ d < base, digitValue base (digitChar d) = some d := by decide

theorem readDigits_cons {base d : Nat} (hbase : base ∈ bases) (hd : d < base) (a : Nat) (t : List Char) :
    readDigits base a (digitChar d :: t) = readDigits base (a * base + d) t := by
  rw [readDigits, digitValue_digitChar base hbase d hd]

/-- The digits of a number read from 0 are the number. -/
theorem readDigits_digitsOf {base : Nat} (hbase : base ∈ bases) (k : Nat) {v : Nat} (hv : v < base ^ k)
    (acc : List Char) : readDigits base 0 (digitsOf base k v acc) = readDigits base v acc := by
  have hpos : 0 < base := by
    have hall : ∀ b ∈ bases, 0 < b := by decide
    exact hall base hbase
  induction k generalizing v acc with
  | zero => rw [Nat.lt_one_iff.1 hv, digitsOf]
  | succ k ih =>
    have hmod : v / base * base + v % base = v := Nat.div_add_mod' v base
    have hread := readDigits_cons hbase (Nat.mod_lt v hpos) (v / base) acc
    rw [hmod] at hread
    rw [digitsOf_succ]
    split
    · next hz => rw [← hread, hz]
    · rw [ih (Nat.div_lt_of_lt_mul (by rwa [← Nat.pow_succ'])), hread]

/-- `c` is a digit of the base. -/
def IsDigit (base : Nat) (c : Char) : Prop := ∃ d < base, c = digitChar d

/-- The digits of a number are digits, at least one. -/
theorem digitsOf_digits {base : Nat} (hpos : 0 < base) (k v : Nat) {acc : List Char} (hne : acc ≠ [] ∨ 0 < k)
    (hacc : ∀ c ∈ acc, IsDigit base c) :
    digitsOf base k v acc ≠ [] ∧ ∀ c ∈ digitsOf base k v acc, IsDigit base c := by
  induction k generalizing v acc with
  | zero => exact ⟨hne.resolve_right (Nat.lt_irrefl 0), hacc⟩
  | succ k ih =>
    have hcons : ∀ c ∈ digitChar (v % base) :: acc, IsDigit base c :=
      List.forall_mem_cons.2 ⟨⟨_, Nat.mod_lt v hpos, rfl⟩, hacc⟩
    rw [digitsOf_succ]
    split
    · exact ⟨nofun, hcons⟩
    · exact ih _ (.inl nofun) hcons

/-! ### Words -/

@[simp] theorem wordOf_toNat (w : Word) : wordOf (some w.toNat) = some w := by
  rw [wordOf, if_pos w.isLt, BitVec.ofNat_toNat, BitVec.setWidth_eq]

/-- The digits after `0x` of a word. -/
theorem hexDigits (w : Word) : digitsOf 16 8 w.toNat [] ≠ [] ∧ ∀ c ∈ digitsOf 16 8 w.toNat [], IsDigit 16 c :=
  digitsOf_digits (by decide) 8 _ (.inr (by decide)) nofun

theorem decDigits (w : Word) : decText w ≠ [] ∧ ∀ c ∈ decText w, IsDigit 10 c :=
  digitsOf_digits (by decide) 10 _ (.inr (by decide)) nofun

/-- A word's hexadecimal text is read as the word. -/
theorem readNumber_hexText (w : Word) : readNumber (hexText w) = some w := by
  have hread := readDigits_digitsOf (base := 16) (by decide) 8 (v := w.toNat) (by omega) []
  obtain ⟨c, t, hct⟩ := List.exists_cons_of_ne_nil (hexDigits w).1
  rw [hct] at hread
  rw [hexText, hct, readNumber, hread, readDigits, wordOf_toNat]

/-- `x` is no decimal digit, so a decimal number is not read as a hexadecimal one. -/
theorem not_isDigit_x : ¬ IsDigit 10 'x' := by
  have hne : ∀ d < 10, 'x' ≠ digitChar d := by decide
  exact fun ⟨d, hd, hx⟩ => hne d hd hx

/-- A word's decimal text is read as the word. -/
theorem readNumber_decText (w : Word) : readNumber (decText w) = some w := by
  have hread : readDigits 10 0 (decText w) = some w.toNat :=
    readDigits_digitsOf (base := 10) (by decide) 10 (v := w.toNat) (by omega) []
  obtain ⟨hne, hdigits⟩ := decDigits w
  revert hne hdigits hread
  generalize decText w = t
  intro hread hne hdigits
  unfold readNumber
  split
  · exact absurd rfl hne
  · next c t =>
    exact absurd (hdigits 'x' (by simp)) not_isDigit_x
  · rw [hread, wordOf_toNat]

/-- A cell's text is read as the cell. -/
theorem readCell_cellText (w : Word) : readCell (cellText w) = some w := readNumber_decText w

/-! ### The pieces of a line -/

/-- A character that neither ends a piece of a line nor stands between two. -/
def isPlain (c : Char) : Bool := c != ';' && c != ',' && !isBlank c

theorem isPlain_iff (c : Char) : isPlain c = true ↔ c ≠ ';' ∧ c ≠ ',' ∧ isBlank c = false := by
  simp [isPlain, and_assoc]

/-- A piece of a line: a mnemonic or an operand. -/
def isPiece (t : List Char) : Bool := !t.isEmpty && t.all isPlain

theorem isPiece_iff (t : List Char) : isPiece t = true ↔ t ≠ [] ∧ ∀ c ∈ t, isPlain c = true := by
  simp [isPiece]

/-- Mnemonics are pieces. -/
theorem mnemonicText_isPiece (i : Instr) : isPiece (mnemonicText i) = true := by cases i <;> rfl

theorem IsDigit.isPlain {base : Nat} {c : Char} (hbase : base ≤ 16) (h : IsDigit base c) : isPlain c = true := by
  obtain ⟨d, hd, rfl⟩ := h
  have hall : ∀ d < 16, Machine.isPlain (digitChar d) = true := by decide
  exact hall d (hd.trans_le hbase)

/-- So are the texts of operands. -/
theorem hexText_isPiece (w : Word) : isPiece (hexText w) = true := by
  obtain ⟨-, hdigits⟩ := hexDigits w
  refine (isPiece_iff _).2 ⟨nofun, ?_⟩
  rw [hexText, List.forall_mem_cons, List.forall_mem_cons]
  exact ⟨rfl, rfl, fun c hc => (hdigits c hc).isPlain le_rfl⟩

theorem decText_isPiece (w : Word) : isPiece (decText w) = true := by
  obtain ⟨hne, hdigits⟩ := decDigits w
  exact (isPiece_iff _).2 ⟨hne, fun c hc => (hdigits c hc).isPlain (by decide)⟩

theorem cellText_isPiece (w : Word) : isPiece (cellText w) = true := by
  obtain ⟨-, hplain⟩ := (isPiece_iff _).1 (decText_isPiece w)
  exact (isPiece_iff _).2 ⟨nofun, List.forall_mem_cons.2 ⟨rfl, hplain⟩⟩

/-! ### Taking a line apart -/

/-- A piece at the front stops the search for white space. -/
theorem dropWhile_isBlank_append {a : List Char} (ha : isPiece a = true) (l : List Char) :
    (a ++ l).dropWhile isBlank = a ++ l := by
  obtain ⟨hne, hplain⟩ := (isPiece_iff a).1 ha
  obtain ⟨c, t, rfl⟩ := List.exists_cons_of_ne_nil hne
  obtain ⟨-, -, hc⟩ := (isPlain_iff c).1 (hplain c List.mem_cons_self)
  rw [List.cons_append, List.dropWhile_cons_of_neg (by rw [hc]; exact nofun)]

theorem isPiece_reverse {a : List Char} (ha : isPiece a = true) : isPiece a.reverse = true := by
  simpa [isPiece] using ha

/-- Text with a piece at each end is not trimmed. -/
theorem trimText_of_ends {t a l l' c : List Char} (ha : isPiece a = true) (hc : isPiece c = true)
    (first : t = a ++ l) (last : t = l' ++ c) : trimText t = t := by
  have hback : t.reverse = c.reverse ++ l'.reverse := by rw [last, List.reverse_append]
  rw [trimText, first, dropWhile_isBlank_append ha, ← first, hback, dropWhile_isBlank_append (isPiece_reverse hc),
    ← hback, List.reverse_reverse]

theorem trimText_piece {a : List Char} (ha : isPiece a = true) : trimText a = a :=
  trimText_of_ends ha ha (List.append_nil a).symm (List.nil_append a).symm

theorem trimText_blank_cons (t : List Char) : trimText (' ' :: t) = trimText t := rfl

/-- No comma falls into a piece. -/
theorem splitCommas_append {a : List Char} (ha : isPiece a = true) (acc l : List Char) :
    splitCommas acc (a ++ l) = splitCommas (a.reverse ++ acc) l := by
  obtain ⟨-, hplain⟩ := (isPiece_iff a).1 ha
  clear ha
  induction a generalizing acc with
  | nil => rfl
  | cons c t ih =>
    obtain ⟨hc, ht⟩ := List.forall_mem_cons.1 hplain
    obtain ⟨-, hcomma, -⟩ := (isPlain_iff c).1 hc
    rw [List.cons_append, splitCommas, ih _ ht, List.reverse_cons, List.append_assoc, List.singleton_append]
    exact fun h => hcomma h

/-- One piece is the only part. -/
theorem splitCommas_piece {a : List Char} (ha : isPiece a = true) (acc : List Char) :
    splitCommas acc a = [acc.reverse ++ a] := by
  have h := splitCommas_append ha acc []
  rw [List.append_nil] at h
  rw [h, splitCommas, List.reverse_append, List.reverse_reverse]

/-- A piece before a comma is the first part. -/
theorem splitCommas_piece_cons {a : List Char} (ha : isPiece a = true) (acc l : List Char) :
    splitCommas acc (a ++ ',' :: l) = (acc.reverse ++ a) :: splitCommas [] l := by
  rw [splitCommas_append ha, splitCommas, List.reverse_append, List.reverse_reverse]

/-- What may stand after a mnemonic: text with a piece at each end and no comment. -/
structure OperandList (ops : List Char) : Prop where
  first : ∃ a l, isPiece a = true ∧ ops = a ++ l
  last : ∃ l c, isPiece c = true ∧ ops = l ++ c
  noComment : ∀ c ∈ ops, (c != ';') = true

theorem no_comment_in_piece {a : List Char} (ha : isPiece a = true) : ∀ c ∈ a, (c != ';') = true := by
  intro c hc
  obtain ⟨hsemi, -⟩ := (isPlain_iff c).1 (((isPiece_iff a).1 ha).2 c hc)
  exact bne_iff_ne.2 hsemi

theorem no_blank_in_piece {a : List Char} (ha : isPiece a = true) : ∀ c ∈ a, (!isBlank c) = true := by
  intro c hc
  obtain ⟨-, -, hblank⟩ := (isPlain_iff c).1 (((isPiece_iff a).1 ha).2 c hc)
  rw [hblank]
  rfl

section
variable {m ops : List Char}

/-- The line is its own code. -/
theorem code_of_line (hm : isPiece m = true) (hops : OperandList ops) :
    trimText ((m ++ ' ' :: ops).takeWhile (fun c => c != ';')) = m ++ ' ' :: ops := by
  obtain ⟨l, c, hc, hlast⟩ := hops.last
  have hkeep : (m ++ ' ' :: ops).takeWhile (fun c => c != ';') = m ++ ' ' :: ops := by
    rw [List.takeWhile_eq_self_iff]
    exact List.forall_mem_append.2 ⟨no_comment_in_piece hm, List.forall_mem_cons.2 ⟨rfl, hops.noComment⟩⟩
  rw [hkeep]
  exact trimText_of_ends hm hc rfl (l' := m ++ ' ' :: l) (by rw [hlast, List.append_assoc]; rfl)

/-- Its mnemonic ends at the first blank. -/
theorem mnemonic_of_line (hm : isPiece m = true) :
    (m ++ ' ' :: ops).takeWhile (fun c => !isBlank c) = m := by
  rw [List.takeWhile_append_of_pos (no_blank_in_piece hm)]
  exact List.append_nil m

/-- The rest is the operands. -/
theorem rest_of_line (hm : isPiece m = true) (hops : OperandList ops) :
    trimText ((m ++ ' ' :: ops).dropWhile (fun c => !isBlank c)) = ops := by
  obtain ⟨a, l, ha, hfirst⟩ := hops.first
  obtain ⟨l', c, hc, hlast⟩ := hops.last
  rw [List.dropWhile_append_of_pos (no_blank_in_piece hm)]
  exact (trimText_blank_cons ops).trans (trimText_of_ends ha hc hfirst hlast)

end

/-- A line of a mnemonic alone. -/
theorem readLine_mnemonic {m : List Char} (hm : isPiece m = true) : readLine m = readPlain m := by
  have hcode : m.takeWhile (fun c => c != ';') = m := List.takeWhile_eq_self_iff.2 (no_comment_in_piece hm)
  have hname : m.takeWhile (fun c => !isBlank c) = m := List.takeWhile_eq_self_iff.2 (no_blank_in_piece hm)
  have hrest : m.dropWhile (fun c => !isBlank c) = [] := List.dropWhile_eq_nil_iff.2 (no_blank_in_piece hm)
  simp only [readLine, hcode, trimText_piece hm, hname, hrest]
  rfl

/-- A line of a mnemonic and one operand. -/
theorem readLine_one {m a : List Char} (hm : isPiece m = true) (ha : isPiece a = true) :
    readLine (m ++ ' ' :: a) = readOne m a := by
  have hops : OperandList a :=
    ⟨⟨a, [], ha, (List.append_nil a).symm⟩, ⟨[], a, ha, rfl⟩, no_comment_in_piece ha⟩
  have hparts : (splitCommas [] a).map trimText = [a] := by
    rw [splitCommas_piece ha]
    exact congrArg ([·]) (trimText_piece ha)
  obtain ⟨c, t, rfl⟩ := List.exists_cons_of_ne_nil ((isPiece_iff a).1 ha).1
  simp only [readLine, code_of_line hm hops, mnemonic_of_line hm, rest_of_line hm hops, hparts]

/-- A line of a mnemonic and three operands. -/
theorem readLine_three {m a b c : List Char} (hm : isPiece m = true) (ha : isPiece a = true) (hb : isPiece b = true)
    (hc : isPiece c = true) :
    readLine (m ++ ' ' :: joinOperands [a, b, c]) = readThree m a b c := by
  have hjoin : joinOperands [a, b, c] = a ++ ',' :: ' ' :: (b ++ ',' :: ' ' :: c) := by
    simp [joinOperands]
  have hops : OperandList (joinOperands [a, b, c]) := by
    rw [hjoin]
    refine ⟨⟨a, _, ha, rfl⟩, ⟨a ++ ',' :: ' ' :: (b ++ [',', ' ']), c, hc, by simp⟩, ?_⟩
    simp only [List.forall_mem_append, List.forall_mem_cons]
    exact ⟨no_comment_in_piece ha, rfl, rfl, no_comment_in_piece hb, rfl, rfl, no_comment_in_piece hc⟩
  have hparts : (splitCommas [] (joinOperands [a, b, c])).map trimText = [a, b, c] := by
    have hblank (t : List Char) : splitCommas [] (' ' :: t) = splitCommas [' '] t := rfl
    rw [hjoin, splitCommas_piece_cons ha, hblank, splitCommas_piece_cons hb, hblank, splitCommas_piece hc]
    show [trimText a, trimText b, trimText c] = _
    rw [trimText_piece ha, trimText_piece hb, trimText_piece hc]
  obtain ⟨d, t, hd⟩ : ∃ d t, joinOperands [a, b, c] = d :: t := by
    obtain ⟨d, t, rfl⟩ := List.exists_cons_of_ne_nil ((isPiece_iff a).1 ha).1
    exact ⟨d, _, hjoin⟩
  rw [hd] at hops hparts ⊢
  simp only [readLine, code_of_line hm hops, mnemonic_of_line hm, rest_of_line hm hops, hparts]

/-! ### The operations -/

/-- An operation without operands is found by its mnemonic. -/
theorem readPlain_mnemonicText : ∀ i ∈ plainInstrs, readPlain (mnemonicText i) = some (.op i) := by decide

/-- Its line is its mnemonic. -/
theorem readLine_render_plain {i : Instr} (hi : i ∈ plainInstrs) (hrender : render i = mnemonicText i) :
    readLine (render i) = some (.op i) := by
  rw [hrender, readLine_mnemonic (mnemonicText_isPiece i), readPlain_mnemonicText i hi]

/-- An operation with one operand, from how its operand is read. -/
theorem readLine_render_one {i : Instr} {a : List Char} (hrender : render i = mnemonicText i ++ ' ' :: a)
    (ha : isPiece a = true) (hread : readOne (mnemonicText i) a = some (.op i)) : readLine (render i) = some (.op i) := by
  rw [hrender, readLine_one (mnemonicText_isPiece i) ha, hread]

end Sys2Proof.Machine

namespace Sys2Proof

open Sys2Proof.Machine

/-- Settles O9: a line falls apart into its mnemonic and operands, and each operand's text is read as its word. -/
theorem textRoundTrip : Obligations.TextRoundTrip := by
  intro i
  cases i with
  | startWrite ptr len cref =>
    have hline := readLine_three (mnemonicText_isPiece (.startWrite ptr len cref)) (hexText_isPiece ptr)
      (decText_isPiece len) (cellText_isPiece cref)
    rw [readThree, readNumber_hexText, readNumber_decText, readCell_cellText] at hline
    exact hline
  | finishWrite cref =>
    exact readLine_render_one (a := cellText cref) rfl (cellText_isPiece cref)
      (by simp [readOne, mnemonicText, readCell_cellText])
  | isWriteFinished ptr =>
    exact readLine_render_one (a := hexText ptr) rfl (hexText_isPiece ptr)
      (by simp [readOne, mnemonicText, readNumber_hexText])
  | setCancel cref =>
    exact readLine_render_one (a := cellText cref) rfl (cellText_isPiece cref)
      (by simp [readOne, mnemonicText, readCell_cellText])
  | clockTick ms =>
    exact readLine_render_one (a := decText ms) rfl (decText_isPiece ms)
      (by simp [readOne, mnemonicText, readNumber_decText])
  | _ => exact readLine_render_plain (by decide) rfl

end Sys2Proof
end
